-- ==== Sys2Proof/Word.lean ====
section
/-! DEFINITION. The bit vectors of the SCC: the widths the format and the register map fix (00_scope R7, 10_state). -/

namespace Sys2Proof

/-- A byte of a stream (R60). -/
abbrev Byte := BitVec 8

/-- A matrix dimension or a cursor coordinate, `DIM_W` bits (R7). -/
abbrev Dim := BitVec 16

/-- A `scaleShift`, `SHIFT_W` bits (R7). -/
abbrev Shift := BitVec 8

/-- A payload integer of a stream, `PAYLOAD_W` bits, signed in two's complement (R7, R99). -/
abbrev Payload := BitVec 32

/-- A stream position or length, `SP_W` bits (R7). -/
abbrev Pos := BitVec 40

/-- An entry counter (R27, R35). -/
abbrev Count := BitVec 32

/-- The value of a host register (R39). -/
abbrev RegWord := BitVec 64

/-- A word of the destination matrix store, `DEC_W` bits, signed in two's complement (R7, R41). -/
abbrev DmWord := BitVec 287

/-- A host address of EM or DM: row, column and channel (R61). -/
abbrev StoreAddr := BitVec 34

end Sys2Proof
end

