-- ==== Sys2Proof/Config.lean ====
section
/-! DEFINITION. What an implementation fixes (the open parameters of 00_scope R7) and the free values: what the spec leaves
open, as constants without a body. -/

namespace Sys2Proof

/-- The open parameters of R7. They are data, so that one model covers every legal choice (log 2). -/
structure Params where
  /-- `COEF_W`: width in bits of a word of EM. -/
  coefW : Nat
  /-- `FRAC`: number of fractional bits of a word of EM. -/
  frac : Nat
  /-- `OS_CAP`: capacity of the output stream buffer in bytes; `none` is unbounded. -/
  osCap : Option Nat
deriving DecidableEq, Repr

/-- The defaults of R7: `COEF_W = 64`, `FRAC = 0`, `OS_CAP` unbounded. -/
def Params.initial : Params := { coefW := 64, frac := 0, osCap := none }

/-- The legal range of R7: `0 <= FRAC < COEF_W` and `1 <= COEF_W - FRAC <= 287`. -/
def Params.legal (p : Params) : Bool :=
  decide (p.frac < p.coefW) && decide (p.coefW - p.frac ≤ 287)

/-- `CHANNELS` of R7: one channel per pixel when grayscale, three when colour. -/
def channels (gray : Bool) : Nat := if gray then 1 else 3

/-- FREE VALUE (log 5): which of the enabled agents moves at the `n`-th open choice. The spec gives the agents no relative
speed (U17). -/
opaque Config.arbiter : Nat → Nat

/-- FREE VALUE (log 9): what the `n`-th unspecified host read of EM returns (U4, U8, U9). -/
opaque Config.freeEmWord : Nat → Nat

/-- FREE VALUE (log 9): what the `n`-th unspecified host read of IS returns (U4, U9). -/
opaque Config.freeIsByte : Nat → Byte

/-- FREE VALUE (log 9): what the `n`-th unspecified host read of OS returns (U4, U7). -/
opaque Config.freeOsByte : Nat → Byte

/-- FREE VALUE (log 9): what the `n`-th unspecified host read of DM returns (U4 to U6, U8). -/
opaque Config.freeDmWord : Nat → DmWord

end Sys2Proof
end

