-- ==== Sys2Proof/Syntax.lean ====
section
/-! DEFINITION. The syntax of the SCC: error kinds, entry forms, host accesses, and the one inductive `Instr` with a constructor
for each row of spec/opcode_table.json. -/

namespace Sys2Proof

/-- The five errors of R215 and R216 (code 0, None, is no error). -/
inductive ErrKind where
  | malformedHeader
  | truncatedEntry
  | shapeMismatch
  | unrepresentableMagnitude
  | ioFailure
deriving DecidableEq, Repr

/-- An entry record as the decoder reads it: the form of R103, the flag bits it does not test (`hi` is bits 7:4, `lo` bits 2:0), and
the payload integers in stream order (R100). -/
inductive Entry where
  | z (hi : BitVec 4) (lo : BitVec 3)
  | g (hi : BitVec 4) (lo : BitVec 3) (q : Payload)
  | c0 (hi : BitVec 4)
  | cB (hi : BitVec 4) (qb : Payload)
  | cG (hi : BitVec 4) (qg : Payload)
  | cGB (hi : BitVec 4) (qg qb : Payload)
  | cR (hi : BitVec 4) (qr : Payload)
  | cRB (hi : BitVec 4) (qr qb : Payload)
  | cRG (hi : BitVec 4) (qr qg : Payload)
  | cRGB (hi : BitVec 4) (qr qg qb : Payload)
deriving DecidableEq, Repr

/-- One access at the host interface, with the raw numbers the host presents (R39, R61, R205 to R209). -/
inductive HostAccess where
  | regRead (n : BitVec 4)
  | regWrite (n : BitVec 4) (v : RegWord)
  | emRead (a : StoreAddr)
  | emWrite (a : StoreAddr) (v : Int)
  | isRead (a : Pos)
  | isWrite (a : Pos) (v : RegWord)
  | osRead (a : Pos)
  | dmRead (a : StoreAddr)
deriving DecidableEq, Repr

/-- What the host does to the SCC: an access, or asserting the one reset input (R245, R246). -/
inductive HostEvent where
  | access (a : HostAccess)
  | reset
deriving DecidableEq, Repr

/-- The direction of an EM access (one row of the table covers both): a write presents a value in two's complement (R206). -/
inductive EmOp where
  | read
  | write (v : Int)
deriving DecidableEq, Repr

/-- The direction of an IS access: a write stores bits 7:0 of the value presented (R207). -/
inductive IsOp where
  | read
  | write (v : RegWord)
deriving DecidableEq, Repr

/-- The instructions: one constructor per row of spec/opcode_table.json, in its order. -/
inductive Instr where
  /-- HDR: the header record (R91, R187), its four fields. -/
  | hdr (height width : Dim) (scaleShift isGrayscale : Byte)
  /-- Z: the zero pixel, either mode (R154). -/
  | z (hi : BitVec 4) (lo : BitVec 3)
  /-- G: a grayscale value (R155). -/
  | g (hi : BitVec 4) (lo : BitVec 3) (q : Payload)
  /-- C.0: a colour entry with no channel flagged (R156). -/
  | c0 (hi : BitVec 4)
  /-- C.B (R157). -/
  | cB (hi : BitVec 4) (qb : Payload)
  /-- C.G (R158). -/
  | cG (hi : BitVec 4) (qg : Payload)
  /-- C.GB (R159). -/
  | cGB (hi : BitVec 4) (qg qb : Payload)
  /-- C.R (R160). -/
  | cR (hi : BitVec 4) (qr : Payload)
  /-- C.RB (R161). -/
  | cRB (hi : BitVec 4) (qr qb : Payload)
  /-- C.RG (R162). -/
  | cRG (hi : BitVec 4) (qr qg : Payload)
  /-- C.RGB (R163). -/
  | cRGB (hi : BitVec 4) (qr qg qb : Payload)
  /-- ENC.HDR: the header record as ENC writes it (R173). -/
  | encHdr
  /-- ENC.Z: the pixel at the cursor is zero (R135, R137). -/
  | encZ
  /-- ENC.G: the grayscale coefficient at the cursor is non-zero (R135). -/
  | encG
  /-- ENC.C.B: only blue non-zero (R140). -/
  | encCB
  /-- ENC.C.G: only green non-zero (R141). -/
  | encCG
  /-- ENC.C.GB: green and blue non-zero (R142). -/
  | encCGB
  /-- ENC.C.R: only red non-zero (R143). -/
  | encCR
  /-- ENC.C.RB: red and blue non-zero (R144). -/
  | encCRB
  /-- ENC.C.RG: red and green non-zero (R145). -/
  | encCRG
  /-- ENC.C.RGB: all three non-zero (R146). -/
  | encCRGB
  /-- ENC.SCALE (R121). -/
  | encScale
  /-- ENC.HEADER (R173). -/
  | encHeader
  /-- ENC.ENTRY (R174). -/
  | encEntry
  /-- DEC.HEADER (R187). -/
  | decHeader
  /-- DEC.ENTRY (R189). -/
  | decEntry
  /-- DEC.FINISH (R190). -/
  | decFinish
  /-- ERROR_STEP: the unit that can raise `x` takes the error step with position `p` (R222). -/
  | errorStep (x : ErrKind) (p : Pos)
  /-- ENC_START: a write to register 0 with bit 0 = 1; bits 63:1 are ignored (R200). -/
  | encStart (ignored : BitVec 63)
  /-- DEC_START: a write to register 8 with bit 0 = 1; bits 63:1 are ignored (R201). -/
  | decStart (ignored : BitVec 63)
  /-- RD n (R204). -/
  | rd (n : BitVec 4)
  /-- WR n, v (R205). -/
  | wr (n : BitVec 4) (v : RegWord)
  /-- WR EM / RD EM (R206). -/
  | emAccess (op : EmOp) (row col : Dim) (ch : BitVec 2)
  /-- WR IS / RD IS (R207). -/
  | isAccess (op : IsOp) (a : Pos)
  /-- RD OS (R208). -/
  | rdOs (a : Pos)
  /-- RD DM (R209). -/
  | rdDm (row col : Dim) (ch : BitVec 2)
deriving DecidableEq, Repr

/-- The instruction an entry record stands for. -/
def Entry.instr : Entry → Instr
  | .z hi lo => .z hi lo
  | .g hi lo q => .g hi lo q
  | .c0 hi => .c0 hi
  | .cB hi qb => .cB hi qb
  | .cG hi qg => .cG hi qg
  | .cGB hi qg qb => .cGB hi qg qb
  | .cR hi qr => .cR hi qr
  | .cRB hi qr qb => .cRB hi qr qb
  | .cRG hi qr qg => .cRG hi qr qg
  | .cRGB hi qr qg qb => .cRGB hi qr qg qb

/-- The mode a record of this form is read in (R103): Z in both, G in grayscale, the C forms in colour. -/
def Entry.inMode (gray : Bool) : Entry → Bool
  | .z _ _ => true
  | .g _ _ _ => gray
  | .c0 _ | .cB _ _ | .cG _ _ | .cGB _ _ _ | .cR _ _ | .cRB _ _ _ | .cRG _ _ _ | .cRGB _ _ _ _ => !gray

end Sys2Proof
end

