-- ==== Sys2Proof/Machine/State.lean ====
section
/-! DEFINITION. The state of the SCC as plain data (10_state R20 to R47), its faults and refusals, and the state after reset. -/

namespace Sys2Proof.Machine

/-- The STATE field of a unit (R23, R30). -/
inductive UnitState where
  | idle
  | busy
  | done
  | error
deriving DecidableEq, Repr

/-- E_PHASE (R24); the value 3 never occurs. -/
inductive EncPhase where
  | scale
  | header
  | entries
deriving DecidableEq, Repr

/-- D_PHASE (R31). -/
inductive DecPhase where
  | header
  | entries
deriving DecidableEq, Repr

/-- The encoder unit ENC: what it owns (R20). -/
structure EncState where
  /-- E_H (R22). -/
  h : Dim
  /-- E_W (R22). -/
  w : Dim
  /-- E_GRAY (R22). -/
  gray : Bool
  /-- E_STATE (R23). -/
  st : UnitState
  /-- E_PHASE (R24). -/
  phase : EncPhase
  /-- E_ERR (R25): `none` is code 0. -/
  err : Option ErrKind
  /-- E_SHIFT (R26). -/
  shift : Shift
  /-- E_ROW (R27). -/
  row : Dim
  /-- E_COL (R27). -/
  col : Dim
  /-- E_CNT (R27). -/
  cnt : Count
  /-- OS_LEN (R28). -/
  osLen : Pos
  /-- OS_OPEN (R29). -/
  osOpen : Bool
  /-- EM (R40): the words the host has written since reset, each the raw pattern of `COEF_W` bits, by 34-bit address (R61). An unlisted
  word holds no value (R47). -/
  em : List (Nat × Nat)
  /-- OS (R43): the bytes appended since reset, by offset. -/
  os : List Host.Cell
deriving DecidableEq, Repr

/-- The decoder unit DEC: what it owns (R20). -/
structure DecState where
  /-- D_STATE (R30). -/
  st : UnitState
  /-- D_PHASE (R31). -/
  phase : DecPhase
  /-- D_ERR (R32): `none` is code 0. -/
  err : Option ErrKind
  /-- D_ERRPOS (R33). -/
  errPos : Pos
  /-- D_H (R34). -/
  h : Dim
  /-- D_W (R34). -/
  w : Dim
  /-- D_SHIFT (R34). -/
  shift : Shift
  /-- D_GRAY (R34). -/
  gray : Bool
  /-- D_ROW (R35). -/
  row : Dim
  /-- D_COL (R35). -/
  col : Dim
  /-- D_CNT (R35). -/
  cnt : Count
  /-- D_SP (R36), the program-counter analogue (R44). -/
  sp : Pos
  /-- IS_LEN (R37). -/
  isLen : Pos
  /-- IS_OPEN (R37). -/
  isOpen : Bool
  /-- DM_VALID (R37). -/
  dmValid : Bool
  /-- IS (R42): the bytes the host has written since reset, by offset. An unlisted byte holds no value (R47). -/
  inp : List Host.Cell
  /-- DM (R41): the non-zero words, by 34-bit address (R61). An unlisted word reads as 0 (log 12). -/
  dm : List (Nat × DmWord)
deriving DecidableEq, Repr

/-- What a host read returned (R204, R206 to R209). -/
inductive HostData where
  | nothing
  | reg (v : RegWord)
  | emWord (v : Nat)
  | isByte (v : Byte)
  | osByte (v : Byte)
  | dmWord (v : DmWord)
deriving DecidableEq, Repr

/-- The model's own fields for the host (log 4, log 24). -/
structure HostPort where
  /-- What the host will do, oldest first (R74: in the order issued). -/
  pending : List HostEvent
  /-- What the last host read returned. -/
  rdata : HostData
deriving DecidableEq, Repr

/-- The whole machine: the two units, which share no state (R20), and the model's own fields. -/
structure State where
  /-- The open parameters (R7, R21; log 2). No step changes them. -/
  params : Params
  /-- The encoder unit. -/
  enc : EncState
  /-- The decoder unit. -/
  dec : DecState
  /-- The host's side of the interface. -/
  host : HostPort
  /-- How many free values have been drawn (log 9). -/
  free : Nat
deriving DecidableEq, Repr

/-- Why the machine stops with a fault: the host broke a boot requirement, and the spec treats the read as a fault of the launch (R47, U1,
U2). Both are safe: the model stops where the result is not defined. -/
inductive Fault where
  /-- Raised by ENC.SCALE, ENC.ENTRY and the ENC records: the EM word at this address has not been written since reset (U1). Safe. -/
  | emUnwritten (addr : Nat)
  /-- Raised by DEC.HEADER and DEC.ENTRY: the IS byte at this offset has not been written since reset (U2). Safe. -/
  | isUnwritten (offset : Nat)
deriving DecidableEq, Repr

/-- Why a step is refused. -/
inductive Refusal where
  /-- Raised by a refused arm of the dispatch only: the instruction has no meaning yet. Safe. -/
  | notModelled (mnemonic : String)
  /-- Raised by `step`: the parameters are outside their legal range, a configuration the spec excludes (R7, U16). Safe. -/
  | illegalParameters
deriving DecidableEq, Repr

/-- ENC after reset (R46). -/
def EncState.initial : EncState :=
  { h := 0, w := 0, gray := false, st := .idle, phase := .scale, err := none, shift := 0, row := 0, col := 0, cnt := 0,
    osLen := 0, osOpen := false, em := [], os := [] }

/-- DEC after reset (R46). -/
def DecState.initial : DecState :=
  { st := .idle, phase := .header, err := none, errPos := 0, h := 0, w := 0, shift := 0, gray := false, row := 0, col := 0,
    cnt := 0, sp := 0, isLen := 0, isOpen := false, dmValid := false, inp := [], dm := [] }

/-- The machine right after reset (R46, R245), with the default parameters of R7, a host that has nothing pending, and no free value drawn
(log 1). -/
def State.reset : State :=
  { params := Params.initial, enc := EncState.initial, dec := DecState.initial,
    host := { pending := [], rdata := .nothing }, free := 0 }

end Sys2Proof.Machine
end

