-- ==== Sys2Proof/Machine/Flags.lean ====
section
/-! DEFINITION. The status flags and the register map as the host reads it (10_state R39, R45). The SCC has no condition codes: its flags are
OS_OPEN, IS_OPEN and DM_VALID. -/

namespace Sys2Proof.Machine

/-- The numbers of E_STATE and D_STATE (R23, R30). -/
def UnitState.code : UnitState → BitVec 2
  | .idle => 0#2
  | .busy => 1#2
  | .done => 2#2
  | .error => 3#2

/-- The numbers of E_PHASE (R24). -/
def EncPhase.code : EncPhase → BitVec 2
  | .scale => 0#2
  | .header => 1#2
  | .entries => 2#2

/-- The numbers of D_PHASE (R31). -/
def DecPhase.code : DecPhase → BitVec 1
  | .header => 0#1
  | .entries => 1#1

/-- The error codes of R216. -/
def errCode : Option ErrKind → BitVec 8
  | none => 0#8
  | some .malformedHeader => 1#8
  | some .truncatedEntry => 2#8
  | some .shapeMismatch => 3#8
  | some .unrepresentableMagnitude => 4#8
  | some .ioFailure => 5#8

/-- E_STATUS, register 1 (R39): reserved bits 63:17 and 7:4 are 0. -/
def encStatus (e : EncState) : RegWord :=
  (0#47 ++ BitVec.ofBool e.osOpen ++ errCode e.err ++ 0#4 ++ e.phase.code ++ e.st.code : BitVec 64)

/-- E_DIM, register 2 (R39). -/
def encDim (e : EncState) : RegWord := (0#31 ++ BitVec.ofBool e.gray ++ e.w ++ e.h : BitVec 64)

/-- E_CURSOR, register 4 (R39). -/
def encCursor (e : EncState) : RegWord := (0#32 ++ e.col ++ e.row : BitVec 64)

/-- D_STATUS, register 9 (R39): reserved bits 63:18 and 7:3 are 0. -/
def decStatus (d : DecState) : RegWord :=
  (0#46 ++ BitVec.ofBool d.dmValid ++ BitVec.ofBool d.isOpen ++ errCode d.err ++ 0#5 ++ d.phase.code ++ d.st.code : BitVec 64)

/-- D_HDR, register 10 (R39). -/
def decHdr (d : DecState) : RegWord := (0#23 ++ BitVec.ofBool d.gray ++ d.shift ++ d.w ++ d.h : BitVec 64)

/-- D_CURSOR, register 11 (R39). -/
def decCursor (d : DecState) : RegWord := (0#32 ++ d.col ++ d.row : BitVec 64)

/-- The value a host read of register `n` returns (R39, R204): the action registers 0 and 8 and the reserved register 7 read as 0. -/
def regRead (s : State) (n : BitVec 4) : RegWord :=
  match n.toNat with
  | 1 => encStatus s.enc
  | 2 => encDim s.enc
  | 3 => s.enc.shift.setWidth 64
  | 4 => encCursor s.enc
  | 5 => s.enc.cnt.setWidth 64
  | 6 => s.enc.osLen.setWidth 64
  | 9 => decStatus s.dec
  | 10 => decHdr s.dec
  | 11 => decCursor s.dec
  | 12 => s.dec.cnt.setWidth 64
  | 13 => s.dec.sp.setWidth 64
  | 14 => s.dec.isLen.setWidth 64
  | 15 => s.dec.errPos.setWidth 64
  | _ => 0#64

end Sys2Proof.Machine
end

