-- ==== Sys2Proof/WellFormed.lean ====
section
/-! DEFINITION. Which terms of `Instr` are well formed. Widths are carried by the types; what is left to check is named here. -/

namespace Sys2Proof

/-- The header is legal for a reader: its area is not zero and its isGrayscale byte is 0 or 1 (R93). -/
def headerLegal (height width : Dim) (isGrayscale : Byte) : Bool :=
  decide (height.toNat * width.toNat ≠ 0) && decide (isGrayscale.toNat ≤ 1)

/-- A register write that is a START command: register 0 or 8 with bit 0 of the value set (R205). -/
def isStartWrite (n : BitVec 4) (v : RegWord) : Bool :=
  (n == 0#4 || n == 8#4) && v.getLsbD 0

/-- Only DEC records a position, and for MalformedHeader it is 0 (R223). -/
def errorPosLegal (x : ErrKind) (p : Pos) : Bool :=
  match x with
  | .malformedHeader | .unrepresentableMagnitude | .ioFailure => p == 0#40
  | .truncatedEntry | .shapeMismatch => true

/-- Well-formed instructions: a legal header; a plain register write is not one of the two START rows; an error step carries a position
its error records. -/
def Instr.wf : Instr → Bool
  | .hdr h w _ flag => headerLegal h w flag
  | .z _ _ | .g _ _ _ | .c0 _ | .cB _ _ | .cG _ _ | .cGB _ _ _ | .cR _ _ | .cRB _ _ _ | .cRG _ _ _ | .cRGB _ _ _ _ => true
  | .encHdr | .encZ | .encG | .encCB | .encCG | .encCGB | .encCR | .encCRB | .encCRG | .encCRGB => true
  | .encScale | .encHeader | .encEntry | .decHeader | .decEntry | .decFinish => true
  | .errorStep x p => errorPosLegal x p
  | .encStart _ | .decStart _ => true
  | .rd _ => true
  | .wr n v => !isStartWrite n v
  | .emAccess _ _ _ _ | .isAccess _ _ | .rdOs _ | .rdDm _ _ _ => true

end Sys2Proof
end

