-- ==== Sys2Proof/Decode.lean ====
section
/-! DEFINITION. Decoding: from the bytes of a stream to records (30_encoding), from the host's raw accesses to instructions
(45_host_commands); and after it the encoder. -/

namespace Sys2Proof

/-- Why a byte sequence is no record. -/
inductive DecodeError where
  /-- Fewer than 6 bytes where a header is expected (R187). -/
  | shortHeader
  /-- No byte at the flag position: the end of the stream (R190). -/
  | noFlagByte
  /-- The flag byte calls for payload bytes that are not there (R152). -/
  | truncatedPayload
deriving DecidableEq, Repr

/-! ### Byte order (R62, R94, R99) -/

/-- `le16` of R10 as a 16-bit field. -/
def le16 (b0 b1 : Byte) : Dim := b1 ++ b0

/-- `le32u` of R10 as a 32-bit field. -/
def le32 (b0 b1 b2 b3 : Byte) : Payload := ((b3 ++ b2 : BitVec 16) ++ b1 : BitVec 24) ++ b0

/-- `bytes_le16` of R10. -/
def bytesLe16 (u : Dim) : List Byte := [u.extractLsb' 0 8, u.extractLsb' 8 8]

/-- `bytes_le32` of R10, on the 32-bit two's-complement pattern. -/
def bytesLe32 (u : Payload) : List Byte :=
  [u.extractLsb' 0 8, u.extractLsb' 8 8, u.extractLsb' 16 8, u.extractLsb' 24 8]

/-! ### The flag byte (R98, R101) -/

/-- Bit 3, P: the pixel has data (R98). -/
def flagPresent (flag : Byte) : Bool := flag.getLsbD 3

/-- Bits 7:4, which no decoder tests (R104). -/
def flagHi (flag : Byte) : BitVec 4 := flag.extractLsb' 4 4

/-- Bits 2:0: R, G, B in colour mode (R98). -/
def flagLo (flag : Byte) : BitVec 3 := flag.extractLsb' 0 3

/-- `entry_len` of R101: 1, 5, 9 or 13 bytes, by the flag byte and the mode alone. -/
def entryLen (gray : Bool) (flag : Byte) : Nat :=
  if !flagPresent flag then 1
  else if gray then 5
  else 1 + 4 * ((flag.getLsbD 2).toNat + (flag.getLsbD 1).toNat + (flag.getLsbD 0).toNat)

/-! ### Decoding a record -/

/-- One payload integer (R99) and the bytes after it. -/
def takePayload : List Byte → Except DecodeError (Payload × List Byte)
  | b0 :: b1 :: b2 :: b3 :: rest => .ok (le32 b0 b1 b2 b3, rest)
  | _ => .error .truncatedPayload

/-- A record of one payload integer. -/
def takeOne (mk : Payload → Entry) (bs : List Byte) : Except DecodeError (Entry × List Byte) :=
  match takePayload bs with
  | .error e => .error e
  | .ok (q, rest) => .ok (mk q, rest)

/-- A record of two payload integers, in stream order (R100). -/
def takeTwo (mk : Payload → Payload → Entry) (bs : List Byte) : Except DecodeError (Entry × List Byte) :=
  match takePayload bs with
  | .error e => .error e
  | .ok (q, rest) => takeOne (mk q) rest

/-- A record of three payload integers, in stream order (R100). -/
def takeThree (mk : Payload → Payload → Payload → Entry) (bs : List Byte) :
    Except DecodeError (Entry × List Byte) :=
  match takePayload bs with
  | .error e => .error e
  | .ok (q, rest) => takeTwo (mk q) rest

/-- The flag-byte map of R103: total on the 256 flag bytes in each mode. -/
def decodeEntry (gray : Bool) : List Byte → Except DecodeError (Entry × List Byte)
  | [] => .error .noFlagByte
  | flag :: rest =>
    if !flagPresent flag then .ok (.z (flagHi flag) (flagLo flag), rest)
    else if gray then takeOne (.g (flagHi flag) (flagLo flag)) rest
    else
      match (flagLo flag).toNat with
      | 0 => .ok (.c0 (flagHi flag), rest)
      | 1 => takeOne (.cB (flagHi flag)) rest
      | 2 => takeOne (.cG (flagHi flag)) rest
      | 3 => takeTwo (.cGB (flagHi flag)) rest
      | 4 => takeOne (.cR (flagHi flag)) rest
      | 5 => takeTwo (.cRB (flagHi flag)) rest
      | 6 => takeTwo (.cRG (flagHi flag)) rest
      | _ => takeThree (.cRGB (flagHi flag)) rest

/-- The header record of R91 and R94: any six bytes are read; whether the fields are legal is for DEC to check (R187). -/
def decodeHeader : List Byte → Except DecodeError (Instr × List Byte)
  | b0 :: b1 :: b2 :: b3 :: b4 :: b5 :: rest => .ok (.hdr (le16 b0 b1) (le16 b2 b3) b4 b5, rest)
  | _ => .error .shortHeader

/-- Where in a stream a record stands: the first record is the header, every later one an entry read in the stream's mode (R90,
R92). -/
inductive RecordPos where
  | header
  | entry (gray : Bool)
deriving DecidableEq, Repr

/-- Decode the record at the head of a byte sequence: the instruction and the bytes after it, or why there is none. -/
def decode (at_ : RecordPos) (bs : List Byte) : Except DecodeError (Instr × List Byte) :=
  match at_ with
  | .header => decodeHeader bs
  | .entry gray =>
    match decodeEntry gray bs with
    | .error e => .error e
    | .ok (e, rest) => .ok (e.instr, rest)

/-! ### Decoding a host access -/

/-- The row of a 34-bit matrix address (R61). -/
def addrRow (a : StoreAddr) : Dim := a.extractLsb' 18 16

/-- The column of a 34-bit matrix address (R61). -/
def addrCol (a : StoreAddr) : Dim := a.extractLsb' 2 16

/-- The channel of a 34-bit matrix address (R61). -/
def addrCh (a : StoreAddr) : BitVec 2 := a.extractLsb' 0 2

/-- The 34-bit address of a matrix word: row in bits 33:18, column in 17:2, channel in 1:0 (R61). -/
def storeAddr (row col : Dim) (ch : BitVec 2) : StoreAddr := (row ++ col : BitVec 32) ++ ch

/-- The instruction of a host access: a register write with START set to register 0 or 8 is a command (R200, R201, R205), the rest are
accesses. -/
def decodeHost : HostAccess → Instr
  | .regRead n => .rd n
  | .regWrite n v =>
    if isStartWrite n v then
      if n == 0#4 then .encStart (v.extractLsb' 1 63) else .decStart (v.extractLsb' 1 63)
    else .wr n v
  | .emRead a => .emAccess .read (addrRow a) (addrCol a) (addrCh a)
  | .emWrite a v => .emAccess (.write v) (addrRow a) (addrCol a) (addrCh a)
  | .isRead a => .isAccess .read a
  | .isWrite a v => .isAccess (.write v) a
  | .osRead a => .rdOs a
  | .dmRead a => .rdDm (addrRow a) (addrCol a) (addrCh a)

/-! ### The encoder -/

/-- A flag byte from its fields: `hi` in bits 7:4, `present` in bit 3, `lo` in bits 2:0 (R98). -/
def flagByte (hi : BitVec 4) (present : Bool) (lo : BitVec 3) : Byte :=
  (hi ++ BitVec.ofBool present : BitVec 5) ++ lo

/-- The bytes of an entry record (R97 to R103). -/
def encodeEntry : Entry → List Byte
  | .z hi lo => [flagByte hi false lo]
  | .g hi lo q => flagByte hi true lo :: bytesLe32 q
  | .c0 hi => [flagByte hi true 0#3]
  | .cB hi qb => flagByte hi true 1#3 :: bytesLe32 qb
  | .cG hi qg => flagByte hi true 2#3 :: bytesLe32 qg
  | .cGB hi qg qb => flagByte hi true 3#3 :: (bytesLe32 qg ++ bytesLe32 qb)
  | .cR hi qr => flagByte hi true 4#3 :: bytesLe32 qr
  | .cRB hi qr qb => flagByte hi true 5#3 :: (bytesLe32 qr ++ bytesLe32 qb)
  | .cRG hi qr qg => flagByte hi true 6#3 :: (bytesLe32 qr ++ bytesLe32 qg)
  | .cRGB hi qr qg qb => flagByte hi true 7#3 :: (bytesLe32 qr ++ (bytesLe32 qg ++ bytesLe32 qb))

/-- The six bytes of a header record (R91, R94). -/
def encodeHeader (h w : Dim) (k g : Byte) : List Byte := bytesLe16 h ++ (bytesLe16 w ++ [k, g])

/-- What stands for an instruction outside the machine: the bytes of a stream record, a host access, or nothing (a step of a unit has no
encoding of its own, R109; a record ENC writes depends on the matrix). -/
inductive Encoding where
  | record (bs : List Byte)
  | access (a : HostAccess)
  | unitStep
deriving DecidableEq, Repr

/-- The encoding of an instruction. -/
def encode : Instr → Encoding
  | .hdr h w k g => .record (encodeHeader h w k g)
  | .z hi lo => .record (encodeEntry (.z hi lo))
  | .g hi lo q => .record (encodeEntry (.g hi lo q))
  | .c0 hi => .record (encodeEntry (.c0 hi))
  | .cB hi qb => .record (encodeEntry (.cB hi qb))
  | .cG hi qg => .record (encodeEntry (.cG hi qg))
  | .cGB hi qg qb => .record (encodeEntry (.cGB hi qg qb))
  | .cR hi qr => .record (encodeEntry (.cR hi qr))
  | .cRB hi qr qb => .record (encodeEntry (.cRB hi qr qb))
  | .cRG hi qr qg => .record (encodeEntry (.cRG hi qr qg))
  | .cRGB hi qr qg qb => .record (encodeEntry (.cRGB hi qr qg qb))
  | .encHdr | .encZ | .encG | .encCB | .encCG | .encCGB | .encCR | .encCRB | .encCRG | .encCRGB => .unitStep
  | .encScale | .encHeader | .encEntry | .decHeader | .decEntry | .decFinish | .errorStep _ _ => .unitStep
  | .encStart ign => .access (.regWrite 0#4 (ign ++ 1#1))
  | .decStart ign => .access (.regWrite 8#4 (ign ++ 1#1))
  | .rd n => .access (.regRead n)
  | .wr n v => .access (.regWrite n v)
  | .emAccess .read r c ch => .access (.emRead (storeAddr r c ch))
  | .emAccess (.write v) r c ch => .access (.emWrite (storeAddr r c ch) v)
  | .isAccess .read a => .access (.isRead a)
  | .isAccess (.write v) a => .access (.isWrite a v)
  | .rdOs a => .access (.osRead a)
  | .rdDm r c ch => .access (.dmRead (storeAddr r c ch))

/-! ### The opcode table's words -/

/-- The `n` bytes of `w`, the least significant first. -/
def wordBytes : Nat → Nat → List Byte
  | 0, _ => []
  | n + 1, w => BitVec.ofNat 8 w :: wordBytes n (w / 256)

/-- The longest record (R101). -/
def maxRecordLen : Nat := 13

/-- The bytes of a table word: bits 0 to `nbits - 1` are the word's, every bit above is 0. -/
def tableBytes (nbits w : Nat) : List Byte := wordBytes maxRecordLen (w % 2 ^ nbits)

/-- The instruction the decoder reads from a table word, taken as an entry of a colour stream: D_GRAY is 0 after reset (log 17). -/
def decodeTableWord (nbits w : Nat) : Option Instr :=
  match decode (.entry false) (tableBytes nbits w) with
  | .ok (i, _) => some i
  | .error _ => none

end Sys2Proof
end

