-- ==== Sys2Proof/Machine/Operands.lean ====
section
/-! DEFINITION. Operand forms and arithmetic: coefficient words (00_scope R9 to R12), `quant` and `dequant` (R133, R153), the Scale Selector's
functions (R122 to R124), the pixel, and the entry encoder (R130 to R137). All arithmetic is on mathematical integers, narrowed where a rule says
so. -/

namespace Sys2Proof.Machine

/-! ### Integers and words -/

/-- `trunc_N` of R10: the low `n` bits of an integer, as an unsigned value. -/
def truncBits (n : Nat) (a : Int) : Nat := (a % (2 ^ n : Int)).toNat

/-- `sext_N` of R10: the signed reading of an `n`-bit unsigned value. -/
def sextBits (n u : Nat) : Int :=
  if u < 2 ^ (n - 1) then (u : Int) else (u : Int) - (2 ^ n : Int)

/-- `a >> n` of R9: the floor of `a / 2^n`. (`/` rounds toward minus infinity for a positive divisor.) -/
def asr (a : Int) (n : Nat) : Int := a / (2 ^ n : Int)

/-- `ipart` of R12, on the signed reading `s` of a word: truncation toward zero. -/
def ipart (frac : Nat) (s : Int) : Int :=
  if 0 ≤ s then asr s frac else -(asr (-s) frac)

/-- `rawmag` of R12, on the signed reading of a word. -/
def rawmag (s : Int) : Nat := s.natAbs

/-- `iszero` of R12, on the signed reading of a word: the document's test `v == 0` (R131). -/
def iszero (s : Int) : Bool := s == 0

/-! ### Quantization -/

/-- The range of a payload integer (R134). -/
def fitsPayload (q : Int) : Bool := decide (-(2 ^ 31 : Int) ≤ q) && decide (q ≤ 2 ^ 31 - 1)

/-- `quant` of R133: the payload of a coefficient, or `none` where it raises UnrepresentableMagnitude. -/
def quant (frac : Nat) (k : Shift) (s : Int) : Option Payload :=
  let q := asr (ipart frac s) k.toNat
  if fitsPayload q then some (BitVec.ofInt 32 q) else none

/-- `dequant` of R153: the exact left shift, as a word of DM. -/
def dequant (k : Shift) (q : Payload) : DmWord := BitVec.ofInt 287 (q.toInt * (2 ^ k.toNat : Int))

/-! ### The Scale Selector's functions -/

/-- `clog2` of R123: for `M >= 1` the least `n` with `M <= 2^n`. -/
def clog2 (m : Nat) : Nat := if m ≤ 1 then 0 else Nat.log2 (m - 1) + 1

/-- The shift of R124 for a magnitude `m`. -/
def scaleOf (frac m : Nat) : Nat :=
  if m = 0 then 0
  else
    let bits : Int := (clog2 m : Int) - (frac : Int)
    if bits + 1 ≤ 32 then 0 else (bits + 1 - 32).toNat

/-! ### Pixels -/

/-- The coefficients of one pixel, as signed readings: one in grayscale mode, red, green, blue in colour mode (R130). -/
inductive Pixel where
  | gray (c : Int)
  | colour (red green blue : Int)
deriving DecidableEq, Repr

/-! ### The entry encoder, as R130 to R137 write it -/

/-- `enc_gray` of R135. -/
def encGray (frac : Nat) (k : Shift) (c : Int) : Option (List Byte) :=
  if iszero c then some [0x00#8]
  else
    match quant frac k c with
    | none => none
    | some q => some (0x08#8 :: bytesLe32 q)

/-- The loop of R136 over the channels still to come: `x` is shifted left once per channel, and a non-zero channel sets its low bit and appends
its payload. -/
def encLoop (frac : Nat) (k : Shift) : List Int → Byte → List Byte → Option (Byte × List Byte)
  | [], x, pending => some (x, pending)
  | c :: cs, x, pending =>
    if iszero c then encLoop frac k cs (x <<< 1) pending
    else
      match quant frac k c with
      | none => none
      | some q => encLoop frac k cs ((x <<< 1) ||| 1#8) (pending ++ bytesLe32 q)

/-- `enc_colour` of R136: the loop from `x = 1`, and the plain zero byte when no channel is present (R137). -/
def encColour (frac : Nat) (k : Shift) (red green blue : Int) : Option (List Byte) :=
  match encLoop frac k [red, green, blue] 1#8 [] with
  | none => none
  | some (x, pending) => if x = 0x08#8 then some [0x00#8] else some (x :: pending)

/-- `enc_entry` of R130: the bytes of a pixel's entry, or `none` where it raises UnrepresentableMagnitude. -/
def encEntry (frac : Nat) (k : Shift) : Pixel → Option (List Byte)
  | .gray c => encGray frac k c
  | .colour r g b => encColour frac k r g b

/-! ### The entry forms ENC writes, one row of R102 each -/

/-- The payload integers of a list of coefficients, in order (R100), or `none` if one raises (R147). -/
def quantAll (frac : Nat) (k : Shift) : List Int → Option (List Byte)
  | [] => some []
  | c :: cs =>
    match quant frac k c with
    | none => none
    | some q =>
      match quantAll frac k cs with
      | none => none
      | some bs => some (bytesLe32 q ++ bs)

/-- A record: a flag byte, then the payload integers of the named coefficients. -/
def formRecord (frac : Nat) (k : Shift) (flag : Byte) (cs : List Int) : Option (List Byte) :=
  match quantAll frac k cs with
  | none => none
  | some bs => some (flag :: bs)

end Sys2Proof.Machine
end

