-- ==== Sys2Proof/Machine/Ops.lean ====
section
/-! DEFINITION. The named operations: memories in canonical form, the error step and what leaves it (R222, R227), appends to OS (R68), reads of EM
and IS (R66, R67), the zero fill of DM (R188), the raster cursor (R175, R191), and the fetch of a record. -/

namespace Sys2Proof.Machine

/-! ### Memories: lists of (address, contents) pairs, addresses strictly rising -/

/-- Read one address. An unlisted address has no contents. -/
def Memory.get {α : Type} : List (Nat × α) → Nat → Option α
  | [], _ => none
  | (b, v) :: rest, a => if a = b then some v else Memory.get rest a

/-- Write one address. -/
def Memory.put {α : Type} : List (Nat × α) → Nat → α → List (Nat × α)
  | [], a, v => [(a, v)]
  | (b, u) :: rest, a, v =>
    if a < b then (a, v) :: (b, u) :: rest
    else if a = b then (a, v) :: rest
    else (b, u) :: Memory.put rest a v

/-- Unlist one address. -/
def Memory.erase {α : Type} (m : List (Nat × α)) (a : Nat) : List (Nat × α) := m.filter (fun c => c.1 != a)

/-- The canonical form: addresses strictly rising. -/
def Memory.wf {α : Type} : List (Nat × α) → Bool
  | [] => true
  | (a, _) :: rest => rest.all (fun c => decide (a < c.1)) && Memory.wf rest

/-- A byte buffer (IS or OS): canonical, offsets below 2^40 (R42, R43). -/
def Memory.bufWf (m : List Host.Cell) : Bool := Memory.wf m && m.all (fun c => decide (c.1 < 2 ^ 40))

/-- EM: canonical, addresses of channels 0 to 2 (R40), words of `COEF_W` bits. -/
def Memory.emWf (p : Params) (m : List (Nat × Nat)) : Bool :=
  Memory.wf m && m.all (fun c => decide (c.1 < 2 ^ 34) && decide (c.1 % 4 < 3) && decide (c.2 < 2 ^ p.coefW))

/-- DM: canonical, addresses of channels 0 to 2 (R41), no word equal to what an unlisted address reads as. -/
def Memory.dmWf (m : List (Nat × DmWord)) : Bool :=
  Memory.wf m && m.all (fun c => decide (c.1 < 2 ^ 34) && decide (c.1 % 4 < 3) && (c.2 != 0#287))

/-- Read `n` bytes from `a` on; `error b` when the byte at `b` holds no value (R47). -/
def Memory.getBytes (m : List Host.Cell) (a : Nat) : Nat → Except Nat (List Byte)
  | 0 => .ok []
  | n + 1 =>
    match Memory.get m a with
    | none => .error a
    | some b =>
      match Memory.getBytes m (a + 1) n with
      | .error c => .error c
      | .ok bs => .ok (b :: bs)

/-- Write a list of bytes from offset `a` on. Offsets are 40 bits. -/
def Memory.putBytes : List Host.Cell → Pos → List Byte → List Host.Cell
  | m, _, [] => m
  | m, a, b :: bs => Memory.putBytes (Memory.put m a.toNat b) (a + 1) bs

/-! ### Matrix addresses -/

/-- The 34-bit address of a matrix word as a number: row, column, channel (R61). -/
def wordAddr (row col ch : Nat) : Nat := row * 2 ^ 18 + col * 4 + ch

/-- The addresses of a declared shape, in raster order (R65, R122, R188). -/
def shapeAddrs (h w : Nat) (gray : Bool) : List Nat :=
  (List.range h).flatMap fun r =>
    (List.range w).flatMap fun c => (List.range (channels gray)).map fun ch => wordAddr r c ch

/-- Does an address lie in the declared shape? (R41, R188) -/
def inShape (h w : Nat) (gray : Bool) (a : Nat) : Bool :=
  decide (a / 2 ^ 18 < h) && decide (a / 4 % 2 ^ 16 < w) && decide (a % 4 < channels gray)

/-! ### The raster cursor -/

/-- The next pixel in row-major order: the same walk on both sides (R175, R191). -/
def nextCursor (w row col : Dim) : Dim × Dim :=
  if col.toNat + 1 = w.toNat then (row + 1, 0) else (row, col + 1)

/-! ### The error step, and what leaves it -/

/-- The error step of ENC (R222): STATE, ERR and the stream flag; everything else keeps its value. -/
def EncState.raise (e : EncState) (x : ErrKind) : EncState :=
  { e with st := .error, err := some x, osOpen := false }

/-- The error step of DEC (R222, R223): STATE, ERR, the flags and the recorded position; everything else keeps its value. -/
def DecState.raise (d : DecState) (x : ErrKind) (p : Pos) : DecState :=
  { d with st := .error, err := some x, errPos := p, isOpen := false, dmValid := false }

/-- ENC's START step (R200): accepted unless BUSY (R202); with reset the only way out of ERROR (R227). -/
def EncState.start (e : EncState) : EncState :=
  if e.st = .busy then e
  else
    { e with st := .busy, phase := .scale, err := none, shift := 0, row := 0, col := 0, cnt := 0, osLen := 0, osOpen := true }

/-- DEC's START step (R201): accepted unless BUSY (R202); with reset the only way out of ERROR (R227). -/
def DecState.start (d : DecState) : DecState :=
  if d.st = .busy then d
  else
    { d with st := .busy, phase := .header, err := none, errPos := 0, h := 0, w := 0, shift := 0, gray := false,
             row := 0, col := 0, cnt := 0, sp := 0, dmValid := false, isOpen := true }

/-! ### From a unit to the machine -/

/-- The machine after a step of ENC: nothing else changes (R20). -/
def liftEnc (s : State) : Host.Outcome EncState Fault Refusal → Host.Outcome State Fault Refusal
  | .next e => .next { s with enc := e }
  | .fault f => .fault f
  | .refused r => .refused r

/-- The machine after a step of DEC: nothing else changes (R20). -/
def liftDec (s : State) : Host.Outcome DecState Fault Refusal → Host.Outcome State Fault Refusal
  | .next d => .next { s with dec := d }
  | .fault f => .fault f
  | .refused r => .refused r

/-! ### ENC: reads of EM, appends to OS -/

/-- The signed reading of one EM word (R10, R12); `error a` when the word at `a` holds no value (R47). -/
def emWord (p : Params) (e : EncState) (row col ch : Nat) : Except Nat Int :=
  match Memory.get e.em (wordAddr row col ch) with
  | none => .error (wordAddr row col ch)
  | some u => .ok (sextBits p.coefW u)

/-- The largest `rawmag` over a list of EM addresses, 0 for none (R122); `error a` when the word at `a` holds no value. -/
def maxMag (p : Params) (em : List (Nat × Nat)) : List Nat → Except Nat Nat
  | [] => .ok 0
  | a :: rest =>
    match Memory.get em a with
    | none => .error a
    | some u =>
      match maxMag p em rest with
      | .error b => .error b
      | .ok m => .ok (max (rawmag (sextBits p.coefW u)) m)

/-- The magnitude `M` of R122: over the words of the declared shape only. -/
def magnitude (p : Params) (e : EncState) : Except Nat Nat :=
  maxMag p e.em (shapeAddrs e.h.toNat e.w.toNat e.gray)

/-- The pixel at the cursor (R174): the words are read in the order red, green, blue. -/
def pixelAt (p : Params) (e : EncState) : Except Nat Pixel :=
  match emWord p e e.row.toNat e.col.toNat 0 with
  | .error a => .error a
  | .ok c0 =>
    if e.gray then .ok (.gray c0)
    else
      match emWord p e e.row.toNat e.col.toNat 1 with
      | .error a => .error a
      | .ok c1 =>
        match emWord p e e.row.toNat e.col.toNat 2 with
        | .error a => .error a
        | .ok c2 => .ok (.colour c0 c1 c2)

/-- Would an append of `n` bytes pass `OS_CAP`? (R68) -/
def overCap (p : Params) (e : EncState) (n : Nat) : Bool :=
  match p.osCap with
  | none => false
  | some cap => decide (cap < e.osLen.toNat + n)

/-- The append itself (R68). -/
def EncState.append (e : EncState) (bs : List Byte) : EncState :=
  { e with os := Memory.putBytes e.os e.osLen bs, osLen := e.osLen + BitVec.ofNat 40 bs.length }

/-- The six bytes of ENC's header record (R94, R173). -/
def encHeaderBytes (e : EncState) : List Byte :=
  encodeHeader e.h e.w e.shift (if e.gray then 0x01#8 else 0x00#8)

/-- What ENC does after a successful header append (R173, R176): DONE when the matrix has zero area, else the ENTRIES phase. -/
def EncState.afterHeader (e : EncState) : EncState :=
  if e.h.toNat * e.w.toNat = 0 then { e with st := .done, osOpen := false } else { e with phase := .entries }

/-- The HEADER step of ENC (R173). -/
def encHeaderStep (p : Params) (e : EncState) : EncState :=
  if e.st = .busy ∧ e.phase = .header then
    if overCap p e (encHeaderBytes e).length then e.raise .ioFailure
    else (e.append (encHeaderBytes e)).afterHeader
  else e

/-- Is an ENTRY step of ENC enabled? (R171) -/
def EncState.inEntries (e : EncState) : Bool := e.st == .busy && e.phase == .entries

/-- ENC's cursor, counter and completion after an entry (R174, R175). -/
def EncState.advance (e : EncState) : EncState :=
  let last := e.cnt.toNat + 1 = e.h.toNat * e.w.toNat
  { e with cnt := e.cnt + 1, row := (nextCursor e.w e.row e.col).1, col := (nextCursor e.w e.row e.col).2,
           st := if last then .done else e.st, osOpen := if last then false else e.osOpen }

/-- The rest of an ENTRY step once the entry is built (R174): UnrepresentableMagnitude first, then IoFailure, else append and advance. -/
def emitEntry (p : Params) (e : EncState) : Option (List Byte) → EncState
  | none => e.raise .unrepresentableMagnitude
  | some bs => if overCap p e bs.length then e.raise .ioFailure else (e.append bs).advance

/-! ### DEC: the header, records, the end of the stream -/

/-- What a HEADER step of DEC writes when the header is legal (R187, R188): the latched header, the zero fill, the position. -/
def DecState.latch (d : DecState) (h w : Dim) (k g : Byte) : DecState :=
  { d with h := h, w := w, shift := k, gray := g.getLsbD 0,
           dm := d.dm.filter (fun c => !inShape h.toNat w.toNat (g.getLsbD 0) c.1), sp := 6, phase := .entries }

/-- The HEADER step of DEC on a header record with these fields (R187): too short, zero area or a bad isGrayscale byte is MalformedHeader. -/
def decHeaderStep (d : DecState) (h w : Dim) (k g : Byte) : DecState :=
  if d.st = .busy ∧ d.phase = .header then
    if d.isLen.toNat < 6 ∨ headerLegal h w g = false then d.raise .malformedHeader 0 else d.latch h w k g
  else d

/-- The number of entries the header implies, `N` (R190). -/
def DecState.total (d : DecState) : Nat := d.h.toNat * d.w.toNat

/-- Is an ENTRY step of DEC enabled? (R186, R190) -/
def DecState.entryReady (d : DecState) : Bool :=
  d.st == .busy && d.phase == .entries && decide (d.sp.toNat < d.isLen.toNat) && decide (d.cnt.toNat < d.total)

/-- Write one word of DM; a zero word is unlisted (canonical form). -/
def Memory.putDm (m : List (Nat × DmWord)) (a : Nat) (v : DmWord) : List (Nat × DmWord) :=
  if v = 0#287 then Memory.erase m a else Memory.put m a v

/-- Read one word of DM: an unlisted word is 0 (log 12). -/
def Memory.getDm (m : List (Nat × DmWord)) (a : Nat) : DmWord := (Memory.get m a).getD 0#287

/-- Store the values of an entry's present channels at the cursor (R189). -/
def storeVals (row col : Dim) (k : Shift) : List (Nat × Payload) → List (Nat × DmWord) → List (Nat × DmWord)
  | [], dm => dm
  | (ch, q) :: rest, dm => storeVals row col k rest (Memory.putDm dm (wordAddr row.toNat col.toNat ch) (dequant k q))

/-- What an ENTRY step of DEC writes for an entry of `len` bytes whose present channels are `vals` (R189). -/
def DecState.consume (d : DecState) (len : Nat) (vals : List (Nat × Payload)) : DecState :=
  { d with dm := storeVals d.row d.col d.shift vals d.dm, sp := d.sp + BitVec.ofNat 40 len, cnt := d.cnt + 1,
           row := (nextCursor d.w d.row d.col).1, col := (nextCursor d.w d.row d.col).2 }

/-- The ENTRY step of DEC on a record of `len` bytes (R152, R189): TruncatedEntry when the stream ends before the record does. `ok` says that
the stream's mode is one the form is read in. -/
def decRecordStep (ok : Bool) (d : DecState) (len : Nat) (vals : List (Nat × Payload)) : DecState :=
  if d.entryReady && ok then
    if d.isLen.toNat < d.sp.toNat + len then d.raise .truncatedEntry d.sp else d.consume len vals
  else d

/-- What FINISH writes (R190). -/
def DecState.finish (d : DecState) : DecState := { d with st := .done, dmValid := true, isOpen := false }

/-- The outcome of fetching the entry record at D_SP. -/
inductive Fetched where
  | entry (e : Entry)
  | truncated
  | unwritten (offset : Nat)
deriving DecidableEq, Repr

/-- The bytes of the record at D_SP that its ENTRY step reads (R150, R152): the flag and then every payload integer that is whole in the stream;
an integer cut short is not read. -/
def recordSpan (d : DecState) (len : Nat) : Nat :=
  if d.sp.toNat + len ≤ d.isLen.toNat then len else 1 + 4 * ((d.isLen.toNat - (d.sp.toNat + 1)) / 4)

/-- Fetch and decode the entry record at D_SP. -/
def fetchEntry (d : DecState) : Fetched :=
  match Memory.get d.inp d.sp.toNat with
  | none => .unwritten d.sp.toNat
  | some flag =>
    match Memory.getBytes d.inp d.sp.toNat (recordSpan d (entryLen d.gray flag)) with
    | .error a => .unwritten a
    | .ok bs =>
      match decodeEntry d.gray bs with
      | .error _ => .truncated
      | .ok (e, _) => .entry e

/-! ### What the host reads -/

/-- A host read that returns a value the spec gives. -/
def State.answer (s : State) (v : HostData) : State := { s with host := { s.host with rdata := v } }

/-- A host read that returns an unspecified value: the free value counter moves on (log 9). -/
def State.answerFree (s : State) (v : HostData) : State :=
  { s with host := { s.host with rdata := v }, free := s.free + 1 }

/-! ### Placing a record where the next step fetches it -/

/-- DEC in the ENTRIES phase of a 1 x 1 stream with these bytes as its entry at offset 6 (log 16). -/
def DecState.placeRecord (d : DecState) (bs : List Byte) : DecState :=
  { d with st := .busy, phase := .entries, err := none, h := 1, w := 1, row := 0, col := 0, cnt := 0, sp := 6,
           isLen := 6 + BitVec.ofNat 40 bs.length, isOpen := true, dmValid := false, inp := Memory.putBytes d.inp 6 bs }

end Sys2Proof.Machine
end

