-- ==== Sys2Proof/Machine/HostCommands.lean ====
section
/-! DEFINITION. Host commands and host accesses (45_host_commands R200 to R209). An ignored access changes nothing; a read the spec leaves unspecified
returns a free value (log 9). -/

namespace Sys2Proof.Machine

/-- ENC_START (R200, R202). -/
def execEncStart (_ignored : BitVec 63) (s : State) : Host.Outcome State Fault Refusal :=
  .next { s with enc := s.enc.start }

/-- DEC_START (R201, R202). -/
def execDecStart (_ignored : BitVec 63) (s : State) : Host.Outcome State Fault Refusal :=
  .next { s with dec := s.dec.start }

/-- RD n (R204): no side effect on the SCC. -/
def execRd (n : BitVec 4) (s : State) : Host.Outcome State Fault Refusal := .next (s.answer (.reg (regRead s n)))

/-- The store of a write to E_DIM (R205): ignored while ENC is BUSY. -/
def EncState.setDim (e : EncState) (v : RegWord) : EncState :=
  if e.st = .busy then e
  else { e with h := v.extractLsb' 0 16, w := v.extractLsb' 16 16, gray := v.getLsbD 32 }

/-- The store of a write to IS_LEN (R205): ignored while DEC is BUSY. -/
def DecState.setLen (d : DecState) (v : RegWord) : DecState :=
  if d.st = .busy then d else { d with isLen := v.extractLsb' 0 40 }

/-- WR n, v (R205): registers 0 and 8 are the START commands when bit 0 is set, 2 and 14 store data, every other register ignores the write. -/
def execWr (n : BitVec 4) (v : RegWord) (s : State) : Host.Outcome State Fault Refusal :=
  match n.toNat with
  | 0 => if v.getLsbD 0 then .next { s with enc := s.enc.start } else .next s
  | 2 => .next { s with enc := s.enc.setDim v }
  | 8 => if v.getLsbD 0 then .next { s with dec := s.dec.start } else .next s
  | 14 => .next { s with dec := s.dec.setLen v }
  | _ => .next s

/-- The store of a write to EM (R206): ignored while ENC is BUSY and for channel 3. -/
def EncState.setWord (p : Params) (e : EncState) (v : Int) (row col : Dim) (ch : BitVec 2) : EncState :=
  if e.st ≠ .busy ∧ ch.toNat < 3 then
    { e with em := Memory.put e.em (wordAddr row.toNat col.toNat ch.toNat) (truncBits p.coefW v) }
  else e

/-- The word a host read of EM returns, if the spec gives it one (R206). -/
def emReadable (e : EncState) (row col : Dim) (ch : BitVec 2) : Option Nat :=
  if e.st ≠ .busy ∧ ch.toNat < 3 then Memory.get e.em (wordAddr row.toNat col.toNat ch.toNat) else none

/-- WR EM / RD EM (R206). -/
def execEmAccess (op : EmOp) (row col : Dim) (ch : BitVec 2) (s : State) : Host.Outcome State Fault Refusal :=
  match op with
  | .write v => .next { s with enc := s.enc.setWord s.params v row col ch }
  | .read =>
    match emReadable s.enc row col ch with
    | some u => .next (s.answer (.emWord u))
    | none => .next (s.answerFree (.emWord (Config.freeEmWord s.free % 2 ^ s.params.coefW)))

/-- The store of a write to IS (R207): ignored while DEC is BUSY. -/
def DecState.setByte (d : DecState) (v : RegWord) (a : Pos) : DecState :=
  if d.st ≠ .busy then { d with inp := Memory.put d.inp a.toNat (v.extractLsb' 0 8) } else d

/-- The byte a host read of IS returns, if the spec gives it one (R207). -/
def isReadable (d : DecState) (a : Pos) : Option Byte := if d.st ≠ .busy then Memory.get d.inp a.toNat else none

/-- WR IS / RD IS (R207). -/
def execIsAccess (op : IsOp) (a : Pos) (s : State) : Host.Outcome State Fault Refusal :=
  match op with
  | .write v => .next { s with dec := s.dec.setByte v a }
  | .read =>
    match isReadable s.dec a with
    | some b => .next (s.answer (.isByte b))
    | none => .next (s.answerFree (.isByte (Config.freeIsByte s.free)))

/-- The byte a host read of OS returns, if the spec gives it one (R208). -/
def osReadable (e : EncState) (a : Pos) : Option Byte :=
  if e.osOpen = false ∧ a.toNat < e.osLen.toNat then Memory.get e.os a.toNat else none

/-- RD OS (R208). -/
def execRdOs (a : Pos) (s : State) : Host.Outcome State Fault Refusal :=
  match osReadable s.enc a with
  | some b => .next (s.answer (.osByte b))
  | none => .next (s.answerFree (.osByte (Config.freeOsByte s.free)))

/-- May the host read this word of DM? (R209) -/
def dmReadable (d : DecState) (row col : Dim) (ch : BitVec 2) : Bool :=
  d.dmValid && decide (row.toNat < d.h.toNat) && decide (col.toNat < d.w.toNat) && decide (ch.toNat < channels d.gray)

/-- RD DM (R209). -/
def execRdDm (row col : Dim) (ch : BitVec 2) (s : State) : Host.Outcome State Fault Refusal :=
  if dmReadable s.dec row col ch then
    .next (s.answer (.dmWord (Memory.getDm s.dec.dm (wordAddr row.toNat col.toNat ch.toNat))))
  else .next (s.answerFree (.dmWord (Config.freeDmWord s.free)))

end Sys2Proof.Machine
end

