-- ==== Sys2Proof/Machine/DecRecords.lean ====
section
/-! DEFINITION. The stream records DEC interprets: HDR and the ten entry forms (30_encoding R103, 42_entry_decode R154 to R163, 44_container_reader
R187). Each is the whole step DEC takes on that record. A record met where DEC does not read one changes nothing (log 7). -/

namespace Sys2Proof.Machine

/-- HDR: the header record (R187). -/
def execHdr (h w : Dim) (k g : Byte) (s : State) : Host.Outcome State Fault Refusal :=
  .next { s with dec := decHeaderStep s.dec h w k g }

/-- Z: a zero pixel, either mode; no payload (R154). -/
def execZ (_hi : BitVec 4) (_lo : BitVec 3) (s : State) : Host.Outcome State Fault Refusal :=
  .next { s with dec := decRecordStep true s.dec 1 [] }

/-- G: grayscale, one integer whatever the ignored bits are (R155). -/
def execG (_hi : BitVec 4) (_lo : BitVec 3) (q : Payload) (s : State) : Host.Outcome State Fault Refusal :=
  .next { s with dec := decRecordStep s.dec.gray s.dec 5 [(0, q)] }

/-- C.0: colour, no channel flagged (R156). -/
def execC0 (_hi : BitVec 4) (s : State) : Host.Outcome State Fault Refusal :=
  .next { s with dec := decRecordStep (!s.dec.gray) s.dec 1 [] }

/-- C.B: blue (R157). -/
def execCB (_hi : BitVec 4) (qb : Payload) (s : State) : Host.Outcome State Fault Refusal :=
  .next { s with dec := decRecordStep (!s.dec.gray) s.dec 5 [(2, qb)] }

/-- C.G: green (R158). -/
def execCG (_hi : BitVec 4) (qg : Payload) (s : State) : Host.Outcome State Fault Refusal :=
  .next { s with dec := decRecordStep (!s.dec.gray) s.dec 5 [(1, qg)] }

/-- C.GB: green and blue (R159). -/
def execCGB (_hi : BitVec 4) (qg qb : Payload) (s : State) : Host.Outcome State Fault Refusal :=
  .next { s with dec := decRecordStep (!s.dec.gray) s.dec 9 [(1, qg), (2, qb)] }

/-- C.R: red (R160). -/
def execCR (_hi : BitVec 4) (qr : Payload) (s : State) : Host.Outcome State Fault Refusal :=
  .next { s with dec := decRecordStep (!s.dec.gray) s.dec 5 [(0, qr)] }

/-- C.RB: red and blue (R161). -/
def execCRB (_hi : BitVec 4) (qr qb : Payload) (s : State) : Host.Outcome State Fault Refusal :=
  .next { s with dec := decRecordStep (!s.dec.gray) s.dec 9 [(0, qr), (2, qb)] }

/-- C.RG: red and green (R162). -/
def execCRG (_hi : BitVec 4) (qr qg : Payload) (s : State) : Host.Outcome State Fault Refusal :=
  .next { s with dec := decRecordStep (!s.dec.gray) s.dec 9 [(0, qr), (1, qg)] }

/-- C.RGB: all three (R163). -/
def execCRGB (_hi : BitVec 4) (qr qg qb : Payload) (s : State) : Host.Outcome State Fault Refusal :=
  .next { s with dec := decRecordStep (!s.dec.gray) s.dec 13 [(0, qr), (1, qg), (2, qb)] }

/-- The meaning of the record an ENTRY step of DEC has fetched. -/
def execRecord (e : Entry) (s : State) : Host.Outcome State Fault Refusal :=
  match e with
  | .z hi lo => execZ hi lo s
  | .g hi lo q => execG hi lo q s
  | .c0 hi => execC0 hi s
  | .cB hi qb => execCB hi qb s
  | .cG hi qg => execCG hi qg s
  | .cGB hi qg qb => execCGB hi qg qb s
  | .cR hi qr => execCR hi qr s
  | .cRB hi qr qb => execCRB hi qr qb s
  | .cRG hi qr qg => execCRG hi qr qg s
  | .cRGB hi qr qg qb => execCRGB hi qr qg qb s

/-- The meaning of the header record a HEADER step of DEC has fetched (`decodeHeader` gives a header or nothing). -/
def execHeaderRecord (r : Except DecodeError (Instr × List Byte)) (s : State) : Host.Outcome State Fault Refusal :=
  match r with
  | .ok (.hdr h w k g, _) => execHdr h w k g s
  | _ => .next { s with dec := s.dec.raise .malformedHeader 0 }

end Sys2Proof.Machine
end

