-- ==== Sys2Proof/Machine/EncRecords.lean ====
section
/-! DEFINITION. The records ENC writes: ENC.HDR and the nine canonical entry forms of R102, each by its own rule (41_entry_encode R135, R137, R140 to R146;
43_container_writer R173). Each is the whole step ENC takes when the pixel at the cursor has that form. A form the pixel does not have is not selected and
changes nothing (log 7). -/

namespace Sys2Proof.Machine

/-- The ENTRY step of ENC for a colour pixel whose non-zero channels are exactly the ones named by `r g b`: the flag byte, then the payloads of those
channels in the order red, green, blue (R136, R140 to R146). -/
def colourFormStep (p : Params) (e : EncState) (flag : Byte) (r g b : Bool) : Host.Outcome EncState Fault Refusal :=
  if e.inEntries && !e.gray then
    match pixelAt p e with
    | .error a => .fault (.emUnwritten a)
    | .ok (.gray _) => .next e
    | .ok (.colour cr cg cb) =>
      if iszero cr = !r ∧ iszero cg = !g ∧ iszero cb = !b then
        .next (emitEntry p e (formRecord p.frac e.shift flag
          ((if r then [cr] else []) ++ (if g then [cg] else []) ++ (if b then [cb] else []))))
      else .next e
  else .next e

/-- The ENTRY step of ENC for a pixel with no non-zero channel: the zero byte, in either mode (R135, R137). -/
def zeroFormStep (p : Params) (e : EncState) : Host.Outcome EncState Fault Refusal :=
  if e.inEntries then
    match pixelAt p e with
    | .error a => .fault (.emUnwritten a)
    | .ok (.gray c) => if iszero c then .next (emitEntry p e (some [0x00#8])) else .next e
    | .ok (.colour cr cg cb) =>
      if iszero cr && iszero cg && iszero cb then .next (emitEntry p e (some [0x00#8])) else .next e
  else .next e

/-- The ENTRY step of ENC for a non-zero grayscale coefficient (R135). -/
def grayFormStep (p : Params) (e : EncState) : Host.Outcome EncState Fault Refusal :=
  if e.inEntries && e.gray then
    match pixelAt p e with
    | .error a => .fault (.emUnwritten a)
    | .ok (.colour _ _ _) => .next e
    | .ok (.gray c) =>
      if iszero c then .next e else .next (emitEntry p e (formRecord p.frac e.shift 0x08#8 [c]))
  else .next e

/-- ENC.HDR: the header record (R173). -/
def execEncHdr (s : State) : Host.Outcome State Fault Refusal :=
  .next { s with enc := encHeaderStep s.params s.enc }

/-- ENC.Z: `00` (R135, R137). -/
def execEncZ (s : State) : Host.Outcome State Fault Refusal := liftEnc s (zeroFormStep s.params s.enc)

/-- ENC.G: `08` and the coefficient (R135). -/
def execEncG (s : State) : Host.Outcome State Fault Refusal := liftEnc s (grayFormStep s.params s.enc)

/-- ENC.C.B: `09` and blue (R140). -/
def execEncCB (s : State) : Host.Outcome State Fault Refusal :=
  liftEnc s (colourFormStep s.params s.enc 0x09#8 false false true)

/-- ENC.C.G: `0A` and green (R141). -/
def execEncCG (s : State) : Host.Outcome State Fault Refusal :=
  liftEnc s (colourFormStep s.params s.enc 0x0A#8 false true false)

/-- ENC.C.GB: `0B`, green and blue (R142). -/
def execEncCGB (s : State) : Host.Outcome State Fault Refusal :=
  liftEnc s (colourFormStep s.params s.enc 0x0B#8 false true true)

/-- ENC.C.R: `0C` and red (R143). -/
def execEncCR (s : State) : Host.Outcome State Fault Refusal :=
  liftEnc s (colourFormStep s.params s.enc 0x0C#8 true false false)

/-- ENC.C.RB: `0D`, red and blue (R144). -/
def execEncCRB (s : State) : Host.Outcome State Fault Refusal :=
  liftEnc s (colourFormStep s.params s.enc 0x0D#8 true false true)

/-- ENC.C.RG: `0E`, red and green (R145). -/
def execEncCRG (s : State) : Host.Outcome State Fault Refusal :=
  liftEnc s (colourFormStep s.params s.enc 0x0E#8 true true false)

/-- ENC.C.RGB: `0F`, red, green and blue (R146). -/
def execEncCRGB (s : State) : Host.Outcome State Fault Refusal :=
  liftEnc s (colourFormStep s.params s.enc 0x0F#8 true true true)

end Sys2Proof.Machine
end

