-- ==== Sys2Proof/Machine/UnitSteps.lean ====
section
/-! DEFINITION. The steps of the two units (R121, R173, R174, R187, R189, R190) and the error step (R222). A step that is not enabled changes nothing
(R171, R186; log 7). -/

namespace Sys2Proof.Machine

/-- ENC.SCALE (R121): the shift of the whole matrix, computed once (R128). -/
def execEncScale (s : State) : Host.Outcome State Fault Refusal :=
  if s.enc.st = .busy ∧ s.enc.phase = .scale then
    match magnitude s.params s.enc with
    | .error a => .fault (.emUnwritten a)
    | .ok m => .next { s with enc := { s.enc with shift := BitVec.ofNat 8 (scaleOf s.params.frac m), phase := .header } }
  else .next s

/-- ENC.HEADER (R173). -/
def execEncHeader (s : State) : Host.Outcome State Fault Refusal :=
  .next { s with enc := encHeaderStep s.params s.enc }

/-- ENC.ENTRY (R174): the entry encoder of R130 on the pixel at the cursor, then the append and the cursor. -/
def execEncEntry (s : State) : Host.Outcome State Fault Refusal :=
  if s.enc.inEntries then
    match pixelAt s.params s.enc with
    | .error a => .fault (.emUnwritten a)
    | .ok pix => .next { s with enc := emitEntry s.params s.enc (encEntry s.params.frac s.enc.shift pix) }
  else .next s

/-- DEC.HEADER (R187): fetch six bytes, decode them and take the step of the header record. -/
def execDecHeader (s : State) : Host.Outcome State Fault Refusal :=
  if s.dec.st = .busy ∧ s.dec.phase = .header then
    if s.dec.isLen.toNat < 6 then .next { s with dec := s.dec.raise .malformedHeader 0 }
    else
      match Memory.getBytes s.dec.inp 0 6 with
      | .error a => .fault (.isUnwritten a)
      | .ok bs => execHeaderRecord (decodeHeader bs) s
  else .next s

/-- DEC.ENTRY (R189): fetch the record at D_SP, decode it and take the step of its form. -/
def execDecEntry (s : State) : Host.Outcome State Fault Refusal :=
  if s.dec.entryReady then
    match fetchEntry s.dec with
    | .unwritten a => .fault (.isUnwritten a)
    | .truncated => .next { s with dec := s.dec.raise .truncatedEntry s.dec.sp }
    | .entry e => execRecord e s
  else .next s

/-- DEC.FINISH (R190). -/
def execDecFinish (s : State) : Host.Outcome State Fault Refusal :=
  if s.dec.st = .busy ∧ s.dec.phase = .entries ∧ s.dec.sp = s.dec.isLen ∧ s.dec.cnt.toNat = s.dec.total then
    .next { s with dec := s.dec.finish }
  else .next s

/-- ERROR_STEP (R222): the unit that can raise the error (R215) takes the error step, if it is BUSY (R228). -/
def execErrorStep (x : ErrKind) (p : Pos) (s : State) : Host.Outcome State Fault Refusal :=
  match x with
  | .malformedHeader | .truncatedEntry | .shapeMismatch =>
    if s.dec.st = .busy then .next { s with dec := s.dec.raise x p } else .next s
  | .unrepresentableMagnitude | .ioFailure =>
    if s.enc.st = .busy then .next { s with enc := s.enc.raise x } else .next s

end Sys2Proof.Machine
end

