-- ==== Sys2Proof/Machine/Dispatch.lean ====
section
/-! DEFINITION. One arm per constructor of `Instr`. -/

namespace Sys2Proof.Machine

def exec (i : Instr) (s : State) : Host.Outcome State Fault Refusal :=
  match i with
  -- records DEC reads
  | .hdr h w k g => Sys2Proof.Machine.execHdr h w k g s
  | .z hi lo => Sys2Proof.Machine.execZ hi lo s
  | .g hi lo q => Sys2Proof.Machine.execG hi lo q s
  | .c0 hi => Sys2Proof.Machine.execC0 hi s
  | .cB hi qb => Sys2Proof.Machine.execCB hi qb s
  | .cG hi qg => Sys2Proof.Machine.execCG hi qg s
  | .cGB hi qg qb => Sys2Proof.Machine.execCGB hi qg qb s
  | .cR hi qr => Sys2Proof.Machine.execCR hi qr s
  | .cRB hi qr qb => Sys2Proof.Machine.execCRB hi qr qb s
  | .cRG hi qr qg => Sys2Proof.Machine.execCRG hi qr qg s
  | .cRGB hi qr qg qb => Sys2Proof.Machine.execCRGB hi qr qg qb s
  -- records ENC writes
  | .encHdr => Sys2Proof.Machine.execEncHdr s
  | .encZ => Sys2Proof.Machine.execEncZ s
  | .encG => Sys2Proof.Machine.execEncG s
  | .encCB => Sys2Proof.Machine.execEncCB s
  | .encCG => Sys2Proof.Machine.execEncCG s
  | .encCGB => Sys2Proof.Machine.execEncCGB s
  | .encCR => Sys2Proof.Machine.execEncCR s
  | .encCRB => Sys2Proof.Machine.execEncCRB s
  | .encCRG => Sys2Proof.Machine.execEncCRG s
  | .encCRGB => Sys2Proof.Machine.execEncCRGB s
  -- steps of the units
  | .encScale => Sys2Proof.Machine.execEncScale s
  | .encHeader => Sys2Proof.Machine.execEncHeader s
  | .encEntry => Sys2Proof.Machine.execEncEntry s
  | .decHeader => Sys2Proof.Machine.execDecHeader s
  | .decEntry => Sys2Proof.Machine.execDecEntry s
  | .decFinish => Sys2Proof.Machine.execDecFinish s
  | .errorStep x p => Sys2Proof.Machine.execErrorStep x p s
  -- host commands and accesses
  | .encStart ign => Sys2Proof.Machine.execEncStart ign s
  | .decStart ign => Sys2Proof.Machine.execDecStart ign s
  | .rd n => Sys2Proof.Machine.execRd n s
  | .wr n v => Sys2Proof.Machine.execWr n v s
  | .emAccess op row col ch => Sys2Proof.Machine.execEmAccess op row col ch s
  | .isAccess op a => Sys2Proof.Machine.execIsAccess op a s
  | .rdOs a => Sys2Proof.Machine.execRdOs a s
  | .rdDm row col ch => Sys2Proof.Machine.execRdDm row col ch s

end Sys2Proof.Machine
end

