-- ==== Sys2Proof/Machine/Sched.lean ====
section
/-! DEFINITION. Which agent moves next, and what it runs (R6, R11, R171, R186, R190): ENC and DEC move while BUSY, the host while an access is pending; among
several the choice is free (log 5). -/

namespace Sys2Proof.Machine

/-- The three agents of R6. -/
inductive Agent where
  | host
  | enc
  | dec
deriving DecidableEq, Repr

/-- What the next step does. -/
inductive Move where
  /-- No agent has a step (log 6). -/
  | idle
  /-- An agent runs an instruction. -/
  | instr (i : Instr)
  /-- The host asserts reset (R245, R246). -/
  | reset
deriving DecidableEq, Repr

/-- The agents that have a step: a unit exactly while it is BUSY (R171, R186). -/
def enabledAgents (s : State) : List Agent :=
  (if s.host.pending = [] then [] else [.host]) ++ (if s.enc.st = .busy then [.enc] else []) ++
    (if s.dec.st = .busy then [.dec] else [])

/-- The agent that moves, and the state with the choice recorded: a choice among several draws a free value. -/
def chooseAgent (s : State) : Option Agent × State :=
  match enabledAgents s with
  | [] => (none, s)
  | [a] => (some a, s)
  | a :: rest =>
    (some ((a :: rest).getD (Config.arbiter s.free % (a :: rest).length) a), { s with free := s.free + 1 })

/-- ENC's step, by its phase (R171). -/
def encDispatch (e : EncState) : Instr :=
  match e.phase with
  | .scale => .encScale
  | .header => .encHeader
  | .entries => .encEntry

/-- DEC's step, by its phase and the dispatch of R190. -/
def decDispatch (d : DecState) : Instr :=
  match d.phase with
  | .header => .decHeader
  | .entries =>
    if d.sp = d.isLen then
      if d.cnt.toNat = d.total then .decFinish else .errorStep .shapeMismatch d.sp
    else if d.cnt.toNat = d.total then .errorStep .shapeMismatch d.sp
    else .decEntry

/-- What an agent runs, and the state it runs it in: the host's event leaves the queue (R74). -/
def agentMove (a : Agent) (s : State) : Move × State :=
  match a with
  | .enc => (.instr (encDispatch s.enc), s)
  | .dec => (.instr (decDispatch s.dec), s)
  | .host =>
    match s.host.pending with
    | [] => (.idle, s)
    | .reset :: rest => (.reset, { s with host := { s.host with pending := rest } })
    | .access a :: rest => (.instr (decodeHost a), { s with host := { s.host with pending := rest } })

/-- The move of the next step. -/
def nextMove (s : State) : Move × State :=
  match chooseAgent s with
  | (none, t) => (.idle, t)
  | (some a, t) => agentMove a t

/-- The reset input (R245, R246): both units return to R46, and no word or byte counts as written any more (log 15). The parameters, the host's queue, the
value it last read and the free-value counter are not the SCC's and stay. -/
def applyReset (s : State) : State := { s with enc := EncState.initial, dec := DecState.initial }

end Sys2Proof.Machine
end

