-- ==== Sys2Proof/Machine/Step.lean ====
section
/-! DEFINITION. One step of the machine, and the placing of a record where the next step fetches it. -/

namespace Sys2Proof.Machine

/-- One step: the move of one agent (R11). Parameters outside their legal range are refused (R7, U16). -/
def step (s : State) : Host.Outcome State Fault Refusal :=
  if s.params.legal = false then .refused .illegalParameters
  else
    match nextMove s with
    | (.idle, t) => .next t
    | (.reset, t) => .next (applyReset t)
    | (.instr i, t) => exec i t

/-- `s` with the record whose bits are `w` as the entry DEC reads next, and no other agent with a step (log 16). -/
def State.withFetchWord (s : State) (nbits w : Nat) : State :=
  { s with dec := s.dec.placeRecord (tableBytes nbits w),
           enc := if s.enc.st = .busy then EncState.initial else s.enc,
           host := { s.host with pending := [] } }

end Sys2Proof.Machine
end

