-- ==== Sys2Proof/Machine/EntryRule.lean ====
section
/-! DEFINITION. The entry decoder as one function, transcribed from the pseudocode of 42_entry_decode R150 and R152 and of 44_container_reader R189. No step calls
it: the statements hold the fetch, the flag-byte map and the record meanings against it. -/

namespace Sys2Proof.Machine

/-- Why `dec_entry` gives no result. -/
inductive EntryStop where
  /-- It raises TruncatedEntry (R152). -/
  | truncated
  /-- It reads a byte that holds no value (R47). -/
  | unwritten (offset : Nat)
deriving DecidableEq, Repr

/-- `read_payload` of R152. -/
def readPayload (d : DecState) (p : Nat) : Except EntryStop Payload :=
  if (d.isLen.toNat : Int) - (p : Int) < 4 then .error .truncated
  else
    match Memory.getBytes d.inp p 4 with
    | .error a => .error (.unwritten a)
    | .ok [b0, b1, b2, b3] => .ok (le32 b0 b1 b2 b3)
    | .ok _ => .error .truncated

/-- The loop of R150 over the present channels: the values read so far and the next offset. -/
def readChannels (d : DecState) : List Nat → Nat → List (Nat × DmWord) → Except EntryStop (List (Nat × DmWord) × Nat)
  | [], p, vals => .ok (vals, p)
  | ch :: rest, p, vals =>
    match readPayload d p with
    | .error e => .error e
    | .ok q => readChannels d rest (p + 4) (vals ++ [(ch, dequant d.shift q)])

/-- The channels an entry flags, in the order red, green, blue (R150). -/
def presentChannels (gray : Bool) (flag : Byte) : List Nat :=
  if gray then [0]
  else ([(0, 2), (1, 1), (2, 0)].filter (fun cb => flag.getLsbD cb.2)).map Prod.fst

/-- `dec_entry` of R150 at offset `sp`: the values of the present channels and the length of the entry. -/
def decEntryRule (d : DecState) (sp : Nat) : Except EntryStop (List (Nat × DmWord) × Nat) :=
  match Memory.get d.inp sp with
  | none => .error (.unwritten sp)
  | some flag =>
    if flag.getLsbD 3 = false then .ok ([], 1)
    else
      match readChannels d (presentChannels d.gray flag) (sp + 1) [] with
      | .error e => .error e
      | .ok (vals, p) => .ok (vals, p - sp)

/-- Store a list of (channel, value) pairs at the cursor (R189). -/
def storePairs (row col : Dim) : List (Nat × DmWord) → List (Nat × DmWord) → List (Nat × DmWord)
  | [], dm => dm
  | (ch, v) :: rest, dm => storePairs row col rest (Memory.putDm dm (wordAddr row.toNat col.toNat ch) v)

/-- The ENTRY step of R189 on the result of `dec_entry`. -/
def decEntryStepRule (d : DecState) : Host.Outcome DecState Fault Refusal :=
  match decEntryRule d d.sp.toNat with
  | .error (.unwritten a) => .fault (.isUnwritten a)
  | .error .truncated => .next (d.raise .truncatedEntry d.sp)
  | .ok (vals, len) =>
    .next { d with dm := storePairs d.row d.col vals d.dm, sp := d.sp + BitVec.ofNat 40 len, cnt := d.cnt + 1,
                   row := if d.col.toNat + 1 = d.w.toNat then d.row + 1 else d.row,
                   col := if d.col.toNat + 1 = d.w.toNat then 0 else d.col + 1 }

end Sys2Proof.Machine
end

