-- ==== Sys2Proof/Safety.lean ====
section
/-! DEFINITION. What counts as a good state, and the terms the statements use: the invariant of 10_state, the launch requirements of 70_reset_and_hazards, and what
a step leaves unchanged. -/

namespace Sys2Proof.Machine

/-! ### The invariant -/

/-- What holds of ENC in every state a run reaches. The cursor clause is R27's, kept while BUSY: afterwards the host may write E_DIM (log 20). -/
def EncInv (p : Params) (e : EncState) : Prop :=
  (e.osOpen = true ↔ e.st = .busy) ∧
  (e.err = none ↔ e.st ≠ .error) ∧
  (e.err = none ∨ e.err = some .unrepresentableMagnitude ∨ e.err = some .ioFailure) ∧
  (e.st = .busy → e.phase ≠ .entries → e.row = 0 ∧ e.col = 0 ∧ e.cnt = 0 ∧ e.osLen = 0) ∧
  (e.st = .busy → e.phase = .entries →
    e.cnt.toNat = e.row.toNat * e.w.toNat + e.col.toNat ∧ e.col.toNat < e.w.toNat ∧
    e.cnt.toNat < e.h.toNat * e.w.toNat ∧
    6 + e.cnt.toNat ≤ e.osLen.toNat ∧ e.osLen.toNat ≤ 6 + 13 * e.cnt.toNat) ∧
  (∀ a, a < e.osLen.toNat → (Memory.get e.os a).isSome = true) ∧
  Memory.emWf p e.em = true ∧ Memory.bufWf e.os = true

/-- What holds of DEC in every state a run reaches. D_SP <= IS_LEN is kept while BUSY: afterwards the host may write IS_LEN (log 20). -/
def DecInv (d : DecState) : Prop :=
  (d.isOpen = true ↔ d.st = .busy) ∧
  (d.dmValid = true ↔ d.st = .done) ∧
  (d.err = none ↔ d.st ≠ .error) ∧
  (d.err = none ∨ d.err = some .malformedHeader ∨ d.err = some .truncatedEntry ∨ d.err = some .shapeMismatch) ∧
  (d.phase = .header → d.row = 0 ∧ d.col = 0 ∧ d.cnt = 0 ∧ d.sp = 0) ∧
  (d.phase = .entries →
    d.cnt.toNat = d.row.toNat * d.w.toNat + d.col.toNat ∧ d.col.toNat < d.w.toNat ∧
    d.cnt.toNat ≤ d.h.toNat * d.w.toNat ∧
    6 + d.cnt.toNat ≤ d.sp.toNat ∧ d.sp.toNat ≤ 6 + 13 * d.cnt.toNat) ∧
  (d.st = .busy → d.sp.toNat ≤ d.isLen.toNat) ∧
  Memory.bufWf d.inp = true ∧ Memory.dmWf d.dm = true

/-- The invariant of the machine. -/
def State.Inv (s : State) : Prop := EncInv s.params s.enc ∧ DecInv s.dec

/-! ### Launch requirements -/

/-- Every EM word of the declared shape has been written since reset (R248). -/
def EncState.loaded (e : EncState) : Prop :=
  ∀ r c ch, r < e.h.toNat → c < e.w.toNat → ch < channels e.gray → (Memory.get e.em (wordAddr r c ch)).isSome = true

/-- Every IS byte below IS_LEN has been written since reset (R249). -/
def DecState.loaded (d : DecState) : Prop := ∀ a, a < d.isLen.toNat → (Memory.get d.inp a).isSome = true

/-- The state of ENC right after START (R200). -/
def EncState.started (e : EncState) : Prop :=
  e.st = .busy ∧ e.phase = .scale ∧ e.err = none ∧ e.shift = 0 ∧ e.row = 0 ∧ e.col = 0 ∧ e.cnt = 0 ∧ e.osLen = 0 ∧
  e.osOpen = true

/-- The state of DEC right after START (R201). -/
def DecState.started (d : DecState) : Prop :=
  d.st = .busy ∧ d.phase = .header ∧ d.err = none ∧ d.errPos = 0 ∧ d.h = 0 ∧ d.w = 0 ∧ d.shift = 0 ∧ d.gray = false ∧
  d.row = 0 ∧ d.col = 0 ∧ d.cnt = 0 ∧ d.sp = 0 ∧ d.dmValid = false ∧ d.isOpen = true

/-- The host has nothing pending and DEC is not BUSY: only ENC can have a step. -/
def State.encAlone (s : State) : Prop := s.params.legal = true ∧ s.host.pending = [] ∧ s.dec.st ≠ .busy

/-- The host has nothing pending and ENC is not BUSY: only DEC can have a step. -/
def State.decAlone (s : State) : Prop := s.params.legal = true ∧ s.host.pending = [] ∧ s.enc.st ≠ .busy

/-! ### Frames -/

/-- Nothing outside ENC changes. -/
def SameOutsideEnc (s t : State) : Prop := t.params = s.params ∧ t.dec = s.dec ∧ t.host = s.host ∧ t.free = s.free

/-- Nothing outside DEC changes. -/
def SameOutsideDec (s t : State) : Prop := t.params = s.params ∧ t.enc = s.enc ∧ t.host = s.host ∧ t.free = s.free

/-- The two units, the parameters and the host's queue do not change: a host read. -/
def SameOutsideRead (s t : State) : Prop :=
  t.params = s.params ∧ t.enc = s.enc ∧ t.dec = s.dec ∧ t.host.pending = s.host.pending

/-- ENC's configuration and source matrix do not change (R181). -/
def SameEncInputs (e f : EncState) : Prop := f.h = e.h ∧ f.w = e.w ∧ f.gray = e.gray ∧ f.em = e.em

/-- DEC's input stream does not change (R66, R76). -/
def SameDecInputs (d f : DecState) : Prop := f.isLen = d.isLen ∧ f.inp = d.inp

/-- `f` is `e` after an append of `bs` to OS (R68): the bytes stand at OS_LEN and on, every other byte of OS reads as before, and OS_LEN counts
them. -/
def Appended (e f : EncState) (bs : List Byte) : Prop :=
  f.osLen.toNat = e.osLen.toNat + bs.length ∧
  (∀ i, i < bs.length → Memory.get f.os (e.osLen.toNat + i) = bs[i]?) ∧
  (∀ a, a < e.osLen.toNat ∨ e.osLen.toNat + bs.length ≤ a → Memory.get f.os a = Memory.get e.os a)

/-- `f` is `e` after an ENTRY step of ENC that appended the record `bs` (R174, R175): the append, the counter, the cursor, and completion at the last pixel;
nothing else. -/
def EmittedEntry (e f : EncState) (bs : List Byte) : Prop :=
  Appended e f bs ∧
  f.cnt = e.cnt + 1 ∧
  (e.col.toNat + 1 = e.w.toNat → f.row = e.row + 1 ∧ f.col = 0) ∧
  (e.col.toNat + 1 ≠ e.w.toNat → f.row = e.row ∧ f.col = e.col + 1) ∧
  (e.cnt.toNat + 1 = e.h.toNat * e.w.toNat → f.st = .done ∧ f.osOpen = false) ∧
  (e.cnt.toNat + 1 ≠ e.h.toNat * e.w.toNat → f.st = e.st ∧ f.osOpen = e.osOpen) ∧
  SameEncInputs e f ∧ f.phase = e.phase ∧ f.err = e.err ∧ f.shift = e.shift

/-- `f` is `d` after an ENTRY step of DEC on a record of `len` bytes whose present channels are `vals` (R189): the words of the present channels hold
`payload << D_SHIFT` exactly (R153), every other word of DM reads as before, the position, the counter and the cursor advance; nothing
else. -/
def ConsumedEntry (d f : DecState) (len : Nat) (vals : List (Nat × Payload)) : Prop :=
  (∀ ch q, (ch, q) ∈ vals →
    (Memory.getDm f.dm (wordAddr d.row.toNat d.col.toNat ch)).toInt = q.toInt * 2 ^ d.shift.toNat) ∧
  (∀ a, (∀ ch q, (ch, q) ∈ vals → a ≠ wordAddr d.row.toNat d.col.toNat ch) → Memory.getDm f.dm a = Memory.getDm d.dm a) ∧
  f.sp.toNat = d.sp.toNat + len ∧ f.cnt = d.cnt + 1 ∧
  (d.col.toNat + 1 = d.w.toNat → f.row = d.row + 1 ∧ f.col = 0) ∧
  (d.col.toNat + 1 ≠ d.w.toNat → f.row = d.row ∧ f.col = d.col + 1) ∧
  SameDecInputs d f ∧ f.st = d.st ∧ f.phase = d.phase ∧ f.err = d.err ∧ f.errPos = d.errPos ∧ f.h = d.h ∧ f.w = d.w ∧
  f.shift = d.shift ∧ f.gray = d.gray ∧ f.isOpen = d.isOpen ∧ f.dmValid = d.dmValid

/-- `f` is `e` after the error step of ENC with error `x` (R222): exactly STATE, ERR and OS_OPEN. -/
def EncRaised (e f : EncState) (x : ErrKind) : Prop :=
  f.st = .error ∧ f.err = some x ∧ f.osOpen = false ∧ SameEncInputs e f ∧ f.phase = e.phase ∧ f.shift = e.shift ∧
  f.row = e.row ∧ f.col = e.col ∧ f.cnt = e.cnt ∧ f.osLen = e.osLen ∧ f.os = e.os

/-- `f` is `d` after the error step of DEC with error `x` at position `p` (R222): exactly STATE, ERR, ERRPOS, IS_OPEN and DM_VALID. -/
def DecRaised (d f : DecState) (x : ErrKind) (p : Pos) : Prop :=
  f.st = .error ∧ f.err = some x ∧ f.errPos = p ∧ f.isOpen = false ∧ f.dmValid = false ∧ SameDecInputs d f ∧
  f.phase = d.phase ∧ f.h = d.h ∧ f.w = d.w ∧ f.shift = d.shift ∧ f.gray = d.gray ∧ f.row = d.row ∧ f.col = d.col ∧
  f.cnt = d.cnt ∧ f.sp = d.sp ∧ f.dm = d.dm

/-- The instruction `i` is the ENTRY step of ENC that appends the record `bs`, whenever the record fits (R68). -/
def EmitsRecord (s : State) (i : Instr) (bs : List Byte) : Prop :=
  overCap s.params s.enc bs.length = false →
    ∃ e, exec i s = .next { s with enc := e } ∧ EmittedEntry s.enc e bs

/-- The instruction `i` is the ENTRY step of DEC on a record of `len` bytes with these present channels, whenever the record is whole in the stream. -/
def StoresRecord (s : State) (i : Instr) (len : Nat) (vals : List (Nat × Payload)) : Prop :=
  s.dec.sp.toNat + len ≤ s.dec.isLen.toNat →
    ∃ d, exec i s = .next { s with dec := d } ∧ ConsumedEntry s.dec d len vals

/-! ### Which instructions belong to which agent -/

/-- The instructions ENC runs. -/
def runsOnEnc : Instr → Bool
  | .encHdr | .encZ | .encG | .encCB | .encCG | .encCGB | .encCR | .encCRB | .encCRG | .encCRGB => true
  | .encScale | .encHeader | .encEntry => true
  | .errorStep .unrepresentableMagnitude _ | .errorStep .ioFailure _ => true
  | .hdr _ _ _ _ | .z _ _ | .g _ _ _ | .c0 _ | .cB _ _ | .cG _ _ | .cGB _ _ _ | .cR _ _ | .cRB _ _ _ | .cRG _ _ _
  | .cRGB _ _ _ _ | .decHeader | .decEntry | .decFinish | .errorStep .malformedHeader _ | .errorStep .truncatedEntry _
  | .errorStep .shapeMismatch _ | .encStart _ | .decStart _ | .rd _ | .wr _ _ | .emAccess _ _ _ _ | .isAccess _ _
  | .rdOs _ | .rdDm _ _ _ => false

/-- The instructions DEC runs. -/
def runsOnDec : Instr → Bool
  | .hdr _ _ _ _ | .z _ _ | .g _ _ _ | .c0 _ | .cB _ _ | .cG _ _ | .cGB _ _ _ | .cR _ _ | .cRB _ _ _ | .cRG _ _ _
  | .cRGB _ _ _ _ => true
  | .decHeader | .decEntry | .decFinish => true
  | .errorStep .malformedHeader _ | .errorStep .truncatedEntry _ | .errorStep .shapeMismatch _ => true
  | .encHdr | .encZ | .encG | .encCB | .encCG | .encCGB | .encCR | .encCRB | .encCRG | .encCRGB | .encScale | .encHeader
  | .encEntry | .errorStep .unrepresentableMagnitude _ | .errorStep .ioFailure _ | .encStart _ | .decStart _ | .rd _
  | .wr _ _ | .emAccess _ _ _ _ | .isAccess _ _ | .rdOs _ | .rdDm _ _ _ => false

/-- The instruction ENC's ENTRY step amounts to for a pixel: the form of R102 by which channels are non-zero. -/
def Pixel.form : Pixel → Instr
  | .gray c => if iszero c then .encZ else .encG
  | .colour r g b =>
    match iszero r, iszero g, iszero b with
    | true, true, true => .encZ
    | true, true, false => .encCB
    | true, false, true => .encCG
    | true, false, false => .encCGB
    | false, true, true => .encCR
    | false, true, false => .encCRB
    | false, false, true => .encCRG
    | false, false, false => .encCRGB

end Sys2Proof.Machine
end

