-- ==== Sys2Proof/Certificates/Slice0/Obligations.lean ====
section
/-! DEFINITION. The statements for the provers: one definition each, in the order of the spec's files. -/

open Sys2Proof Sys2Proof.Machine

/-! ### Encoding (30_encoding) -/

/-- Every well-formed instruction that has an encoding is what decoding that encoding gives, with the bytes after it left over: header and entry records (R91 to R103) and
host accesses (R61, R200, R201, R205). -/
def Obligations.EncodingDecodesBack : Prop :=
  (∀ h w k g rest, decode .header (encodeHeader h w k g ++ rest) = .ok (.hdr h w k g, rest)) ∧
  (∀ (e : Entry) (gray : Bool) rest, e.inMode gray = true →
    decode (.entry gray) (encodeEntry e ++ rest) = .ok (e.instr, rest) ∧ encode e.instr = .record (encodeEntry e)) ∧
  (∀ (i : Instr) (a : HostAccess), i.wf = true → encode i = .access a → decodeHost a = i)

/-- The other direction: what the decoder reads as an entry is the bytes of that entry, of a form of that mode, with nothing dropped. -/
def Obligations.DecodedEntryIsItsBytes : Prop :=
  ∀ (gray : Bool) (bs rest : List Byte) (e : Entry),
    decodeEntry gray bs = .ok (e, rest) → bs = encodeEntry e ++ rest ∧ e.inMode gray = true

/-- R101, R103, R105: every flag byte selects a form in each mode, and the record has exactly `entry_len` bytes; too few bytes after the flag is the only way an entry
fails to decode. -/
def Obligations.EveryFlagByteSelectsAnEntry : Prop :=
  ∀ (gray : Bool) (flag : Byte) (bs : List Byte),
    entryLen gray flag = (if flag.toNat / 8 % 2 = 0 then 1 else if gray = true then 5
      else 1 + 4 * (flag.toNat / 4 % 2 + flag.toNat / 2 % 2 + flag.toNat % 2)) ∧
    (entryLen gray flag = 1 ∨ entryLen gray flag = 5 ∨ entryLen gray flag = 9 ∨ entryLen gray flag = 13) ∧
    (entryLen gray flag ≤ 1 + bs.length →
      ∃ e, decodeEntry gray (flag :: bs) = .ok (e, bs.drop (entryLen gray flag - 1)) ∧
        (encodeEntry e).length = entryLen gray flag) ∧
    (1 + bs.length < entryLen gray flag → decodeEntry gray (flag :: bs) = .error .truncatedPayload)

/-- Records written out from the spec's encodings and examples decode to what they stand for. -/
def Obligations.SampleRecordsDecode : Prop :=
  decode .header [0x02, 0x00, 0x02, 0x00, 0x00, 0x01] = .ok (.hdr 2 2 0 1, []) ∧
  decode (.entry true) [0x08, 0xE8, 0x03, 0x00, 0x00] = .ok (.g 0 0 1000, []) ∧
  decode (.entry false) [0x0B, 0x01, 0x00, 0x00, 0x00, 0x02, 0x00, 0x00, 0x00] = .ok (.cGB 0 1 2, []) ∧
  decode (.entry false) [0xF9, 0xFF, 0xFF, 0xFF, 0xFF] = .ok (.cB 0xF 0xFFFFFFFF, []) ∧
  decode (.entry false) [0x08, 0x07] = .ok (.c0 0, [0x07])

/-! ### Reset (10_state, 70_reset_and_hazards) -/

/-- R46: every register is 0 after reset, both units IDLE; and no memory holds a word or byte the host or a unit has written (the representation of unspecified contents is
the model's, log 11 and 12). -/
def Obligations.ResetRegistersAreZero : Prop :=
  let e := State.reset.enc
  let d := State.reset.dec
  (e.h = 0 ∧ e.w = 0 ∧ e.gray = false ∧ e.st = .idle ∧ e.phase = .scale ∧ errCode e.err = 0 ∧ e.shift = 0 ∧ e.row = 0 ∧
    e.col = 0 ∧ e.cnt = 0 ∧ e.osLen = 0 ∧ e.osOpen = false) ∧
  (d.st = .idle ∧ d.phase = .header ∧ errCode d.err = 0 ∧ d.errPos = 0 ∧ d.h = 0 ∧ d.w = 0 ∧ d.shift = 0 ∧ d.gray = false ∧
    d.row = 0 ∧ d.col = 0 ∧ d.cnt = 0 ∧ d.sp = 0 ∧ d.isLen = 0 ∧ d.isOpen = false ∧ d.dmValid = false) ∧
  (∀ a, Memory.get e.em a = none ∧ Memory.get e.os a = none ∧ Memory.get d.inp a = none)

/-- R245, R246: when the host's next event is reset and it is the host that moves, the step returns every register of both units to its reset value, whatever they were doing, and
leaves no word or byte written; the parameters stay. The host does move when no unit is BUSY. -/
def Obligations.ResetEndsAnyRun : Prop :=
  ∀ (s : State) (rest : List HostEvent), s.params.legal = true → s.host.pending = .reset :: rest →
    (∀ t, chooseAgent s = (some .host, t) →
      step s = .next { params := s.params, enc := EncState.initial, dec := DecState.initial,
                       host := { pending := rest, rdata := s.host.rdata }, free := t.free }) ∧
    (s.enc.st ≠ .busy → s.dec.st ≠ .busy → chooseAgent s = (some .host, s))

/-! ### The step -/

/-- A step of a machine with legal parameters is the move of one agent that has a step, and nothing when there is none. Choosing among several draws one free value and changes nothing
else. -/
def Obligations.StepIsOneAgentsMove : Prop :=
  ∀ s : State, s.params.legal = true →
    (s.host.pending = [] ∧ s.enc.st ≠ .busy ∧ s.dec.st ≠ .busy ∧ step s = .next s) ∨
    (∃ n, (n = s.free ∨ n = s.free + 1) ∧
      ((s.enc.st = .busy ∧ step s = exec (encDispatch s.enc) { s with free := n }) ∨
       (s.dec.st = .busy ∧ step s = exec (decDispatch s.dec) { s with free := n }) ∨
       (∃ a rest, s.host.pending = .access a :: rest ∧
          step s = exec (decodeHost a) { s with free := n, host := { s.host with pending := rest } }) ∨
       (∃ rest, s.host.pending = .reset :: rest ∧
          step s = .next (applyReset { s with free := n, host := { s.host with pending := rest } }))))

/-- A step runs the decoded instruction: with DEC alone and an entry to read, the step is `exec` of the record the bytes at D_SP decode to; with a header to read, of the header
record. -/
def Obligations.StepRunsTheRecordAtTheStreamPosition : Prop :=
  (∀ (s : State) (e : Entry), s.decAlone → s.dec.entryReady = true → e.inMode s.dec.gray = true →
    s.dec.sp.toNat + (encodeEntry e).length ≤ s.dec.isLen.toNat →
    Memory.getBytes s.dec.inp s.dec.sp.toNat (encodeEntry e).length = .ok (encodeEntry e) → step s = exec e.instr s) ∧
  (∀ (s : State) (h w : Dim) (k g : Byte), s.decAlone → s.dec.st = .busy → s.dec.phase = .header →
    6 ≤ s.dec.isLen.toNat → Memory.getBytes s.dec.inp 0 6 = .ok (encodeHeader h w k g) →
    step s = exec (.hdr h w k g) s)

/-- A step with only the host able to move runs the instruction of its oldest access, which has left the queue. -/
def Obligations.StepRunsTheOldestHostAccess : Prop :=
  ∀ (s : State) (a : HostAccess) (rest : List HostEvent), s.params.legal = true → s.enc.st ≠ .busy → s.dec.st ≠ .busy →
    s.host.pending = .access a :: rest →
    step s = exec (decodeHost a) { s with host := { s.host with pending := rest } }

/-- R170, R171: with ENC alone BUSY, the step is the one its phase names; with nothing BUSY and nothing pending, nothing happens. -/
def Obligations.StepRunsTheEncoderPhase : Prop :=
  (∀ s : State, s.encAlone → s.enc.st = .busy →
    (s.enc.phase = .scale → step s = exec .encScale s) ∧ (s.enc.phase = .header → step s = exec .encHeader s) ∧
    (s.enc.phase = .entries → step s = exec .encEntry s)) ∧
  (∀ s : State, s.encAlone → s.enc.st ≠ .busy → step s = .next s)

/-- R190: the dispatch of the ENTRIES phase. At the end of the stream, FINISH when exactly N entries were consumed, else ShapeMismatch at D_SP; with a byte left, ShapeMismatch at D_SP when N
entries were consumed, else ENTRY. -/
def Obligations.EntriesPhaseDispatch : Prop :=
  ∀ s : State, s.decAlone → s.dec.st = .busy → s.dec.phase = .entries →
    (s.dec.sp = s.dec.isLen → s.dec.cnt.toNat = s.dec.h.toNat * s.dec.w.toNat →
      ∃ d, step s = .next { s with dec := d } ∧ d = { s.dec with st := .done, dmValid := true, isOpen := false }) ∧
    (s.dec.sp = s.dec.isLen → s.dec.cnt.toNat ≠ s.dec.h.toNat * s.dec.w.toNat →
      ∃ d, step s = .next { s with dec := d } ∧ DecRaised s.dec d .shapeMismatch s.dec.sp) ∧
    (s.dec.sp ≠ s.dec.isLen → s.dec.cnt.toNat = s.dec.h.toNat * s.dec.w.toNat →
      ∃ d, step s = .next { s with dec := d } ∧ DecRaised s.dec d .shapeMismatch s.dec.sp) ∧
    (s.dec.sp ≠ s.dec.isLen → s.dec.cnt.toNat ≠ s.dec.h.toNat * s.dec.w.toNat → step s = exec .decEntry s)

/-- Parameters outside the legal range of R7 are refused (U16). -/
def Obligations.IllegalParametersAreRefused : Prop :=
  ∀ s : State, (s.params.coefW ≤ s.params.frac ∨ 287 < s.params.coefW - s.params.frac) →
    step s = .refused .illegalParameters

/-! ### Scale Selector (40_scale_selector) -/

/-- R123: `clog2 M` is the least `n` with `M <= 2^n`. -/
def Obligations.BitCountIsLeast : Prop :=
  ∀ m : Nat, 1 ≤ m → m ≤ 2 ^ clog2 m ∧ ∀ n, m ≤ 2 ^ n → clog2 m ≤ n

/-- R124, R126: the shift is 0 when `M <= 2^(31+FRAC)` (M = 0 included), and otherwise `b - 31` for the least `b` with `M <= 2^(b+FRAC)`. -/
def Obligations.ShiftOfMagnitude : Prop :=
  ∀ frac m : Nat,
    (m ≤ 2 ^ (31 + frac) → scaleOf frac m = 0) ∧
    (2 ^ (31 + frac) < m → ∃ b, 31 < b ∧ m ≤ 2 ^ (b + frac) ∧ (∀ n, m ≤ 2 ^ (n + frac) → b ≤ n) ∧ scaleOf frac m = b - 31)

/-- R125: for a magnitude of a `COEF_W`-bit word and legal parameters the shift is at most `COEF_W - FRAC - 32` (0 when that is negative), so it fits 8 bits. -/
def Obligations.ShiftFitsEightBits : Prop :=
  ∀ (p : Params) (m : Nat), p.legal = true → m ≤ 2 ^ (p.coefW - 1) →
    scaleOf p.frac m ≤ p.coefW - p.frac - 32 ∧ scaleOf p.frac m ≤ 255

/-- R121, R122, R128: ENC.SCALE, when every word of the shape is written, goes to HEADER with E_SHIFT the shift of the largest `rawmag` over the shape, 0 for an empty shape; nothing else
changes. -/
def Obligations.ScaleStepComputesTheShift : Prop :=
  ∀ s : State, s.params.legal = true → Memory.emWf s.params s.enc.em = true → s.enc.st = .busy → s.enc.phase = .scale →
    s.enc.loaded →
    ∃ (m : Nat) (k : Shift), exec .encScale s = .next { s with enc := { s.enc with shift := k, phase := .header } } ∧
      k.toNat = scaleOf s.params.frac m ∧
      (∀ r c ch u, r < s.enc.h.toNat → c < s.enc.w.toNat → ch < channels s.enc.gray →
        Memory.get s.enc.em (wordAddr r c ch) = some u → rawmag (sextBits s.params.coefW u) ≤ m) ∧
      ((m = 0 ∧ s.enc.h.toNat * s.enc.w.toNat = 0) ∨
        ∃ r c ch u, r < s.enc.h.toNat ∧ c < s.enc.w.toNat ∧ ch < channels s.enc.gray ∧
          Memory.get s.enc.em (wordAddr r c ch) = some u ∧ rawmag (sextBits s.params.coefW u) = m)

/-- R47, U1: a SCALE step that meets a word of the shape the host has not written is a fault of the launch, never a read of zero. That the fault shows at the step that reads the
word, and names its address, is the model's deduction (log 10). -/
def Obligations.UnwrittenWordFaultsTheScaleStep : Prop :=
  ∀ (s : State) (r c ch : Nat), s.enc.st = .busy → s.enc.phase = .scale → r < s.enc.h.toNat → c < s.enc.w.toNat →
    ch < channels s.enc.gray → Memory.get s.enc.em (wordAddr r c ch) = none →
    ∃ a, Memory.get s.enc.em a = none ∧ exec .encScale s = .fault (.emUnwritten a)

/-- R47, U1: an ENTRY step of ENC, and each of the nine entry records of its mode, on a pixel with a word the host has not written is a fault of the launch, whatever the form of the pixel. That
the fault shows at the step that reads the word, and names the first unwritten one in the order red, green, blue, is the model's deduction (log 10). -/
def Obligations.UnwrittenPixelFaultsTheEntryStep : Prop :=
  ∀ (s : State) (ch : Nat), s.enc.inEntries = true → ch < channels s.enc.gray →
    Memory.get s.enc.em (wordAddr s.enc.row.toNat s.enc.col.toNat ch) = none →
    (∀ c, c < ch → (Memory.get s.enc.em (wordAddr s.enc.row.toNat s.enc.col.toNat c)).isSome = true) →
    (∀ i, i = .encEntry ∨ i = .encZ →
      exec i s = .fault (.emUnwritten (wordAddr s.enc.row.toNat s.enc.col.toNat ch))) ∧
    (s.enc.gray = true → exec .encG s = .fault (.emUnwritten (wordAddr s.enc.row.toNat s.enc.col.toNat ch))) ∧
    (s.enc.gray = false →
      ∀ i, i = .encCB ∨ i = .encCG ∨ i = .encCGB ∨ i = .encCR ∨ i = .encCRB ∨ i = .encCRG ∨ i = .encCRGB →
        exec i s = .fault (.emUnwritten (wordAddr s.enc.row.toNat s.enc.col.toNat ch)))

/-! ### Entry Codec, encode side (41_entry_encode) -/

/-- R132, R133, R134: `quant` is the floor of the truncated integer part over `2^k`, given exactly when it lies in the signed 32-bit range. -/
def Obligations.QuantIsTheFloorShift : Prop :=
  ∀ (frac : Nat) (k : Shift) (s : Int),
    (∀ q, quant frac k s = some q → q.toInt * 2 ^ k.toNat ≤ ipart frac s ∧ ipart frac s < (q.toInt + 1) * 2 ^ k.toNat) ∧
    (quant frac k s = none ↔
      ipart frac s < -(2 ^ 31) * 2 ^ k.toNat ∨ 2 ^ 31 * 2 ^ k.toNat ≤ ipart frac s) ∧
    (ipart frac s = Int.tdiv s (2 ^ frac))

/-- R127, R134, R252: under the shift of a magnitude that bounds a coefficient, quantization fails only for a positive coefficient that is itself that magnitude and an exact power of two `2^(b+FRAC)`,
`b >= 31`. -/
def Obligations.OnlyAPositivePowerOfTwoIsUnrepresentable : Prop :=
  ∀ (frac m : Nat) (k : Shift) (s : Int), rawmag s ≤ m → k.toNat = scaleOf frac m → quant frac k s = none →
    0 < s ∧ s = (m : Int) ∧ ∃ b, 31 ≤ b ∧ m = 2 ^ (b + frac)

/-- R148, R102: what the entry encoder emits is one of the nine canonical records: the zero byte, `08` and 4 bytes in grayscale mode, or in colour mode `09` to `0F` and 4 bytes per set bit of the low
three. -/
def Obligations.EncoderEmitsCanonicalRecords : Prop :=
  (∀ (frac : Nat) (k : Shift) (c : Int) (bs : List Byte), encEntry frac k (.gray c) = some bs →
    (c = 0 ∧ bs = [0x00]) ∨ (c ≠ 0 ∧ bs.length = 5 ∧ bs.head? = some 0x08)) ∧
  (∀ (frac : Nat) (k : Shift) (r g b : Int) (bs : List Byte), encEntry frac k (.colour r g b) = some bs →
    (r = 0 ∧ g = 0 ∧ b = 0 ∧ bs = [0x00]) ∨
    (¬(r = 0 ∧ g = 0 ∧ b = 0) ∧
      bs.head? = some (flagByte 0 true (BitVec.ofBool (r ≠ 0) ++ BitVec.ofBool (g ≠ 0) ++ BitVec.ofBool (b ≠ 0))) ∧
      bs.length = 1 + 4 * ((decide (r ≠ 0)).toNat + (decide (g ≠ 0)).toNat + (decide (b ≠ 0)).toNat)))

/-- The ENTRY step of ENC (the pseudocode of R130, R135, R136) is the record of the form its pixel has (the rows of R102, R140 to R146), for every pixel, in every outcome. -/
def Obligations.EncoderEntryIsItsForm : Prop :=
  ∀ (s : State) (pix : Pixel), s.enc.inEntries = true → pixelAt s.params s.enc = .ok pix →
    exec .encEntry s = exec pix.form s

/-- R135, R137, R140 to R146, R174, R175: the nine records ENC writes. When the pixel at the cursor has the form, its payloads are representable and the record fits, the step appends exactly the flag byte of
the form and the payloads of its present channels in the order red, green, blue, and advances; nothing else changes. -/
def Obligations.EncoderFormsEmitTheirRecords : Prop :=
  ∀ (s : State) (cr cg cb : Int) (qr qg qb : Payload), EncInv s.params s.enc → s.enc.inEntries = true →
    (cr ≠ 0 → quant s.params.frac s.enc.shift cr = some qr) → (cg ≠ 0 → quant s.params.frac s.enc.shift cg = some qg) →
    (cb ≠ 0 → quant s.params.frac s.enc.shift cb = some qb) →
    (pixelAt s.params s.enc = .ok (.gray cr) →
      (cr = 0 → EmitsRecord s .encZ [0x00]) ∧
      (cr ≠ 0 → EmitsRecord s .encG (0x08 :: bytesLe32 qr))) ∧
    (pixelAt s.params s.enc = .ok (.colour cr cg cb) →
      (cr = 0 → cg = 0 → cb = 0 → EmitsRecord s .encZ [0x00]) ∧
      (cr = 0 → cg = 0 → cb ≠ 0 → EmitsRecord s .encCB (0x09 :: bytesLe32 qb)) ∧
      (cr = 0 → cg ≠ 0 → cb = 0 → EmitsRecord s .encCG (0x0A :: bytesLe32 qg)) ∧
      (cr = 0 → cg ≠ 0 → cb ≠ 0 → EmitsRecord s .encCGB (0x0B :: (bytesLe32 qg ++ bytesLe32 qb))) ∧
      (cr ≠ 0 → cg = 0 → cb = 0 → EmitsRecord s .encCR (0x0C :: bytesLe32 qr)) ∧
      (cr ≠ 0 → cg = 0 → cb ≠ 0 → EmitsRecord s .encCRB (0x0D :: (bytesLe32 qr ++ bytesLe32 qb))) ∧
      (cr ≠ 0 → cg ≠ 0 → cb = 0 → EmitsRecord s .encCRG (0x0E :: (bytesLe32 qr ++ bytesLe32 qg))) ∧
      (cr ≠ 0 → cg ≠ 0 → cb ≠ 0 → EmitsRecord s .encCRGB (0x0F :: (bytesLe32 qr ++ (bytesLe32 qg ++ bytesLe32 qb)))))

/-- R174: ENC.ENTRY completes when the pixel's words are written, its entry can be built and it fits: it appends that entry and advances. -/
def Obligations.EncoderEntryAppendsTheEntry : Prop :=
  ∀ (s : State) (pix : Pixel) (bs : List Byte), EncInv s.params s.enc → s.enc.inEntries = true →
    pixelAt s.params s.enc = .ok pix → encEntry s.params.frac s.enc.shift pix = some bs →
    overCap s.params s.enc bs.length = false →
    ∃ e, exec .encEntry s = .next { s with enc := e } ∧ EmittedEntry s.enc e bs

/-- R134, R147, R222: when any non-zero channel of the pixel is out of range, the ENTRY step is the error step UnrepresentableMagnitude, whatever the capacity: no byte is appended and the cursor
stays. -/
def Obligations.UnrepresentableCoefficientRaises : Prop :=
  ∀ (s : State) (pix : Pixel), s.enc.inEntries = true → pixelAt s.params s.enc = .ok pix →
    ((∃ c, pix = .gray c ∧ c ≠ 0 ∧ quant s.params.frac s.enc.shift c = none) ∨
     (∃ r g b c, pix = .colour r g b ∧ (c = r ∨ c = g ∨ c = b) ∧ c ≠ 0 ∧ quant s.params.frac s.enc.shift c = none)) →
    ∃ e, exec .encEntry s = .next { s with enc := e } ∧ EncRaised s.enc e .unrepresentableMagnitude

/-- R68, R221, R222: an append that would pass OS_CAP is the error step IoFailure: in a HEADER step (and its record), and in an ENTRY step whose entry could be built. No byte is
appended. -/
def Obligations.FullOutputRaisesIoFailure : Prop :=
  (∀ (s : State) (cap : Nat), s.params.osCap = some cap → s.enc.st = .busy → s.enc.phase = .header →
    cap < s.enc.osLen.toNat + 6 →
    ∃ e, exec .encHeader s = .next { s with enc := e } ∧ exec .encHdr s = .next { s with enc := e } ∧
      EncRaised s.enc e .ioFailure) ∧
  (∀ (s : State) (cap : Nat) (pix : Pixel) (bs : List Byte), s.params.osCap = some cap → s.enc.inEntries = true →
    pixelAt s.params s.enc = .ok pix → encEntry s.params.frac s.enc.shift pix = some bs →
    cap < s.enc.osLen.toNat + bs.length →
    ∃ e, exec .encEntry s = .next { s with enc := e } ∧ EncRaised s.enc e .ioFailure)

/-! ### Container Writer (43_container_writer) -/

/-- R173, R94, R176: the HEADER step of ENC and its record append `H W shift gray`, little-endian, and go to ENTRIES, or to DONE with the phase unchanged when the matrix has zero area; nothing else
changes. Where six bytes do not fit, both are the error step IoFailure. -/
def Obligations.EncoderHeaderStep : Prop :=
  ∀ s : State, s.enc.st = .busy → s.enc.phase = .header → s.enc.osLen = 0 →
    (overCap s.params s.enc 6 = false →
      ∃ e, exec .encHeader s = .next { s with enc := e } ∧ exec .encHdr s = .next { s with enc := e } ∧
        Appended s.enc e [BitVec.ofNat 8 (s.enc.h.toNat % 256), BitVec.ofNat 8 (s.enc.h.toNat / 256),
          BitVec.ofNat 8 (s.enc.w.toNat % 256), BitVec.ofNat 8 (s.enc.w.toNat / 256), s.enc.shift,
          if s.enc.gray then 0x01 else 0x00] ∧
        (s.enc.h.toNat * s.enc.w.toNat = 0 → e.st = .done ∧ e.osOpen = false ∧ e.phase = .header) ∧
        (s.enc.h.toNat * s.enc.w.toNat ≠ 0 → e.st = .busy ∧ e.osOpen = s.enc.osOpen ∧ e.phase = .entries) ∧
        SameEncInputs s.enc e ∧ e.err = s.enc.err ∧ e.shift = s.enc.shift ∧ e.row = s.enc.row ∧ e.col = s.enc.col ∧
        e.cnt = s.enc.cnt) ∧
    (overCap s.params s.enc 6 = true →
      ∃ e, exec .encHeader s = .next { s with enc := e } ∧ exec .encHdr s = .next { s with enc := e } ∧
        EncRaised s.enc e .ioFailure)

/-- R67, R181, R20: no step of ENC writes EM or its configuration, or anything outside ENC. -/
def Obligations.EncoderOnlyReadsTheMatrix : Prop :=
  ∀ (i : Instr) (s t : State), runsOnEnc i = true → exec i s = .next t →
    SameOutsideEnc s t ∧ SameEncInputs s.enc t.enc

/-- R180: an encode run with ENC alone ends. From the state right after START, with the matrix loaded, SCALE, HEADER and E_H * E_W ENTRY steps leave BUSY, in DONE or ERROR; and DONE is not reached
before the last of them. Only runs in which no other agent can move are covered, because the model's choice among agents has no fairness (log 5); the steps after an early ERROR are the
model's idle step (log 6). -/
def Obligations.EncodeRunEnds : Prop :=
  ∀ s : State, s.encAlone → s.enc.started → s.enc.loaded → EncInv s.params s.enc →
    (∃ t, Host.Core.run Sys2Proof.core (2 + s.enc.h.toNat * s.enc.w.toNat) s = .next t ∧
      (t.enc.st = .done ∨ t.enc.st = .error)) ∧
    (∀ n t, n < 2 + s.enc.h.toNat * s.enc.w.toNat → Host.Core.run Sys2Proof.core n s = .next t → t.enc.st ≠ .done)

/-! ### Entry Codec, decode side (42_entry_decode) -/

/-- R154 to R164, R189, R191: the ten entry records. When DEC is ready for an entry, the mode is one the form is read in and the record is whole in the stream, the step stores `payload << D_SHIFT` in the
word of each present channel and advances; every other word, and everything else, is unchanged. -/
def Obligations.EntryRecordsStoreTheirChannels : Prop :=
  ∀ (s : State) (hi : BitVec 4) (lo : BitVec 3) (qr qg qb : Payload), s.dec.entryReady = true →
    StoresRecord s (.z hi lo) 1 [] ∧
    (s.dec.gray = true → StoresRecord s (.g hi lo qr) 5 [(0, qr)]) ∧
    (s.dec.gray = false →
      StoresRecord s (.c0 hi) 1 [] ∧
      StoresRecord s (.cB hi qb) 5 [(2, qb)] ∧
      StoresRecord s (.cG hi qg) 5 [(1, qg)] ∧
      StoresRecord s (.cGB hi qg qb) 9 [(1, qg), (2, qb)] ∧
      StoresRecord s (.cR hi qr) 5 [(0, qr)] ∧
      StoresRecord s (.cRB hi qr qb) 9 [(0, qr), (2, qb)] ∧
      StoresRecord s (.cRG hi qr qg) 9 [(0, qr), (1, qg)] ∧
      StoresRecord s (.cRGB hi qr qg qb) 13 [(0, qr), (1, qg), (2, qb)])

/-- R152, R218, R222, R223: a record that the end of the stream cuts short is the error step TruncatedEntry at the offset of its flag byte, which D_SP keeps; no word of DM is
written. -/
def Obligations.TruncatedRecordRaises : Prop :=
  ∀ (s : State) (e : Entry), s.dec.entryReady = true → e.inMode s.dec.gray = true →
    s.dec.isLen.toNat < s.dec.sp.toNat + (encodeEntry e).length →
    ∃ d, exec e.instr s = .next { s with dec := d } ∧ DecRaised s.dec d .truncatedEntry s.dec.sp

/-- R189 with R150, R152: the ENTRY step of DEC, which fetches, decodes by the flag-byte map and runs the record's own meaning, is the pseudocode of `dec_entry` in every outcome: the values stored, the length,
TruncatedEntry, and the fault on a byte never written. The fault at the reading step (log 10), and its order against TruncatedEntry (log 25), are the model's deductions. -/
def Obligations.DecoderEntryIsTheRule : Prop :=
  ∀ s : State, s.dec.entryReady = true → exec .decEntry s = liftDec s (decEntryStepRule s.dec)

/-- R189: DEC.ENTRY runs the record whose bytes stand at D_SP, whole in the stream, and completes. -/
def Obligations.DecoderEntryRunsTheRecord : Prop :=
  ∀ (s : State) (e : Entry), s.dec.entryReady = true → e.inMode s.dec.gray = true →
    s.dec.sp.toNat + (encodeEntry e).length ≤ s.dec.isLen.toNat →
    Memory.getBytes s.dec.inp s.dec.sp.toNat (encodeEntry e).length = .ok (encodeEntry e) →
    ∃ d, exec .decEntry s = .next { s with dec := d } ∧ exec e.instr s = .next { s with dec := d } ∧
      d.st = .busy ∧ d.cnt = s.dec.cnt + 1 ∧ d.sp.toNat = s.dec.sp.toNat + (encodeEntry e).length

/-- R153, R165: dequantization is exact for every shift and payload: no bit is dropped, the low `k` bits are 0. -/
def Obligations.DequantIsExact : Prop :=
  ∀ (k : Shift) (q : Payload),
    (dequant k q).toInt = q.toInt * 2 ^ k.toNat ∧ ∀ i, i < k.toNat → (dequant k q).getLsbD i = false

/-- R166, R133, R153: the entry decoder undoes the entry encoder up to quantization. If `enc_entry` gives `bs` for a pixel, then `bs` decodes to a record of exactly those bytes, and that record stores
`(ipart(c) >> k) << k` for each channel of the pixel: the stored value of a present channel, and 0 for a zero one. -/
def Obligations.DecodedEntryIsTheQuantizedPixel : Prop :=
  ∀ (frac : Nat) (pix : Pixel) (bs rest : List Byte) (d : DecState),
    encEntry frac d.shift pix = some bs → d.gray = (match pix with | .gray _ => true | .colour _ _ _ => false) →
    ∃ e vals, decodeEntry d.gray (bs ++ rest) = .ok (e, rest) ∧
      (∀ s : State, s.dec = d → d.entryReady = true → d.sp.toNat + bs.length ≤ d.isLen.toNat →
        exec e.instr s = .next { s with dec := d.consume bs.length vals }) ∧
      (∀ ch q, (ch, q) ∈ vals → ch < channels d.gray) ∧ (vals.map Prod.fst).Nodup ∧
      ∀ (ch : Nat) (c : Int),
        ((pix = .gray c ∧ ch = 0) ∨ ∃ r g b, pix = .colour r g b ∧ ((ch = 0 ∧ c = r) ∨ (ch = 1 ∧ c = g) ∨ (ch = 2 ∧ c = b))) →
        (c = 0 → ∀ q, (ch, q) ∉ vals) ∧
        (c ≠ 0 → ∃ q, (ch, q) ∈ vals) ∧
        (∀ q, (ch, q) ∈ vals → (dequant d.shift q).toInt = asr (ipart frac c) d.shift.toNat * 2 ^ d.shift.toNat)

/-! ### Container Reader (44_container_reader) -/

/-- R187, R188, R94: a legal header. The HEADER step of DEC, when six bytes are in the stream and written, and the header record itself, latch the fields, zero-fill DM over the declared shape, leave every word
outside it alone, and go to ENTRIES at offset 6; nothing else changes. -/
def Obligations.HeaderIsLatched : Prop :=
  ∀ (s : State) (b0 b1 b2 b3 k g : Byte) (height width : Nat), s.dec.st = .busy → s.dec.phase = .header →
    6 ≤ s.dec.isLen.toNat → Memory.getBytes s.dec.inp 0 6 = .ok [b0, b1, b2, b3, k, g] →
    height = b0.toNat + 256 * b1.toNat → width = b2.toNat + 256 * b3.toNat → height * width ≠ 0 → g.toNat ≤ 1 →
    ∃ d, exec .decHeader s = .next { s with dec := d } ∧
      exec (.hdr (BitVec.ofNat 16 height) (BitVec.ofNat 16 width) k g) s = .next { s with dec := d } ∧
      d.h.toNat = height ∧ d.w.toNat = width ∧ d.shift = k ∧ (d.gray = true ↔ g.toNat = 1) ∧ d.sp.toNat = 6 ∧
      d.phase = .entries ∧
      (∀ r c ch, r < 65536 → c < 65536 → ch < 4 →
        Memory.getDm d.dm (wordAddr r c ch) =
          if r < height ∧ c < width ∧ ch < channels d.gray then 0 else Memory.getDm s.dec.dm (wordAddr r c ch)) ∧
      SameDecInputs s.dec d ∧ d.st = .busy ∧ d.err = s.dec.err ∧ d.errPos = s.dec.errPos ∧ d.row = s.dec.row ∧
      d.col = s.dec.col ∧ d.cnt = s.dec.cnt ∧ d.isOpen = s.dec.isOpen ∧ d.dmValid = s.dec.dmValid

/-- R187, R217, R222, R223: MalformedHeader at position 0, for a stream shorter than six bytes, a zero area, or an isGrayscale byte above 1; no header field and no word of DM is written. -/
def Obligations.MalformedHeaderRaises : Prop :=
  (∀ s : State, s.dec.st = .busy → s.dec.phase = .header → s.dec.isLen.toNat < 6 →
    ∃ d, exec .decHeader s = .next { s with dec := d } ∧ DecRaised s.dec d .malformedHeader 0) ∧
  (∀ (s : State) (h w : Dim) (k g : Byte), s.dec.st = .busy → s.dec.phase = .header → 6 ≤ s.dec.isLen.toNat →
    (h.toNat * w.toNat = 0 ∨ 1 < g.toNat) →
    ∃ d, exec (.hdr h w k g) s = .next { s with dec := d } ∧ DecRaised s.dec d .malformedHeader 0 ∧
      (Memory.getBytes s.dec.inp 0 6 = .ok (encodeHeader h w k g) → exec .decHeader s = .next { s with dec := d }))

/-- R190: FINISH completes when the stream and the entries end together: DONE, DM_VALID, the stream closed; nothing else changes. -/
def Obligations.FinishCompletesTheRun : Prop :=
  ∀ s : State, s.dec.st = .busy → s.dec.phase = .entries → s.dec.sp = s.dec.isLen →
    s.dec.cnt.toNat = s.dec.h.toNat * s.dec.w.toNat →
    exec .decFinish s = .next { s with dec := { s.dec with st := .done, dmValid := true, isOpen := false } }

/-- R47, U2: a unit read of a byte below IS_LEN that the host has not written is a fault of the launch, never a value: the flag byte of an entry, any byte of a payload integer that is whole in the
stream (the integer of byte `o` of the record ends at `o` rounded up to its group of four), and any of the six header bytes. That the fault shows at the step that reads the byte, and names an unwritten
one, is the model's deduction (log 10); that it comes before TruncatedEntry for a later integer of the same entry is log 25. -/
def Obligations.UnwrittenStreamByteFaults : Prop :=
  (∀ s : State, s.dec.entryReady = true → Memory.get s.dec.inp s.dec.sp.toNat = none →
    exec .decEntry s = .fault (.isUnwritten s.dec.sp.toNat)) ∧
  (∀ (s : State) (flag : Byte) (o : Nat), s.dec.entryReady = true → Memory.get s.dec.inp s.dec.sp.toNat = some flag →
    1 ≤ o → o < entryLen s.dec.gray flag → s.dec.sp.toNat + 1 + 4 * ((o - 1) / 4 + 1) ≤ s.dec.isLen.toNat →
    Memory.get s.dec.inp (s.dec.sp.toNat + o) = none →
    ∃ b, Memory.get s.dec.inp b = none ∧ exec .decEntry s = .fault (.isUnwritten b)) ∧
  (∀ (s : State) (a : Nat), s.dec.st = .busy → s.dec.phase = .header → 6 ≤ s.dec.isLen.toNat → a < 6 →
    Memory.get s.dec.inp a = none → ∃ b, Memory.get s.dec.inp b = none ∧ exec .decHeader s = .fault (.isUnwritten b))

/-- R66, R76: no step of DEC writes IS or IS_LEN, or anything outside DEC. -/
def Obligations.DecoderOnlyReadsTheStream : Prop :=
  ∀ (i : Instr) (s t : State), runsOnDec i = true → exec i s = .next t →
    SameOutsideDec s t ∧ SameDecInputs s.dec t.dec

/-- R194, R249: a decode run with DEC alone ends, in DONE or ERROR and never in a fault: from the state right after START, with the stream loaded, whatever its bytes, within `2 + N` steps, N the area of the header
(0 where there is none). Only runs in which no other agent can move are covered, because the model's choice among agents has no fairness (log 5); the steps after an early end are the model's idle
step (log 6). -/
def Obligations.DecodeRunEnds : Prop :=
  ∀ (s : State) (area : Nat), s.decAlone → s.dec.started → s.dec.loaded → DecInv s.dec →
    (∀ h w k g, Memory.getBytes s.dec.inp 0 6 = .ok (encodeHeader h w k g) → 6 ≤ s.dec.isLen.toNat →
      h.toNat * w.toNat ≤ area) →
    ∃ t, Host.Core.run Sys2Proof.core (2 + area) s = .next t ∧ (t.dec.st = .done ∨ t.dec.st = .error)

/-! ### Host commands and accesses (45_host_commands) -/

/-- R200, R202: ENC_START, as the command and as the register write it is: ignored while BUSY, else BUSY in SCALE with the run registers cleared and OS open; EM and the configuration stay, and nothing else
changes. The last clause, that the bytes of OS stay as well, is the model's deduction (log 14). -/
def Obligations.EncoderStart : Prop :=
  ∀ (s : State) (ign : BitVec 63) (v : RegWord), v.getLsbD 0 = true →
    exec (.encStart ign) s = exec (.wr 0 v) s ∧
    (s.enc.st = .busy → exec (.encStart ign) s = .next s) ∧
    (s.enc.st ≠ .busy → ∃ e, exec (.encStart ign) s = .next { s with enc := e } ∧ e.started ∧ SameEncInputs s.enc e ∧
      e.os = s.enc.os)

/-- R201, R202: DEC_START, as the command and as the register write it is: ignored while BUSY, else BUSY in HEADER with the run registers cleared, DM invalid and IS open; IS, IS_LEN and DM stay, and nothing else
changes. -/
def Obligations.DecoderStart : Prop :=
  ∀ (s : State) (ign : BitVec 63) (v : RegWord), v.getLsbD 0 = true →
    exec (.decStart ign) s = exec (.wr 8 v) s ∧
    (s.dec.st = .busy → exec (.decStart ign) s = .next s) ∧
    (s.dec.st ≠ .busy → ∃ d, exec (.decStart ign) s = .next { s with dec := d } ∧ d.started ∧ SameDecInputs s.dec d ∧
      d.dm = s.dec.dm)

/-- R205, R39: register writes. With bit 0 set, registers 0 and 8 are the START commands. E_DIM and IS_LEN store their fields unless the unit is BUSY; every other write, bit 0 = 0 to the control registers included, changes
nothing. -/
def Obligations.RegisterWrite : Prop :=
  ∀ (s : State) (n : BitVec 4) (v : RegWord),
    (v.getLsbD 0 = true → exec (.wr 0 v) s = exec (.encStart (v.extractLsb' 1 63)) s ∧
      exec (.wr 8 v) s = exec (.decStart (v.extractLsb' 1 63)) s) ∧
    (v.getLsbD 0 = false → exec (.wr 0 v) s = .next s ∧ exec (.wr 8 v) s = .next s) ∧
    (n ≠ 0 → n ≠ 8 → n ≠ 2 → n ≠ 14 → exec (.wr n v) s = .next s) ∧
    (s.enc.st = .busy → exec (.wr 2 v) s = .next s) ∧
    (s.dec.st = .busy → exec (.wr 14 v) s = .next s) ∧
    (s.enc.st ≠ .busy → ∃ e, exec (.wr 2 v) s = .next { s with enc := e } ∧ e.h.toNat = v.toNat % 2 ^ 16 ∧
      e.w.toNat = v.toNat / 2 ^ 16 % 2 ^ 16 ∧ (e.gray = true ↔ v.toNat / 2 ^ 32 % 2 = 1) ∧
      e = { s.enc with h := e.h, w := e.w, gray := e.gray }) ∧
    (s.dec.st ≠ .busy → ∃ d, exec (.wr 14 v) s = .next { s with dec := d } ∧ d.isLen.toNat = v.toNat % 2 ^ 40 ∧
      d = { s.dec with isLen := d.isLen })

/-- R202: START written to a unit that is BUSY changes nothing, as the command and as the register write. -/
def Obligations.StartWhileBusyIsIgnored : Prop :=
  (∀ (s : State) (ign : BitVec 63) (v : RegWord), s.enc.st = .busy → v.getLsbD 0 = true →
    exec (.encStart ign) s = .next s ∧ exec (.wr 0 v) s = .next s) ∧
  (∀ (s : State) (ign : BitVec 63) (v : RegWord), s.dec.st = .busy → v.getLsbD 0 = true →
    exec (.decStart ign) s = .next s ∧ exec (.wr 8 v) s = .next s)

/-- R204, R39: a register read completes in every state, changes nothing but the value returned, and returns the fields at the places of the register map, reserved bits 0. -/
def Obligations.RegisterRead : Prop :=
  ∀ (s : State) (n : BitVec 4), ∃ t v, exec (.rd n) s = .next t ∧ SameOutsideRead s t ∧ t.free = s.free ∧ t.host.rdata = .reg v ∧
    v.toNat =
      (match n.toNat with
       | 1 => s.enc.st.code.toNat + 4 * s.enc.phase.code.toNat + 2 ^ 8 * (errCode s.enc.err).toNat + 2 ^ 16 * s.enc.osOpen.toNat
       | 2 => s.enc.h.toNat + 2 ^ 16 * s.enc.w.toNat + 2 ^ 32 * s.enc.gray.toNat
       | 3 => s.enc.shift.toNat
       | 4 => s.enc.row.toNat + 2 ^ 16 * s.enc.col.toNat
       | 5 => s.enc.cnt.toNat
       | 6 => s.enc.osLen.toNat
       | 9 => s.dec.st.code.toNat + 4 * s.dec.phase.code.toNat + 2 ^ 8 * (errCode s.dec.err).toNat +
                2 ^ 16 * s.dec.isOpen.toNat + 2 ^ 17 * s.dec.dmValid.toNat
       | 10 => s.dec.h.toNat + 2 ^ 16 * s.dec.w.toNat + 2 ^ 32 * s.dec.shift.toNat + 2 ^ 40 * s.dec.gray.toNat
       | 11 => s.dec.row.toNat + 2 ^ 16 * s.dec.col.toNat
       | 12 => s.dec.cnt.toNat
       | 13 => s.dec.sp.toNat
       | 14 => s.dec.isLen.toNat
       | 15 => s.dec.errPos.toNat
       | _ => 0)

/-- R206, R61, R75: EM accesses. A write stores `trunc_COEF_W(v)` in that word and leaves every other word; it is ignored while BUSY and for channel 3. A read returns the word where the host may read it and has
written it, and otherwise some word of `COEF_W` bits; it changes nothing else. -/
def Obligations.MatrixStoreAccess : Prop :=
  ∀ (s : State) (row col : Dim) (ch : BitVec 2) (v : Int),
    (s.enc.st ≠ .busy → ch.toNat < 3 → ∃ e, exec (.emAccess (.write v) row col ch) s = .next { s with enc := e } ∧
      e = { s.enc with em := e.em } ∧
      (∃ u, Memory.get e.em (wordAddr row.toNat col.toNat ch.toNat) = some u ∧ u < 2 ^ s.params.coefW ∧
        ((u : Int) - v) % (2 ^ s.params.coefW : Int) = 0) ∧
      ∀ a, a ≠ wordAddr row.toNat col.toNat ch.toNat → Memory.get e.em a = Memory.get s.enc.em a) ∧
    (s.enc.st = .busy ∨ ch.toNat = 3 → exec (.emAccess (.write v) row col ch) s = .next s) ∧
    (∀ u, s.enc.st ≠ .busy → ch.toNat < 3 → Memory.get s.enc.em (wordAddr row.toNat col.toNat ch.toNat) = some u →
      exec (.emAccess .read row col ch) s = .next { s with host := { s.host with rdata := .emWord u } }) ∧
    (∃ t u, exec (.emAccess .read row col ch) s = .next t ∧ SameOutsideRead s t ∧ t.host.rdata = .emWord u ∧
      (Memory.emWf s.params s.enc.em = true → u < 2 ^ s.params.coefW))

/-- R207, R75: IS accesses. A write stores bits 7:0 at that offset and leaves every other byte; it is ignored while BUSY. A read returns the byte where the host may read it and has written it, and otherwise some
byte; it changes nothing else. -/
def Obligations.InputStreamAccess : Prop :=
  ∀ (s : State) (a : Pos) (v : RegWord),
    (s.dec.st ≠ .busy → ∃ d, exec (.isAccess (.write v) a) s = .next { s with dec := d } ∧ d = { s.dec with inp := d.inp } ∧
      Memory.get d.inp a.toNat = some (BitVec.ofNat 8 v.toNat) ∧
      ∀ b, b ≠ a.toNat → Memory.get d.inp b = Memory.get s.dec.inp b) ∧
    (s.dec.st = .busy → exec (.isAccess (.write v) a) s = .next s) ∧
    (∀ b, s.dec.st ≠ .busy → Memory.get s.dec.inp a.toNat = some b →
      exec (.isAccess .read a) s = .next { s with host := { s.host with rdata := .isByte b } }) ∧
    (∃ t b, exec (.isAccess .read a) s = .next t ∧ SameOutsideRead s t ∧ t.host.rdata = .isByte b)

/-- R208: a read of OS returns the byte the last run appended at that offset, when OS is closed and the offset is below OS_LEN, and otherwise some byte; it changes nothing else. -/
def Obligations.OutputStreamRead : Prop :=
  ∀ (s : State) (a : Pos),
    (EncInv s.params s.enc → s.enc.osOpen = false → a.toNat < s.enc.osLen.toNat →
      ∃ b, Memory.get s.enc.os a.toNat = some b ∧
        exec (.rdOs a) s = .next { s with host := { s.host with rdata := .osByte b } }) ∧
    (∃ t b, exec (.rdOs a) s = .next t ∧ SameOutsideRead s t ∧ t.host.rdata = .osByte b)

/-- R209, R41, R226: a read of DM returns the word when DM_VALID = 1 and the address lies in the decoded shape, and otherwise some word; it changes nothing else. -/
def Obligations.DestinationMatrixRead : Prop :=
  ∀ (s : State) (row col : Dim) (ch : BitVec 2),
    (s.dec.dmValid = true → row.toNat < s.dec.h.toNat → col.toNat < s.dec.w.toNat → ch.toNat < channels s.dec.gray →
      exec (.rdDm row col ch) s = .next { s with host :=
        { s.host with rdata := .dmWord (Memory.getDm s.dec.dm (wordAddr row.toNat col.toNat ch.toNat)) } }) ∧
    (∃ t v, exec (.rdDm row col ch) s = .next t ∧ SameOutsideRead s t ∧ t.host.rdata = .dmWord v)

/-! ### Errors (60_exceptions) -/

/-- R222, R216, R223: the error step writes exactly STATE, ERR and the flags (and the position, for DEC) of the unit that raises; the other unit does not change. -/
def Obligations.ErrorStepWritesTheErrorRecord : Prop :=
  ∀ (s : State) (x : ErrKind) (p : Pos),
    (x = .malformedHeader ∨ x = .truncatedEntry ∨ x = .shapeMismatch → s.dec.st = .busy →
      ∃ d, exec (.errorStep x p) s = .next { s with dec := d } ∧ DecRaised s.dec d x p) ∧
    (x = .unrepresentableMagnitude ∨ x = .ioFailure → s.enc.st = .busy →
      ∃ e, exec (.errorStep x p) s = .next { s with enc := e } ∧ EncRaised s.enc e x)

/-- R171, R186, R203, R227, R228, R246: a unit that is not BUSY has no step. No instruction of it changes anything (log 7: the model's reading of an instruction that is not enabled); no instruction at all
but its START, as the command or as the register write, changes its STATE; and no step does but one whose host event (log 4) is that START or reset. So only START or reset leaves
DONE or ERROR. -/
def Obligations.IdleUnitDoesNothing : Prop :=
  (∀ (i : Instr) (s : State), runsOnEnc i = true → s.enc.st ≠ .busy → exec i s = .next s) ∧
  (∀ (i : Instr) (s : State), runsOnDec i = true → s.dec.st ≠ .busy → exec i s = .next s) ∧
  (∀ (i : Instr) (s t : State), s.enc.st ≠ .busy → (∀ ign, i ≠ .encStart ign) →
    (∀ v : RegWord, v.getLsbD 0 = true → i ≠ .wr 0 v) → exec i s = .next t → t.enc.st = s.enc.st) ∧
  (∀ (i : Instr) (s t : State), s.dec.st ≠ .busy → (∀ ign, i ≠ .decStart ign) →
    (∀ v : RegWord, v.getLsbD 0 = true → i ≠ .wr 8 v) → exec i s = .next t → t.dec.st = s.dec.st) ∧
  (∀ s t : State, s.enc.st ≠ .busy → step s = .next t → t.enc.st ≠ s.enc.st →
    (∃ rest, s.host.pending = .reset :: rest) ∨
    ∃ v rest, v.getLsbD 0 = true ∧ s.host.pending = .access (.regWrite 0 v) :: rest) ∧
  (∀ s t : State, s.dec.st ≠ .busy → step s = .next t → t.dec.st ≠ s.dec.st →
    (∃ rest, s.host.pending = .reset :: rest) ∨
    ∃ v rest, v.getLsbD 0 = true ∧ s.host.pending = .access (.regWrite 8 v) :: rest)

/-! ### The two units (20_memory) -/

/-- R20, R77: a step of ENC and a step of DEC commute, in every outcome that lets both be taken. -/
def Obligations.UnitStepsCommute : Prop :=
  ∀ (i j : Instr) (s t u : State), runsOnEnc i = true → runsOnDec j = true → exec i s = .next t → exec j s = .next u →
    ∃ v, exec j t = .next v ∧ exec i u = .next v

/-- R70, R77: what a step of one unit does depends on that unit and the parameters alone. -/
def Obligations.UnitOutcomeDependsOnTheUnitAlone : Prop :=
  (∀ (i : Instr) (s s' t : State), runsOnEnc i = true → s'.enc = s.enc → s'.params = s.params → exec i s = .next t →
    ∃ t', exec i s' = .next t' ∧ t'.enc = t.enc) ∧
  (∀ (i : Instr) (s s' t : State), runsOnDec i = true → s'.dec = s.dec → exec i s = .next t →
    ∃ t', exec i s' = .next t' ∧ t'.dec = t.dec)

/-! ### Invariants -/

/-- The invariant holds at reset. -/
def Obligations.InvariantHoldsAtReset : Prop := State.reset.Inv

/-- Every instruction keeps the invariant and the parameters, in every state that has it: the stream flags and DM_VALID follow STATE (R29, R37), the cursor and the counter agree and stay in the shape (R27, R35), OS_LEN
and D_SP stay within the bounds of R28 and R36, D_SP stays within the stream, and every memory keeps its canonical form. -/
def Obligations.EveryInstructionKeepsTheInvariant : Prop :=
  ∀ (i : Instr) (s t : State), s.Inv → exec i s = .next t → t.Inv ∧ t.params = s.params

/-- Every step of the machine keeps the invariant and the parameters: any interleaving of the three agents, resets included. -/
def Obligations.EveryStepKeepsTheInvariant : Prop :=
  ∀ s t : State, s.Inv → step s = .next t → t.Inv ∧ t.params = s.params

/-! ### The contract of the two units (00_scope R14, 95_test_vectors section 4) -/

/-- The round trip. An encode run from the state right after START that ends in DONE leaves a stream; DEC, started on that stream, ends in DONE with the same shape and layout and the shift of the header, and every word
of the shape in DM is `(ipart(c) >> k) << k` of the coefficient in EM. -/
def Obligations.RoundTrip : Prop :=
  ∀ s t u : State, s.encAlone → s.enc.started → EncInv s.params s.enc →
    s.enc.h.toNat * s.enc.w.toNat ≠ 0 →
    Host.Core.run Sys2Proof.core (2 + s.enc.h.toNat * s.enc.w.toNat) s = .next t → t.enc.st = .done →
    u.decAlone → u.dec.started → DecInv u.dec → u.dec.isLen = t.enc.osLen →
    (∀ a, a < t.enc.osLen.toNat → Memory.get u.dec.inp a = Memory.get t.enc.os a) →
    ∃ v, Host.Core.run Sys2Proof.core (2 + s.enc.h.toNat * s.enc.w.toNat) u = .next v ∧ v.dec.st = .done ∧
      v.dec.dmValid = true ∧ v.dec.h = s.enc.h ∧ v.dec.w = s.enc.w ∧ v.dec.gray = s.enc.gray ∧ v.dec.shift = t.enc.shift ∧
      ∀ r c ch, r < s.enc.h.toNat → c < s.enc.w.toNat → ch < channels s.enc.gray →
        ∃ x, Memory.get s.enc.em (wordAddr r c ch) = some x ∧
          (Memory.getDm v.dec.dm (wordAddr r c ch)).toInt =
            asr (ipart s.params.frac (sextBits s.params.coefW x)) t.enc.shift.toNat * 2 ^ t.enc.shift.toNat
end

