-- ==== Sys2Proof/Laws/Decode.lean ====
section
/-! SUPPORT. Byte order, the flag byte, payload integers, addresses: each field read back from where it was put. -/

namespace Sys2Proof

/-- Reading back the four bytes of a payload integer. -/
theorem le32_bytes (q : Payload) : le32 (q.extractLsb' 0 8) (q.extractLsb' 8 8) (q.extractLsb' 16 8) (q.extractLsb' 24 8) = q := by
  apply BitVec.eq_of_getLsbD_eq
  intro i hi
  simp only [le32, BitVec.getLsbD_append, BitVec.getLsbD_extractLsb']
  by_cases h1 : i < 8
  · simp [h1]
  · by_cases h2 : i - 8 < 8
    · simp [h1, h2, show 8 + (i - 8) = i by omega]
    · by_cases h3 : i - 8 - 8 < 8
      · simp [h1, h2, h3, show 16 + (i - 8 - 8) = i by omega]
      · simp [h1, h2, h3, show 24 + (i - 8 - 8 - 8) = i by omega]; omega

/-- Reading back the two bytes of a header field. -/
theorem le16_bytes (q : Dim) : le16 (q.extractLsb' 0 8) (q.extractLsb' 8 8) = q := by
  apply BitVec.eq_of_getLsbD_eq
  intro i hi
  simp only [le16, BitVec.getLsbD_append, BitVec.getLsbD_extractLsb']
  by_cases h1 : i < 8
  · simp [h1]
  · simp [h1, show 8 + (i - 8) = i by omega]; omega

/-- The bytes of a payload integer that was read. -/
theorem bytesLe32_le32 (a b c d : Byte) : bytesLe32 (le32 a b c d) = [a, b, c, d] := by
  simp only [bytesLe32, le32, List.cons.injEq, and_true]
  refine ⟨?_, ?_, ?_, ?_⟩ <;>
  · apply BitVec.eq_of_getLsbD_eq
    intro i hi
    simp only [BitVec.getLsbD_append, BitVec.getLsbD_extractLsb']
    simp [hi]
    try (simp [show ¬ (8 + i < 8) by omega, show ¬ (16 + i < 8) by omega, show ¬ (16 + i - 8 < 8) by omega, hi,
      show 8 + i - 8 = i by omega, show 16 + i - 8 - 8 = i by omega, show ¬ (24 + i < 8) by omega, show ¬ (24 + i - 8 < 8) by omega, show ¬ (24 + i - 8 - 8 < 8) by omega, show 24 + i - 8 - 8 - 8 = i by omega])

theorem bytesLe32_length (q : Payload) : (bytesLe32 q).length = 4 := rfl

/-- `takePayload` takes exactly the bytes of one integer. -/
theorem takePayload_bytes (q : Payload) (rest : List Byte) : takePayload (bytesLe32 q ++ rest) = .ok (q, rest) := by
  simp [bytesLe32, takePayload, le32_bytes]

/-- The fields of a flag byte. -/
theorem flag_roundtrip : ∀ (hi : BitVec 4) (p : Bool) (lo : BitVec 3),
    flagPresent (flagByte hi p lo) = p ∧ flagHi (flagByte hi p lo) = hi ∧ flagLo (flagByte hi p lo) = lo := by decide +kernel

/-- A flag byte is its fields. -/
theorem flag_of : ∀ f : Byte, flagByte (flagHi f) (flagPresent f) (flagLo f) = f := by decide +kernel

/-- The bits of a START write (R200, R201). -/
theorem start_concat (ign : BitVec 63) : (ign ++ 1#1 : BitVec 64).getLsbD 0 = true ∧ (ign ++ 1#1 : BitVec 64).extractLsb' 1 63 = ign := by
  constructor
  · rw [BitVec.getLsbD_append]; simp
  · apply BitVec.eq_of_getLsbD_eq; intro i hi
    rw [BitVec.getLsbD_extractLsb', BitVec.getLsbD_append]
    simp [hi, show ¬ (1 + i < 1) by omega, show 1 + i - 1 = i by omega]

/-- The fields of a matrix address (R61). -/
theorem addr_fields (r c : Dim) (ch : BitVec 2) : addrRow (storeAddr r c ch) = r ∧ addrCol (storeAddr r c ch) = c ∧ addrCh (storeAddr r c ch) = ch := by
  refine ⟨?_, ?_, ?_⟩ <;> apply BitVec.eq_of_getLsbD_eq <;> intro i hi <;>
    simp only [addrRow, addrCol, addrCh, storeAddr, BitVec.getLsbD_append, BitVec.getLsbD_extractLsb']
  · simp only [hi, decide_true, Bool.true_and, show ¬ (18 + i < 2) by omega, show ¬ (18 + i - 2 < 16) by omega, show 18 + i - 2 - 16 = i by omega, decide_false, Bool.false_eq_true, if_false]
  · simp only [hi, decide_true, Bool.true_and, show ¬ (2 + i < 2) by omega, show (2 + i - 2 < 16) by omega, show 2 + i - 2 = i by omega, if_true, if_false]
  · simp [hi]

/-- What `takePayload` took. -/
theorem takePayload_inv {bs rest q} (h : takePayload bs = .ok (q, rest)) : bs = bytesLe32 q ++ rest := by
  unfold takePayload at h
  split at h
  · simp at h; obtain ⟨rfl, rfl⟩ := h; simp [bytesLe32_le32]
  · cases h

/-- What `takeOne` took. -/
theorem takeOne_inv {mk bs e rest} (h : takeOne mk bs = .ok (e, rest)) : ∃ q, e = mk q ∧ bs = bytesLe32 q ++ rest := by
  unfold takeOne at h
  split at h
  · cases h
  · rename_i q r hq; simp at h; obtain ⟨rfl, rfl⟩ := h; exact ⟨q, rfl, takePayload_inv hq⟩

/-- What `takeTwo` took. -/
theorem takeTwo_inv {mk bs e rest} (h : takeTwo mk bs = .ok (e, rest)) : ∃ q q', e = mk q q' ∧ bs = bytesLe32 q ++ (bytesLe32 q' ++ rest) := by
  unfold takeTwo at h
  split at h
  · cases h
  · rename_i q r hq; obtain ⟨q', rfl, rfl⟩ := takeOne_inv h; exact ⟨q, q', rfl, takePayload_inv hq⟩

/-- What `takeThree` took. -/
theorem takeThree_inv {mk bs e rest} (h : takeThree mk bs = .ok (e, rest)) : ∃ q q' q'', e = mk q q' q'' ∧ bs = bytesLe32 q ++ (bytesLe32 q' ++ (bytesLe32 q'' ++ rest)) := by
  unfold takeThree at h
  split at h
  · cases h
  · rename_i q r hq; obtain ⟨q', q'', rfl, rfl⟩ := takeTwo_inv h; exact ⟨q, q', q'', rfl, takePayload_inv hq⟩

/-- Four bytes are enough. -/
theorem takePayload_len {bs : List Byte} (h : 4 ≤ bs.length) : ∃ q, takePayload bs = .ok (q, bs.drop 4) := by
  match bs, h with
  | a :: b :: c :: d :: r, _ => exact ⟨_, rfl⟩

/-- Fewer are not. -/
theorem takePayload_short {bs : List Byte} (h : bs.length < 4) : takePayload bs = .error .truncatedPayload := by
  match bs, h with
  | [], _ => rfl
  | [_], _ => rfl
  | [_, _], _ => rfl
  | [_, _, _], _ => rfl

theorem takeOne_len {mk} {bs : List Byte} (h : 4 ≤ bs.length) : ∃ q, takeOne mk bs = .ok (mk q, bs.drop 4) := by
  obtain ⟨q, hq⟩ := takePayload_len h; exact ⟨q, by simp [takeOne, hq]⟩

theorem takeTwo_len {mk} {bs : List Byte} (h : 8 ≤ bs.length) : ∃ q q', takeTwo mk bs = .ok (mk q q', bs.drop 8) := by
  obtain ⟨q, hq⟩ := takePayload_len (bs := bs) (by omega)
  obtain ⟨q', hq'⟩ := takeOne_len (mk := mk q) (bs := bs.drop 4) (by simp; omega)
  exact ⟨q, q', by simp [takeTwo, hq, hq']⟩

theorem takeThree_len {mk} {bs : List Byte} (h : 12 ≤ bs.length) : ∃ q q' q'', takeThree mk bs = .ok (mk q q' q'', bs.drop 12) := by
  obtain ⟨q, hq⟩ := takePayload_len (bs := bs) (by omega)
  obtain ⟨q', q'', hq'⟩ := takeTwo_len (mk := mk q) (bs := bs.drop 4) (by simp; omega)
  exact ⟨q, q', q'', by simp [takeThree, hq, hq']⟩

theorem takeOne_short {mk} {bs : List Byte} (h : bs.length < 4) : takeOne mk bs = .error .truncatedPayload := by simp [takeOne, takePayload_short h]

theorem takeTwo_short {mk} {bs : List Byte} (h : bs.length < 8) : takeTwo mk bs = .error .truncatedPayload := by
  by_cases h4 : bs.length < 4
  · simp [takeTwo, takePayload_short h4]
  · obtain ⟨q, hq⟩ := takePayload_len (bs := bs) (by omega)
    simp [takeTwo, hq, takeOne_short (bs := bs.drop 4) (by simp; omega)]

theorem takeThree_short {mk} {bs : List Byte} (h : bs.length < 12) : takeThree mk bs = .error .truncatedPayload := by
  by_cases h4 : bs.length < 4
  · simp [takeThree, takePayload_short h4]
  · obtain ⟨q, hq⟩ := takePayload_len (bs := bs) (by omega)
    simp [takeThree, hq, takeTwo_short (bs := bs.drop 4) (by simp; omega)]

theorem lo_of (lo : BitVec 3) (n : Nat) (h : lo.toNat = n) : lo = BitVec.ofNat 3 n := by
  apply BitVec.eq_of_toNat_eq; simp; omega

/-- The number of set bits among R, G, B, by the value of the three bits (R101). -/
theorem lo_bits : ∀ f : Byte, (f.getLsbD 2).toNat + (f.getLsbD 1).toNat + (f.getLsbD 0).toNat =
   (match (flagLo f).toNat with | 0 => 0 | 1 => 1 | 2 => 1 | 3 => 2 | 4 => 1 | 5 => 2 | 6 => 2 | _ => 3) := by decide +kernel

/-- `le16` of R10 as a number. -/
theorem le16_toNat (a b : Byte) : (le16 a b).toNat = a.toNat + 256 * b.toNat := by
  simp only [le16, BitVec.toNat_append]
  rw [← Nat.shiftLeft_add_eq_or_of_lt a.isLt, Nat.shiftLeft_eq]; omega

/-- A concatenation as a number. -/
theorem app_toNat {m n} (a : BitVec m) (b : BitVec n) : (a ++ b).toNat = a.toNat * 2 ^ n + b.toNat := by
  rw [BitVec.toNat_append, ← Nat.shiftLeft_add_eq_or_of_lt b.isLt, Nat.shiftLeft_eq]

/-! ### Host accesses -/

/-- Only the write of a value with bit 0 set to register 0 decodes to ENC_START (R200). -/
theorem decodeHost_encStart {a ign} (h : decodeHost a = .encStart ign) : ∃ v : RegWord, v.getLsbD 0 = true ∧ a = .regWrite 0 v := by
  cases a <;> simp only [decodeHost, reduceCtorEq] at h
  rename_i n v
  split at h
  · rename_i hs
    split at h
    · rename_i hn; simp only [beq_iff_eq] at hn; subst hn
      simp only [isStartWrite, Bool.and_eq_true] at hs
      exact ⟨v, hs.2, rfl⟩
    · cases h
  · cases h

/-- Only the write of a value with bit 0 set to register 8 decodes to DEC_START (R201). -/
theorem decodeHost_decStart {a ign} (h : decodeHost a = .decStart ign) : ∃ v : RegWord, v.getLsbD 0 = true ∧ a = .regWrite 8 v := by
  cases a <;> simp only [decodeHost, reduceCtorEq] at h
  rename_i n v
  split at h
  · rename_i hs
    split at h
    · cases h
    · rename_i hn
      simp only [isStartWrite, Bool.and_eq_true, Bool.or_eq_true, beq_iff_eq] at hs hn
      exact ⟨v, hs.2, by rw [hs.1.resolve_left hn]; rfl⟩
  · cases h

/-- Only a register write decodes to WR. -/
theorem decodeHost_wr {a n v} (h : decodeHost a = .wr n v) : a = .regWrite n v := by
  cases a <;> simp only [decodeHost, reduceCtorEq] at h
  repeat' split at h
  all_goals simp_all

end Sys2Proof
end

