-- ==== Sys2Proof/Laws/Memory.lean ====
section
/-! SUPPORT. The memories: every operation keeps the canonical form, and a read gives what was written. -/

namespace Sys2Proof.Machine

variable {α : Type}

@[simp] theorem Memory.get_put_same (m : List (Nat × α)) (a : Nat) (v : α) : Memory.get (Memory.put m a v) a = some v := by
  induction m with
  | nil => simp [Memory.put, Memory.get]
  | cons c rest ih =>
    obtain ⟨b, u⟩ := c
    by_cases h1 : a < b
    · simp [Memory.put, Memory.get, h1]
    · by_cases h2 : a = b
      · simp [Memory.put, Memory.get, h2]
      · simp [Memory.put, Memory.get, h1, h2, ih]

theorem Memory.get_put_other (m : List (Nat × α)) (v : α) {a b : Nat} (h : b ≠ a) :
    Memory.get (Memory.put m a v) b = Memory.get m b := by
  induction m with
  | nil => simp [Memory.put, Memory.get, h]
  | cons c rest ih =>
    obtain ⟨d, u⟩ := c
    by_cases h1 : a < d
    · simp [Memory.put, Memory.get, h1, h]
    · by_cases h2 : a = d
      · subst h2; simp [Memory.put, Memory.get, h]
      · simp [Memory.put, Memory.get, h1, h2, ih]

theorem Memory.get_filter (m : List (Nat × α)) (p : Nat → Bool) (a : Nat) :
    Memory.get (m.filter (fun c => p c.1)) a = if p a then Memory.get m a else none := by
  induction m with
  | nil => simp [Memory.get]
  | cons c rest ih =>
    obtain ⟨b, u⟩ := c
    by_cases hb : p b
    · by_cases hab : a = b
      · subst hab; simp [List.filter, hb, Memory.get]
      · simp [List.filter, hb, Memory.get, hab, ih]
    · by_cases hab : a = b
      · subst hab; simp [List.filter, hb, ih]
      · simp [List.filter, hb, Memory.get, hab, ih]

theorem Memory.get_erase (m : List (Nat × α)) (a b : Nat) :
    Memory.get (Memory.erase m a) b = if b = a then none else Memory.get m b := by
  have h := Memory.get_filter m (fun c => c != a) b
  simpa [Memory.erase] using h

theorem Memory.mem_put {m : List (Nat × α)} {a : Nat} {v : α} {c : Nat × α} (h : c ∈ Memory.put m a v) :
    c = (a, v) ∨ c ∈ m := by
  induction m with
  | nil => simpa [Memory.put] using h
  | cons d rest ih =>
    obtain ⟨b, u⟩ := d
    by_cases h1 : a < b
    · simpa [Memory.put, h1] using h
    · by_cases h2 : a = b
      · subst h2
        simp only [Memory.put, h1, if_false, if_true, List.mem_cons] at h ⊢
        tauto
      · simp only [Memory.put, h1, h2, if_false, List.mem_cons] at h ⊢
        rcases h with h | h
        · tauto
        · rcases ih h with h | h <;> tauto

theorem Memory.all_put {m : List (Nat × α)} {a : Nat} {v : α} {p : Nat × α → Bool} (hm : m.all p = true)
    (hp : p (a, v) = true) : (Memory.put m a v).all p = true := by
  rw [List.all_eq_true] at hm ⊢
  intro c hc
  rcases Memory.mem_put hc with rfl | h
  · exact hp
  · exact hm c h

theorem Memory.wf_put {m : List (Nat × α)} (a : Nat) (v : α) (h : Memory.wf m = true) : Memory.wf (Memory.put m a v) = true := by
  induction m with
  | nil => simp [Memory.put, Memory.wf]
  | cons d rest ih =>
    obtain ⟨b, u⟩ := d
    simp only [Memory.wf, Bool.and_eq_true] at h
    obtain ⟨hb, hr⟩ := h
    by_cases h1 : a < b
    · simp only [Memory.put, h1, if_true, Memory.wf, Bool.and_eq_true, List.all_cons, decide_true, Bool.true_and]
      refine ⟨?_, hb, hr⟩
      rw [List.all_eq_true] at hb ⊢
      intro c hc
      have := hb c hc
      simp only [decide_eq_true_eq] at this ⊢
      omega
    · by_cases h2 : a = b
      · subst h2; simp only [Memory.put, h1, if_false, if_true, Memory.wf, Bool.and_eq_true]
        exact ⟨hb, hr⟩
      · simp only [Memory.put, h1, h2, if_false, Memory.wf, Bool.and_eq_true]
        refine ⟨Memory.all_put hb ?_, ih hr⟩
        simp only [decide_eq_true_eq]; omega

theorem Memory.wf_filter {m : List (Nat × α)} (p : Nat × α → Bool) (h : Memory.wf m = true) :
    Memory.wf (m.filter p) = true := by
  induction m with
  | nil => simp [Memory.wf]
  | cons d rest ih =>
    obtain ⟨b, u⟩ := d
    simp only [Memory.wf, Bool.and_eq_true] at h
    by_cases hp : p (b, u)
    · simp only [List.filter, hp, Memory.wf, Bool.and_eq_true]
      refine ⟨?_, ih h.2⟩
      rw [List.all_eq_true] at h ⊢
      intro c hc
      exact h.1 c (List.mem_of_mem_filter hc)
    · simp only [List.filter, hp]
      exact ih h.2

theorem Memory.all_filter {m : List (Nat × α)} (p q : Nat × α → Bool) (h : m.all q = true) :
    (m.filter p).all q = true := by
  rw [List.all_eq_true] at h ⊢
  intro c hc
  exact h c (List.mem_of_mem_filter hc)

/-! ### The four memories keep their canonical form -/

theorem Memory.bufWf_put {m : List Host.Cell} (a : Pos) (v : Byte) (h : Memory.bufWf m = true) :
    Memory.bufWf (Memory.put m a.toNat v) = true := by
  simp only [Memory.bufWf, Bool.and_eq_true] at h ⊢
  exact ⟨Memory.wf_put _ _ h.1, Memory.all_put h.2 (by simpa using a.isLt)⟩

theorem Memory.bufWf_putBytes (bs : List Byte) : ∀ {m : List Host.Cell} (a : Pos), Memory.bufWf m = true →
    Memory.bufWf (Memory.putBytes m a bs) = true := by
  induction bs with
  | nil => intro m a h; exact h
  | cons b bs ih => intro m a h; exact ih _ (Memory.bufWf_put a b h)

theorem wordAddr_lt (row col : Dim) {ch : Nat} (h : ch < 3) : wordAddr row.toNat col.toNat ch < 2 ^ 34 := by
  have := row.isLt; have := col.isLt; simp only [wordAddr]; omega

theorem wordAddr_mod (row col ch : Nat) (h : ch < 4) : wordAddr row col ch % 4 = ch := by simp only [wordAddr]; omega

theorem truncBits_lt (n : Nat) (a : Int) : truncBits n a < 2 ^ n := by
  have h : (0 : Int) < 2 ^ n := by positivity
  have h1 := Int.emod_nonneg a (ne_of_gt h)
  have h2 := Int.emod_lt_of_pos a h
  have h3 : ((truncBits n a : Nat) : Int) < ((2 ^ n : Nat) : Int) := by
    simp only [truncBits, Int.toNat_of_nonneg h1]; push_cast; exact h2
  exact_mod_cast h3

theorem Memory.emWf_put {p : Params} {m : List (Nat × Nat)} (row col : Dim) {ch : Nat} (v : Int) (hc : ch < 3)
    (h : Memory.emWf p m = true) :
    Memory.emWf p (Memory.put m (wordAddr row.toNat col.toNat ch) (truncBits p.coefW v)) = true := by
  simp only [Memory.emWf, Bool.and_eq_true] at h ⊢
  refine ⟨Memory.wf_put _ _ h.1, Memory.all_put h.2 ?_⟩
  simp only [Bool.and_eq_true, decide_eq_true_eq]
  exact ⟨⟨wordAddr_lt row col hc, by rw [wordAddr_mod _ _ _ (by omega)]; exact hc⟩, truncBits_lt _ _⟩

theorem Memory.dmWf_filter {m : List (Nat × DmWord)} (p : Nat × DmWord → Bool) (h : Memory.dmWf m = true) :
    Memory.dmWf (m.filter p) = true := by
  simp only [Memory.dmWf, Bool.and_eq_true] at h ⊢
  exact ⟨Memory.wf_filter p h.1, Memory.all_filter p _ h.2⟩

theorem Memory.dmWf_putDm {m : List (Nat × DmWord)} (row col : Dim) {ch : Nat} (v : DmWord) (hc : ch < 3)
    (h : Memory.dmWf m = true) : Memory.dmWf (Memory.putDm m (wordAddr row.toNat col.toNat ch) v) = true := by
  by_cases hv : v = 0#287
  · simpa [Memory.putDm, hv, Memory.erase] using Memory.dmWf_filter _ h
  · simp only [Memory.putDm, hv, if_false]
    simp only [Memory.dmWf, Bool.and_eq_true] at h ⊢
    refine ⟨Memory.wf_put _ _ h.1, Memory.all_put h.2 ?_⟩
    simp only [Bool.and_eq_true, decide_eq_true_eq, bne_iff_ne, ne_eq]
    exact ⟨⟨wordAddr_lt row col hc, by rw [wordAddr_mod _ _ _ (by omega)]; exact hc⟩, hv⟩

theorem Memory.dmWf_storeVals (row col : Dim) (k : Shift) (vals : List (Nat × Payload)) :
    ∀ {m : List (Nat × DmWord)}, (∀ c ∈ vals, c.1 < 3) → Memory.dmWf m = true →
      Memory.dmWf (storeVals row col k vals m) = true := by
  induction vals with
  | nil => intro m _ h; exact h
  | cons c rest ih =>
    intro m hc h
    obtain ⟨ch, q⟩ := c
    exact ih (fun x hx => hc x (List.mem_cons_of_mem _ hx)) (Memory.dmWf_putDm row col _ (hc _ (List.mem_cons_self ..)) h)

/-! ### Reading what was written -/

theorem Memory.getDm_putDm (m : List (Nat × DmWord)) (a b : Nat) (v : DmWord) :
    Memory.getDm (Memory.putDm m a v) b = if b = a then v else Memory.getDm m b := by
  by_cases hv : v = 0#287
  · by_cases hb : b = a <;> simp [Memory.putDm, Memory.getDm, hv, Memory.get_erase, hb]
  · by_cases hb : b = a
    · subst hb; simp [Memory.putDm, Memory.getDm, hv]
    · simp [Memory.putDm, Memory.getDm, hv, hb, Memory.get_put_other _ _ hb]

theorem Memory.get_putBytes_outside (bs : List Byte) : ∀ (m : List Host.Cell) (a : Pos) (b : Nat),
    a.toNat + bs.length ≤ 2 ^ 40 → (b < a.toNat ∨ a.toNat + bs.length ≤ b) →
      Memory.get (Memory.putBytes m a bs) b = Memory.get m b := by
  induction bs with
  | nil => intro m a b _ _; rfl
  | cons x bs ih =>
    intro m a b hw hb
    simp only [List.length_cons] at hw hb
    have hne : b ≠ a.toNat := by omega
    simp only [Memory.putBytes]
    by_cases hlast : bs = []
    · subst hlast; simp [Memory.putBytes, Memory.get_put_other _ _ hne]
    · have hpos : 0 < bs.length := List.length_pos_iff.mpr hlast
      have h1 : (a + 1).toNat = a.toNat + 1 := by
        rw [BitVec.toNat_add]; change (a.toNat + 1) % 2 ^ 40 = _; omega
      rw [ih _ _ _ (by omega) (by omega), Memory.get_put_other _ _ hne]

theorem Memory.get_putBytes_inside (bs : List Byte) : ∀ (m : List Host.Cell) (a : Pos) (i : Nat),
    a.toNat + bs.length ≤ 2 ^ 40 → i < bs.length → Memory.get (Memory.putBytes m a bs) (a.toNat + i) = bs[i]? := by
  induction bs with
  | nil => intro m a i _ hi; simp at hi
  | cons x bs ih =>
    intro m a i hw hi
    simp only [List.length_cons] at hw hi
    simp only [Memory.putBytes]
    by_cases hlast : bs = []
    · subst hlast
      have : i = 0 := by simpa using hi
      subst this; simp [Memory.putBytes]
    · have hpos : 0 < bs.length := List.length_pos_iff.mpr hlast
      have h1 : (a + 1).toNat = a.toNat + 1 := by
        rw [BitVec.toNat_add]; change (a.toNat + 1) % 2 ^ 40 = _; omega
      cases i with
      | zero =>
        rw [Memory.get_putBytes_outside _ _ _ _ (by omega) (by omega)]; simp
      | succ j =>
        have := ih (Memory.put m a.toNat x) (a + 1) j (by omega) (by omega)
        rw [h1] at this
        simpa [Nat.add_assoc, Nat.add_comm 1 j] using this

/-- `getBytes` answers exactly when every byte of the span is written, with those bytes. -/
theorem Memory.getBytes_ok_iff (m : List Host.Cell) (n : Nat) : ∀ (a : Nat) (bs : List Byte),
    Memory.getBytes m a n = .ok bs ↔ bs.length = n ∧ ∀ i, i < n → Memory.get m (a + i) = bs[i]? := by
  induction n with
  | zero =>
    intro a bs
    simp only [Memory.getBytes, Except.ok.injEq, List.length_eq_zero_iff, Nat.not_lt_zero, false_implies, implies_true, and_true]
    exact eq_comm
  | succ n ih =>
    intro a bs
    cases hget : Memory.get m a with
    | none =>
      simp only [Memory.getBytes, hget, reduceCtorEq, false_iff, not_and, not_forall]
      intro hl
      refine ⟨0, by omega, ?_⟩
      cases bs with
      | nil => simp at hl
      | cons x xs => simp [hget]
    | some b =>
      cases hrest : Memory.getBytes m (a + 1) n with
      | error c =>
        simp only [Memory.getBytes, hget, hrest, reduceCtorEq, false_iff, not_and]
        intro hl hall
        cases bs with
        | nil => simp at hl
        | cons x xs =>
          have : Memory.getBytes m (a + 1) n = .ok xs := by
            rw [ih]
            refine ⟨by simpa using hl, fun i hi => ?_⟩
            have := hall (i + 1) (by omega)
            simpa [Nat.add_assoc, Nat.add_comm 1 i] using this
          rw [hrest] at this; cases this
      | ok xs =>
        simp only [Memory.getBytes, hget, hrest, Except.ok.injEq]
        have hx := (ih (a + 1) xs).mp hrest
        constructor
        · rintro rfl
          refine ⟨by simp [hx.1], fun i hi => ?_⟩
          cases i with
          | zero => simp [hget]
          | succ j =>
            have := hx.2 j (by omega)
            simpa [Nat.add_assoc, Nat.add_comm 1 j] using this
        · rintro ⟨hl, hall⟩
          cases bs with
          | nil => simp at hl
          | cons y ys =>
            have h0 := hall 0 (by omega)
            simp only [Nat.add_zero, hget, List.getElem?_cons_zero, Option.some.injEq] at h0
            subst h0
            have hy : Memory.getBytes m (a + 1) n = .ok ys := by
              rw [ih]
              refine ⟨by simpa using hl, fun i hi => ?_⟩
              have := hall (i + 1) (by omega)
              simpa [Nat.add_assoc, Nat.add_comm 1 i] using this
            rw [hrest] at hy; cases hy; rfl

end Sys2Proof.Machine
end

