-- ==== Sys2Proof/Laws/State.lean ====
section
/-! SUPPORT. One lemma per field per record update, and the START steps. -/

namespace Sys2Proof.Machine

/-! #### `EncState.raise` -/

@[simp] theorem EncState.raise_h (e : EncState) (x : ErrKind) : (e.raise x).h = e.h := rfl
@[simp] theorem EncState.raise_w (e : EncState) (x : ErrKind) : (e.raise x).w = e.w := rfl
@[simp] theorem EncState.raise_gray (e : EncState) (x : ErrKind) : (e.raise x).gray = e.gray := rfl
@[simp] theorem EncState.raise_st (e : EncState) (x : ErrKind) : (e.raise x).st = .error := rfl
@[simp] theorem EncState.raise_phase (e : EncState) (x : ErrKind) : (e.raise x).phase = e.phase := rfl
@[simp] theorem EncState.raise_err (e : EncState) (x : ErrKind) : (e.raise x).err = some x := rfl
@[simp] theorem EncState.raise_shift (e : EncState) (x : ErrKind) : (e.raise x).shift = e.shift := rfl
@[simp] theorem EncState.raise_row (e : EncState) (x : ErrKind) : (e.raise x).row = e.row := rfl
@[simp] theorem EncState.raise_col (e : EncState) (x : ErrKind) : (e.raise x).col = e.col := rfl
@[simp] theorem EncState.raise_cnt (e : EncState) (x : ErrKind) : (e.raise x).cnt = e.cnt := rfl
@[simp] theorem EncState.raise_osLen (e : EncState) (x : ErrKind) : (e.raise x).osLen = e.osLen := rfl
@[simp] theorem EncState.raise_osOpen (e : EncState) (x : ErrKind) : (e.raise x).osOpen = false := rfl
@[simp] theorem EncState.raise_em (e : EncState) (x : ErrKind) : (e.raise x).em = e.em := rfl
@[simp] theorem EncState.raise_os (e : EncState) (x : ErrKind) : (e.raise x).os = e.os := rfl

/-! #### `EncState.append` -/

@[simp] theorem EncState.append_h (e : EncState) (bs : List Byte) : (e.append bs).h = e.h := rfl
@[simp] theorem EncState.append_w (e : EncState) (bs : List Byte) : (e.append bs).w = e.w := rfl
@[simp] theorem EncState.append_gray (e : EncState) (bs : List Byte) : (e.append bs).gray = e.gray := rfl
@[simp] theorem EncState.append_st (e : EncState) (bs : List Byte) : (e.append bs).st = e.st := rfl
@[simp] theorem EncState.append_phase (e : EncState) (bs : List Byte) : (e.append bs).phase = e.phase := rfl
@[simp] theorem EncState.append_err (e : EncState) (bs : List Byte) : (e.append bs).err = e.err := rfl
@[simp] theorem EncState.append_shift (e : EncState) (bs : List Byte) : (e.append bs).shift = e.shift := rfl
@[simp] theorem EncState.append_row (e : EncState) (bs : List Byte) : (e.append bs).row = e.row := rfl
@[simp] theorem EncState.append_col (e : EncState) (bs : List Byte) : (e.append bs).col = e.col := rfl
@[simp] theorem EncState.append_cnt (e : EncState) (bs : List Byte) : (e.append bs).cnt = e.cnt := rfl
@[simp] theorem EncState.append_osLen (e : EncState) (bs : List Byte) : (e.append bs).osLen = e.osLen + BitVec.ofNat 40 bs.length := rfl
@[simp] theorem EncState.append_osOpen (e : EncState) (bs : List Byte) : (e.append bs).osOpen = e.osOpen := rfl
@[simp] theorem EncState.append_em (e : EncState) (bs : List Byte) : (e.append bs).em = e.em := rfl
@[simp] theorem EncState.append_os (e : EncState) (bs : List Byte) : (e.append bs).os = Memory.putBytes e.os e.osLen bs := rfl

/-! #### `EncState.advance` -/

@[simp] theorem EncState.advance_h (e : EncState) : (e.advance).h = e.h := rfl
@[simp] theorem EncState.advance_w (e : EncState) : (e.advance).w = e.w := rfl
@[simp] theorem EncState.advance_gray (e : EncState) : (e.advance).gray = e.gray := rfl
@[simp] theorem EncState.advance_st (e : EncState) : (e.advance).st = if e.cnt.toNat + 1 = e.h.toNat * e.w.toNat then .done else e.st := rfl
@[simp] theorem EncState.advance_phase (e : EncState) : (e.advance).phase = e.phase := rfl
@[simp] theorem EncState.advance_err (e : EncState) : (e.advance).err = e.err := rfl
@[simp] theorem EncState.advance_shift (e : EncState) : (e.advance).shift = e.shift := rfl
@[simp] theorem EncState.advance_row (e : EncState) : (e.advance).row = (nextCursor e.w e.row e.col).1 := rfl
@[simp] theorem EncState.advance_col (e : EncState) : (e.advance).col = (nextCursor e.w e.row e.col).2 := rfl
@[simp] theorem EncState.advance_cnt (e : EncState) : (e.advance).cnt = e.cnt + 1 := rfl
@[simp] theorem EncState.advance_osLen (e : EncState) : (e.advance).osLen = e.osLen := rfl
@[simp] theorem EncState.advance_osOpen (e : EncState) : (e.advance).osOpen = if e.cnt.toNat + 1 = e.h.toNat * e.w.toNat then false else e.osOpen := rfl
@[simp] theorem EncState.advance_em (e : EncState) : (e.advance).em = e.em := rfl
@[simp] theorem EncState.advance_os (e : EncState) : (e.advance).os = e.os := rfl

/-! #### `DecState.raise` -/

@[simp] theorem DecState.raise_st (d : DecState) (x : ErrKind) (p : Pos) : (d.raise x p).st = .error := rfl
@[simp] theorem DecState.raise_phase (d : DecState) (x : ErrKind) (p : Pos) : (d.raise x p).phase = d.phase := rfl
@[simp] theorem DecState.raise_err (d : DecState) (x : ErrKind) (p : Pos) : (d.raise x p).err = some x := rfl
@[simp] theorem DecState.raise_errPos (d : DecState) (x : ErrKind) (p : Pos) : (d.raise x p).errPos = p := rfl
@[simp] theorem DecState.raise_h (d : DecState) (x : ErrKind) (p : Pos) : (d.raise x p).h = d.h := rfl
@[simp] theorem DecState.raise_w (d : DecState) (x : ErrKind) (p : Pos) : (d.raise x p).w = d.w := rfl
@[simp] theorem DecState.raise_shift (d : DecState) (x : ErrKind) (p : Pos) : (d.raise x p).shift = d.shift := rfl
@[simp] theorem DecState.raise_gray (d : DecState) (x : ErrKind) (p : Pos) : (d.raise x p).gray = d.gray := rfl
@[simp] theorem DecState.raise_row (d : DecState) (x : ErrKind) (p : Pos) : (d.raise x p).row = d.row := rfl
@[simp] theorem DecState.raise_col (d : DecState) (x : ErrKind) (p : Pos) : (d.raise x p).col = d.col := rfl
@[simp] theorem DecState.raise_cnt (d : DecState) (x : ErrKind) (p : Pos) : (d.raise x p).cnt = d.cnt := rfl
@[simp] theorem DecState.raise_sp (d : DecState) (x : ErrKind) (p : Pos) : (d.raise x p).sp = d.sp := rfl
@[simp] theorem DecState.raise_isLen (d : DecState) (x : ErrKind) (p : Pos) : (d.raise x p).isLen = d.isLen := rfl
@[simp] theorem DecState.raise_isOpen (d : DecState) (x : ErrKind) (p : Pos) : (d.raise x p).isOpen = false := rfl
@[simp] theorem DecState.raise_dmValid (d : DecState) (x : ErrKind) (p : Pos) : (d.raise x p).dmValid = false := rfl
@[simp] theorem DecState.raise_inp (d : DecState) (x : ErrKind) (p : Pos) : (d.raise x p).inp = d.inp := rfl
@[simp] theorem DecState.raise_dm (d : DecState) (x : ErrKind) (p : Pos) : (d.raise x p).dm = d.dm := rfl

/-! #### `DecState.latch` -/

@[simp] theorem DecState.latch_st (d : DecState) (h w : Dim) (k g : Byte) : (d.latch h w k g).st = d.st := rfl
@[simp] theorem DecState.latch_phase (d : DecState) (h w : Dim) (k g : Byte) : (d.latch h w k g).phase = .entries := rfl
@[simp] theorem DecState.latch_err (d : DecState) (h w : Dim) (k g : Byte) : (d.latch h w k g).err = d.err := rfl
@[simp] theorem DecState.latch_errPos (d : DecState) (h w : Dim) (k g : Byte) : (d.latch h w k g).errPos = d.errPos := rfl
@[simp] theorem DecState.latch_h (d : DecState) (h w : Dim) (k g : Byte) : (d.latch h w k g).h = h := rfl
@[simp] theorem DecState.latch_w (d : DecState) (h w : Dim) (k g : Byte) : (d.latch h w k g).w = w := rfl
@[simp] theorem DecState.latch_shift (d : DecState) (h w : Dim) (k g : Byte) : (d.latch h w k g).shift = k := rfl
@[simp] theorem DecState.latch_gray (d : DecState) (h w : Dim) (k g : Byte) : (d.latch h w k g).gray = g.getLsbD 0 := rfl
@[simp] theorem DecState.latch_row (d : DecState) (h w : Dim) (k g : Byte) : (d.latch h w k g).row = d.row := rfl
@[simp] theorem DecState.latch_col (d : DecState) (h w : Dim) (k g : Byte) : (d.latch h w k g).col = d.col := rfl
@[simp] theorem DecState.latch_cnt (d : DecState) (h w : Dim) (k g : Byte) : (d.latch h w k g).cnt = d.cnt := rfl
@[simp] theorem DecState.latch_sp (d : DecState) (h w : Dim) (k g : Byte) : (d.latch h w k g).sp = 6 := rfl
@[simp] theorem DecState.latch_isLen (d : DecState) (h w : Dim) (k g : Byte) : (d.latch h w k g).isLen = d.isLen := rfl
@[simp] theorem DecState.latch_isOpen (d : DecState) (h w : Dim) (k g : Byte) : (d.latch h w k g).isOpen = d.isOpen := rfl
@[simp] theorem DecState.latch_dmValid (d : DecState) (h w : Dim) (k g : Byte) : (d.latch h w k g).dmValid = d.dmValid := rfl
@[simp] theorem DecState.latch_inp (d : DecState) (h w : Dim) (k g : Byte) : (d.latch h w k g).inp = d.inp := rfl
@[simp] theorem DecState.latch_dm (d : DecState) (h w : Dim) (k g : Byte) : (d.latch h w k g).dm = d.dm.filter (fun c => !inShape h.toNat w.toNat (g.getLsbD 0) c.1) := rfl

/-! #### `DecState.consume` -/

@[simp] theorem DecState.consume_st (d : DecState) (len : Nat) (vals : List (Nat × Payload)) : (d.consume len vals).st = d.st := rfl
@[simp] theorem DecState.consume_phase (d : DecState) (len : Nat) (vals : List (Nat × Payload)) : (d.consume len vals).phase = d.phase := rfl
@[simp] theorem DecState.consume_err (d : DecState) (len : Nat) (vals : List (Nat × Payload)) : (d.consume len vals).err = d.err := rfl
@[simp] theorem DecState.consume_errPos (d : DecState) (len : Nat) (vals : List (Nat × Payload)) : (d.consume len vals).errPos = d.errPos := rfl
@[simp] theorem DecState.consume_h (d : DecState) (len : Nat) (vals : List (Nat × Payload)) : (d.consume len vals).h = d.h := rfl
@[simp] theorem DecState.consume_w (d : DecState) (len : Nat) (vals : List (Nat × Payload)) : (d.consume len vals).w = d.w := rfl
@[simp] theorem DecState.consume_shift (d : DecState) (len : Nat) (vals : List (Nat × Payload)) : (d.consume len vals).shift = d.shift := rfl
@[simp] theorem DecState.consume_gray (d : DecState) (len : Nat) (vals : List (Nat × Payload)) : (d.consume len vals).gray = d.gray := rfl
@[simp] theorem DecState.consume_row (d : DecState) (len : Nat) (vals : List (Nat × Payload)) : (d.consume len vals).row = (nextCursor d.w d.row d.col).1 := rfl
@[simp] theorem DecState.consume_col (d : DecState) (len : Nat) (vals : List (Nat × Payload)) : (d.consume len vals).col = (nextCursor d.w d.row d.col).2 := rfl
@[simp] theorem DecState.consume_cnt (d : DecState) (len : Nat) (vals : List (Nat × Payload)) : (d.consume len vals).cnt = d.cnt + 1 := rfl
@[simp] theorem DecState.consume_sp (d : DecState) (len : Nat) (vals : List (Nat × Payload)) : (d.consume len vals).sp = d.sp + BitVec.ofNat 40 len := rfl
@[simp] theorem DecState.consume_isLen (d : DecState) (len : Nat) (vals : List (Nat × Payload)) : (d.consume len vals).isLen = d.isLen := rfl
@[simp] theorem DecState.consume_isOpen (d : DecState) (len : Nat) (vals : List (Nat × Payload)) : (d.consume len vals).isOpen = d.isOpen := rfl
@[simp] theorem DecState.consume_dmValid (d : DecState) (len : Nat) (vals : List (Nat × Payload)) : (d.consume len vals).dmValid = d.dmValid := rfl
@[simp] theorem DecState.consume_inp (d : DecState) (len : Nat) (vals : List (Nat × Payload)) : (d.consume len vals).inp = d.inp := rfl
@[simp] theorem DecState.consume_dm (d : DecState) (len : Nat) (vals : List (Nat × Payload)) : (d.consume len vals).dm = storeVals d.row d.col d.shift vals d.dm := rfl

/-! #### `DecState.finish` -/

@[simp] theorem DecState.finish_st (d : DecState) : (d.finish).st = .done := rfl
@[simp] theorem DecState.finish_phase (d : DecState) : (d.finish).phase = d.phase := rfl
@[simp] theorem DecState.finish_err (d : DecState) : (d.finish).err = d.err := rfl
@[simp] theorem DecState.finish_errPos (d : DecState) : (d.finish).errPos = d.errPos := rfl
@[simp] theorem DecState.finish_h (d : DecState) : (d.finish).h = d.h := rfl
@[simp] theorem DecState.finish_w (d : DecState) : (d.finish).w = d.w := rfl
@[simp] theorem DecState.finish_shift (d : DecState) : (d.finish).shift = d.shift := rfl
@[simp] theorem DecState.finish_gray (d : DecState) : (d.finish).gray = d.gray := rfl
@[simp] theorem DecState.finish_row (d : DecState) : (d.finish).row = d.row := rfl
@[simp] theorem DecState.finish_col (d : DecState) : (d.finish).col = d.col := rfl
@[simp] theorem DecState.finish_cnt (d : DecState) : (d.finish).cnt = d.cnt := rfl
@[simp] theorem DecState.finish_sp (d : DecState) : (d.finish).sp = d.sp := rfl
@[simp] theorem DecState.finish_isLen (d : DecState) : (d.finish).isLen = d.isLen := rfl
@[simp] theorem DecState.finish_isOpen (d : DecState) : (d.finish).isOpen = false := rfl
@[simp] theorem DecState.finish_dmValid (d : DecState) : (d.finish).dmValid = true := rfl
@[simp] theorem DecState.finish_inp (d : DecState) : (d.finish).inp = d.inp := rfl
@[simp] theorem DecState.finish_dm (d : DecState) : (d.finish).dm = d.dm := rfl

/-! #### `State.answer` -/

@[simp] theorem State.answer_params (s : State) (v : HostData) : (s.answer v).params = s.params := rfl
@[simp] theorem State.answer_enc (s : State) (v : HostData) : (s.answer v).enc = s.enc := rfl
@[simp] theorem State.answer_dec (s : State) (v : HostData) : (s.answer v).dec = s.dec := rfl
@[simp] theorem State.answer_free (s : State) (v : HostData) : (s.answer v).free = s.free := rfl
@[simp] theorem State.answer_pending (s : State) (v : HostData) : (s.answer v).host.pending = s.host.pending := rfl
@[simp] theorem State.answer_rdata (s : State) (v : HostData) : (s.answer v).host.rdata = v := rfl

/-! #### `State.answerFree` -/

@[simp] theorem State.answerFree_params (s : State) (v : HostData) : (s.answerFree v).params = s.params := rfl
@[simp] theorem State.answerFree_enc (s : State) (v : HostData) : (s.answerFree v).enc = s.enc := rfl
@[simp] theorem State.answerFree_dec (s : State) (v : HostData) : (s.answerFree v).dec = s.dec := rfl
@[simp] theorem State.answerFree_free (s : State) (v : HostData) : (s.answerFree v).free = s.free + 1 := rfl
@[simp] theorem State.answerFree_pending (s : State) (v : HostData) : (s.answerFree v).host.pending = s.host.pending := rfl
@[simp] theorem State.answerFree_rdata (s : State) (v : HostData) : (s.answerFree v).host.rdata = v := rfl

/-! #### `applyReset` -/

@[simp] theorem applyReset_params (s : State) : (applyReset s).params = s.params := rfl
@[simp] theorem applyReset_enc (s : State) : (applyReset s).enc = EncState.initial := rfl
@[simp] theorem applyReset_dec (s : State) : (applyReset s).dec = DecState.initial := rfl
@[simp] theorem applyReset_host (s : State) : (applyReset s).host = s.host := rfl
@[simp] theorem applyReset_free (s : State) : (applyReset s).free = s.free := rfl

/-! #### The START steps -/

theorem EncState.start_of_busy {e : EncState} (h : e.st = .busy) : e.start = e := by simp [EncState.start, h]

theorem EncState.start_of_not_busy {e : EncState} (h : e.st ≠ .busy) :
    e.start = { e with st := .busy, phase := .scale, err := none, shift := 0, row := 0, col := 0, cnt := 0, osLen := 0,
                       osOpen := true } := by
  simp [EncState.start, h]

theorem DecState.start_of_busy {d : DecState} (h : d.st = .busy) : d.start = d := by simp [DecState.start, h]

theorem DecState.start_of_not_busy {d : DecState} (h : d.st ≠ .busy) :
    d.start = { d with st := .busy, phase := .header, err := none, errPos := 0, h := 0, w := 0, shift := 0, gray := false,
                       row := 0, col := 0, cnt := 0, sp := 0, dmValid := false, isOpen := true } := by
  simp [DecState.start, h]

/-! #### The stores of host accesses: STATE stays -/

@[simp] theorem EncState.setDim_st (e : EncState) (v : RegWord) : (e.setDim v).st = e.st := by
  unfold EncState.setDim; split <;> rfl
@[simp] theorem EncState.setWord_st (p : Params) (e : EncState) (v : Int) (row col : Dim) (ch : BitVec 2) :
    (e.setWord p v row col ch).st = e.st := by
  unfold EncState.setWord; split <;> rfl
@[simp] theorem DecState.setLen_st (d : DecState) (v : RegWord) : (d.setLen v).st = d.st := by
  unfold DecState.setLen; split <;> rfl
@[simp] theorem DecState.setByte_st (d : DecState) (v : RegWord) (a : Pos) : (d.setByte v a).st = d.st := by
  unfold DecState.setByte; split <;> rfl

end Sys2Proof.Machine
end

