-- ==== Sys2Proof/Laws/Ops.lean ====
section
/-! SUPPORT. What each shared operation can do, said once: spans of bytes, the walk over EM, appends, the error step, the stores of a record, the raster
cursor, the choice of an agent. -/

namespace Sys2Proof.Machine

/-! ### Memories -/

/-- A read answers from a listed cell. -/
theorem Memory.mem_of_get {α} {m : List (Nat × α)} {a v} (h : Memory.get m a = some v) : (a, v) ∈ m := by
  induction m with
  | nil => simp [Memory.get] at h
  | cons c l ih =>
    obtain ⟨b, u⟩ := c
    simp only [Memory.get] at h
    split at h
    · rename_i hab; cases h; subst hab; simp
    · exact List.mem_cons_of_mem _ (ih h)

/-- The address a span fails at holds no byte. -/
theorem Memory.getBytes_error_get {m : List Host.Cell} {b : Nat} : ∀ {n a : Nat}, Memory.getBytes m a n = .error b → Memory.get m b = none := by
  intro n
  induction n with
  | zero => intro a h; cases h
  | succ n ih =>
    intro a h
    simp only [Memory.getBytes] at h
    split at h
    · cases h; assumption
    · split at h
      · cases h; rename_i hc; exact ih hc
      · cases h

/-- A span with an unwritten byte does not read, and names an unwritten byte. -/
theorem Memory.getBytes_err {m : List Host.Cell} {n a : Nat} : ∀ {i}, i < n → Memory.get m (a + i) = none →
    ∃ b, Memory.get m b = none ∧ Memory.getBytes m a n = .error b := by
  intro i hi h
  cases hg : Memory.getBytes m a n with
  | error b => exact ⟨b, Memory.getBytes_error_get hg, rfl⟩
  | ok bs =>
    have := (Memory.getBytes_ok_iff m n a bs).mp hg
    have h2 := this.2 i hi
    rw [h, List.getElem?_eq_getElem (by omega)] at h2
    cases h2

/-- DM after a zero fill (R188). -/
theorem Memory.getDm_filter (dm : List (Nat × DmWord)) (p : Nat → Bool) (a : Nat) : Memory.getDm (dm.filter (fun c => p c.1)) a = if p a then Memory.getDm dm a else 0 := by
  unfold Memory.getDm
  rw [Memory.get_filter]; split <;> simp

/-- `inShape` on an address of the matrix. -/
theorem inShape_word {h w : Nat} {g : Bool} {r c ch : Nat} (hc : c < 65536) (hch : ch < 4) : inShape h w g (wordAddr r c ch) = true ↔ r < h ∧ c < w ∧ ch < channels g := by
  unfold inShape wordAddr; rw [Bool.and_eq_true, Bool.and_eq_true, decide_eq_true_iff, decide_eq_true_iff, decide_eq_true_iff]
  have h1 : (r * 2 ^ 18 + c * 4 + ch) / 2 ^ 18 = r := by omega
  have h2 : (r * 2 ^ 18 + c * 4 + ch) / 4 % 2 ^ 16 = c := by omega
  have h3 : (r * 2 ^ 18 + c * 4 + ch) % 4 = ch := by omega
  rw [h1, h2, h3]; tauto

/-- What storing the present channels of an entry does to DM (R189). -/
theorem storeVals_get (row col : Dim) (k : Shift) (vals : List (Nat × Payload)) : ∀ (dm : List (Nat × DmWord)),
   (vals.map Prod.fst).Nodup → 
   (∀ ch q, (ch, q) ∈ vals → Memory.getDm (storeVals row col k vals dm) (wordAddr row.toNat col.toNat ch) = dequant k q) ∧
   (∀ a, (∀ ch q, (ch, q) ∈ vals → a ≠ wordAddr row.toNat col.toNat ch) → Memory.getDm (storeVals row col k vals dm) a = Memory.getDm dm a) := by
  induction vals with
  | nil => intro dm _; simp [storeVals]
  | cons c rest ih =>
    obtain ⟨ch, q⟩ := c
    intro dm hn
    simp only [List.map_cons, List.nodup_cons] at hn
    have := ih (Memory.putDm dm (wordAddr row.toNat col.toNat ch) (dequant k q)) hn.2
    constructor
    · intro ch' q' hm
      simp only [List.mem_cons] at hm
      simp only [storeVals]
      rcases hm with hm | hm
      · cases hm
        rw [this.2]
        · simp [Memory.getDm_putDm]
        · intro ch2 q2 h2 he
          apply hn.1
          have : ch = ch2 := by simp [wordAddr] at he; omega
          rw [this]; exact List.mem_map.mpr ⟨_, h2, rfl⟩
      · exact this.1 _ _ hm
    · intro a ha
      simp only [storeVals]
      rw [this.2 a (fun c q h => ha c q (List.mem_cons_of_mem _ h)), Memory.getDm_putDm, if_neg (ha ch q (List.mem_cons_self ..))]

/-- A span read in two parts. -/
theorem Memory.getBytes_add (m : List Host.Cell) (n k : Nat) : ∀ a, Memory.getBytes m a (n + k) =
    match Memory.getBytes m a n with
    | .error b => .error b
    | .ok bs => match Memory.getBytes m (a + n) k with
      | .error b => .error b
      | .ok cs => .ok (bs ++ cs) := by
  induction n with
  | zero => intro a; simp only [Nat.zero_add, Memory.getBytes, Nat.add_zero]; cases Memory.getBytes m a k <;> simp
  | succ n ih =>
    intro a
    rw [show n + 1 + k = (n + k) + 1 by omega]
    simp only [Memory.getBytes]
    cases Memory.get m a with
    | none => rfl
    | some b =>
      simp only [ih (a + 1)]
      cases Memory.getBytes m (a + 1) n with
      | error b => rfl
      | ok bs =>
        simp only [show a + 1 + n = a + (n + 1) by omega]
        cases Memory.getBytes m (a + (n + 1)) k <;> simp

/-- The address of a matrix word as the host presents it (R61). -/
theorem storeAddr_toNat (row col : Dim) (ch : BitVec 2) : (storeAddr row col ch).toNat = wordAddr row.toNat col.toNat ch.toNat := by
  simp only [storeAddr, app_toNat, wordAddr]; omega

/-! ### The walk over EM (R122) -/

/-- `maxMag` over written words is their largest magnitude. -/
theorem maxMag_ok {p : Params} {em : List (Nat × Nat)} : ∀ (l : List Nat), (∀ a ∈ l, (Memory.get em a).isSome = true) →
    ∃ m, maxMag p em l = .ok m ∧ (∀ a ∈ l, ∀ u, Memory.get em a = some u → rawmag (sextBits p.coefW u) ≤ m) ∧
      ((m = 0 ∧ l = []) ∨ ∃ a ∈ l, ∃ u, Memory.get em a = some u ∧ rawmag (sextBits p.coefW u) = m) := by
  intro l
  induction l with
  | nil => intro _; exact ⟨0, rfl, by simp, .inl ⟨rfl, rfl⟩⟩
  | cons a l ih =>
    intro h
    obtain ⟨m, hm, hb, ha⟩ := ih (fun b hb => h b (List.mem_cons_of_mem _ hb))
    have h1 := h a (List.mem_cons_self ..)
    rw [Option.isSome_iff_exists] at h1
    obtain ⟨u, hu⟩ := h1
    refine ⟨_, by simp only [maxMag, hu, hm]; rfl, ?_, ?_⟩
    · intro b hb' u' hu'
      rcases List.mem_cons.mp hb' with rfl | hb'
      · rw [hu] at hu'; cases hu'; exact le_max_left _ _
      · exact le_trans (hb b hb' u' hu') (le_max_right _ _)
    · right
      rcases le_total (rawmag (sextBits p.coefW u)) m with hle | hle
      · rcases ha with ⟨rfl, rfl⟩ | ⟨b, hbm, u', hu', hr⟩
        · exact ⟨a, by simp, u, hu, by omega⟩
        · exact ⟨b, List.mem_cons_of_mem _ hbm, u', hu', by rw [max_eq_right hle]; exact hr⟩
      · exact ⟨a, by simp, u, hu, (max_eq_left hle).symm⟩

/-- `maxMag` over a word never written names one. -/
theorem maxMag_none {p : Params} {em : List (Nat × Nat)} : ∀ (l : List Nat), (∃ a ∈ l, Memory.get em a = none) →
    ∃ a, Memory.get em a = none ∧ maxMag p em l = .error a := by
  intro l
  induction l with
  | nil => rintro ⟨a, h, _⟩; simp at h
  | cons b l ih =>
    rintro ⟨a, h, hn⟩
    cases hb : Memory.get em b with
    | none => exact ⟨b, hb, by simp [maxMag, hb]⟩
    | some u =>
      rcases List.mem_cons.mp h with rfl | h
      · rw [hb] at hn; cases hn
      · obtain ⟨c, hn', hc⟩ := ih ⟨a, h, hn⟩
        exact ⟨c, hn', by simp [maxMag, hb, hc]⟩

/-- The addresses of a shape. -/
theorem mem_shape {h w gray a} : a ∈ shapeAddrs h w gray ↔ ∃ r c ch, r < h ∧ c < w ∧ ch < channels gray ∧ a = wordAddr r c ch := by
  simp only [shapeAddrs, List.mem_flatMap, List.mem_map, List.mem_range]
  constructor
  · rintro ⟨r, hr, c, hc, ch, hch, rfl⟩; exact ⟨r, c, ch, hr, hc, hch, rfl⟩
  · rintro ⟨r, c, ch, hr, hc, hch, rfl⟩; exact ⟨r, hr, c, hc, ch, hch, rfl⟩

/-- The magnitude of a loaded matrix. -/
theorem magnitude_ok {p e} (h : EncState.loaded e) : ∃ m, magnitude p e = .ok m ∧
   (∀ r c ch u, r < e.h.toNat → c < e.w.toNat → ch < channels e.gray →
        Memory.get e.em (wordAddr r c ch) = some u → rawmag (sextBits p.coefW u) ≤ m) ∧
      ((m = 0 ∧ e.h.toNat * e.w.toNat = 0) ∨
        ∃ r c ch u, r < e.h.toNat ∧ c < e.w.toNat ∧ ch < channels e.gray ∧
          Memory.get e.em (wordAddr r c ch) = some u ∧ rawmag (sextBits p.coefW u) = m) := by
  obtain ⟨m, h1, h2, h3⟩ := maxMag_ok (p := p) (em := e.em) (shapeAddrs e.h.toNat e.w.toNat e.gray) (by
    intro a ha; obtain ⟨r, c, ch, hr, hc, hch, rfl⟩ := mem_shape.mp ha; exact h r c ch hr hc hch)
  refine ⟨m, h1, ?_, ?_⟩
  · intro r c ch u hr hc hch hu
    exact h2 _ (mem_shape.mpr ⟨r, c, ch, hr, hc, hch, rfl⟩) u hu
  · rcases h3 with ⟨rfl, he⟩ | ⟨a, ha, u, hu, hr⟩
    · left; refine ⟨rfl, ?_⟩
      by_contra hne
      have hp : 0 < e.h.toNat * e.w.toNat := Nat.pos_of_ne_zero hne
      have h0 : 0 < e.h.toNat := Nat.pos_of_mul_pos_right hp
      have h1 : 0 < e.w.toNat := Nat.pos_of_mul_pos_left hp
      have : wordAddr 0 0 0 ∈ shapeAddrs e.h.toNat e.w.toNat e.gray :=
        mem_shape.mpr ⟨0, 0, 0, h0, h1, by cases e.gray <;> simp [channels], rfl⟩
      rw [he] at this; simp at this
    · right
      obtain ⟨r, c, ch, h1, h2, h4, rfl⟩ := mem_shape.mp ha
      exact ⟨r, c, ch, u, h1, h2, h4, hu, hr⟩

/-- The magnitude of an `n`-bit word. -/
theorem rawmag_bound {n u : Nat} (hn : 0 < n) (hu : u < 2 ^ n) : rawmag (sextBits n u) ≤ 2 ^ (n - 1) := by
  have : 2 ^ n = 2 * 2 ^ (n - 1) := by rw [← Nat.pow_succ']; congr 1; omega
  have hz : (2 ^ n : Int) = 2 * 2 ^ (n-1) := by exact_mod_cast this
  have hpz : ((2 ^ (n-1) : Nat) : Int) = 2 ^ (n-1) := by push_cast; rfl
  unfold rawmag sextBits
  split <;> omega

/-! ### Arithmetic -/

/-- `asr` is a floor. -/
theorem asr_bounds (a : Int) (n : Nat) : asr a n * 2 ^ n ≤ a ∧ a < (asr a n + 1) * 2 ^ n := by
  have h : (0:Int) < 2 ^ n := by positivity
  unfold asr
  constructor
  · exact Int.ediv_mul_le _ (ne_of_gt h)
  · exact Int.lt_ediv_add_one_mul_self a h

/-- A payload that fits is not changed by narrowing. -/
theorem ofInt_toInt32 {q : Int} (h : fitsPayload q = true) : (BitVec.ofInt 32 q).toInt = q := by
  simp [fitsPayload] at h
  rw [BitVec.toInt_ofInt]
  apply Int.bmod_eq_of_le <;> norm_num <;> omega

theorem iszero_iff (c : Int) : iszero c = true ↔ c = 0 := by simp [iszero]

theorem iszero_ne {c : Int} (h : c ≠ 0) : iszero c = false := by simp [iszero, h]

/-! ### ENC: the append and the entry step -/

/-- An append (R68). -/
theorem append_appended {e : EncState} {bs : List Byte} (h : e.osLen.toNat + bs.length < 2 ^ 40) : Appended e (e.append bs) bs := by
  refine ⟨?_, ?_, ?_⟩
  · simp [BitVec.toNat_add]; omega
  · intro i hi; exact Memory.get_putBytes_inside _ _ _ _ (by omega) hi
  · intro a ha; exact Memory.get_putBytes_outside _ _ _ _ (by omega) ha

/-- The append and the advance of an ENTRY step (R174, R175). -/
theorem advance_emitted {e : EncState} {bs : List Byte} (h : e.osLen.toNat + bs.length < 2 ^ 40) : EmittedEntry e ((e.append bs).advance) bs := by
  have hA := append_appended h
  refine ⟨?_, ?_⟩
  · exact hA
  · simp [SameEncInputs, nextCursor]
    refine ⟨?_, ?_, ?_⟩
    · intro h; simp [h]
    · intro h; simp [h]
    · refine ⟨fun h => by simp [h], fun h => by simp [h]⟩

/-- OS_LEN stays far below its width (R28). -/
theorem osLen_bound {p e} (h : EncInv p e) (hin : e.inEntries = true) : e.osLen.toNat < 2 ^ 40 - 100 := by
  simp [EncState.inEntries] at hin
  have := h.2.2.2.2.1 hin.1 hin.2
  have := e.cnt.isLt
  omega

/-- The mode of the pixel at the cursor. -/
theorem gray_of_pixel {p e c} (hp : pixelAt p e = .ok (.gray c)) : e.gray = true := by
  unfold pixelAt at hp
  split at hp
  · cases hp
  · split at hp
    · assumption
    · split at hp
      · cases hp
      · split at hp <;> cases hp

/-- The mode of the pixel at the cursor. -/
theorem colour_of_pixel {p e r g b} (hp : pixelAt p e = .ok (.colour r g b)) : e.gray = false := by
  unfold pixelAt at hp
  split at hp
  · cases hp
  · split at hp
    · cases hp
    · simpa using ‹¬ e.gray = true›

/-- The pixel at the cursor cannot be read at its first channel never written. -/
theorem pixelAt_none {p : Params} {e : EncState} {ch : Nat} (hch : ch < channels e.gray)
    (hn : Memory.get e.em (wordAddr e.row.toNat e.col.toNat ch) = none)
    (hb : ∀ c, c < ch → (Memory.get e.em (wordAddr e.row.toNat e.col.toNat c)).isSome = true) :
    pixelAt p e = .error (wordAddr e.row.toNat e.col.toNat ch) := by
  have written : ∀ c, c < ch → ∃ u, emWord p e e.row.toNat e.col.toNat c = .ok u := fun c hc => by
    obtain ⟨u, hu⟩ := Option.isSome_iff_exists.mp (hb c hc)
    exact ⟨_, by rw [emWord, hu]⟩
  have unwritten : emWord p e e.row.toNat e.col.toNat ch = .error (wordAddr e.row.toNat e.col.toNat ch) := by rw [emWord, hn]
  cases hg : e.gray <;> simp only [channels, hg, if_true, Bool.false_eq_true, if_false] at hch
  · obtain rfl | rfl | rfl : ch = 0 ∨ ch = 1 ∨ ch = 2 := by omega
    · simp [pixelAt, unwritten]
    · obtain ⟨u, hu⟩ := written 0 (by omega)
      simp [pixelAt, unwritten, hu, hg]
    · obtain ⟨u, hu⟩ := written 0 (by omega)
      obtain ⟨v, hv⟩ := written 1 (by omega)
      simp [pixelAt, unwritten, hu, hv, hg]
  · obtain rfl : ch = 0 := by omega
    simp [pixelAt, unwritten]

/-- The length of a form. -/
theorem formRecord_len {frac k flag cs bs} (h : formRecord frac k flag cs = some bs) : bs.length = 1 + 4 * cs.length := by
  have Q : ∀ cs bs, quantAll frac k cs = some bs → bs.length = 4 * cs.length := by
    intro cs
    induction cs with
    | nil => intro bs h; simp [quantAll] at h; subst h; rfl
    | cons c cs ih =>
      intro bs h
      simp only [quantAll] at h
      split at h
      · cases h
      · split at h
        · cases h
        · cases h; rename_i h; simp [ih _ h, bytesLe32]; omega
  unfold formRecord at h
  split at h
  · cases h
  · cases h; rename_i h; simp [Q _ _ h]; omega

/-- The raster cursor and the counter move together (R175, R191). -/
theorem cursor_step {h w row col : Dim} {cnt : Count} (h1 : cnt.toNat = row.toNat * w.toNat + col.toNat) (h2 : col.toNat < w.toNat)
   (h3 : cnt.toNat < h.toNat * w.toNat) : 
   (cnt + 1).toNat = cnt.toNat + 1 ∧ (cnt + 1).toNat = (nextCursor w row col).1.toNat * w.toNat + (nextCursor w row col).2.toNat ∧ (nextCursor w row col).2.toNat < w.toNat := by
  have a := h.isLt; have b := w.isLt
  have hw : h.toNat * w.toNat ≤ 65535 * 65535 := Nat.mul_le_mul (by omega) (by omega)
  have c1 : (cnt + 1).toNat = cnt.toNat + 1 := by rw [BitVec.toNat_add]; simp; omega
  refine ⟨c1, ?_⟩
  rw [c1]
  unfold nextCursor
  split
  · rename_i hh
    have hr : row.toNat < h.toNat := by
      by_contra hc
      have : h.toNat * w.toNat ≤ row.toNat * w.toNat := Nat.mul_le_mul_right _ (by omega)
      omega
    have hr1 : (row + 1).toNat = row.toNat + 1 := by rw [BitVec.toNat_add]; simp; omega
    simp only [hr1, Nat.add_mul]
    simp; omega
  · have : (col + 1).toNat = col.toNat + 1 := by rw [BitVec.toNat_add]; simp; omega
    simp only [this]; omega

/-! ### The error step (R222) -/

theorem raise_decRaised (d : DecState) (x p) : DecRaised d (d.raise x p) x p := by
  simp [DecRaised, SameDecInputs]

theorem raise_encRaised (d : EncState) (x) : EncRaised d (d.raise x) x := by
  simp [EncRaised, SameEncInputs]

/-! ### The choice of an agent -/

/-- `chooseAgent` answers an enabled agent, and draws at most one free value. -/
theorem chooseAgent_spec (s : State) :
    (enabledAgents s = [] ∧ chooseAgent s = (none, s)) ∨
    ∃ a n, a ∈ enabledAgents s ∧ (n = s.free ∨ n = s.free + 1) ∧ chooseAgent s = (some a, { s with free := n }) := by
  unfold chooseAgent
  split
  · left; exact ⟨by assumption, rfl⟩
  · rename_i a h; right; exact ⟨a, s.free, by simp [h], .inl rfl, rfl⟩
  · rename_i a rest hne h
    right
    refine ⟨_, s.free + 1, ?_, .inr rfl, rfl⟩
    rw [h]
    rw [List.getD_eq_getElem _ _ (Nat.mod_lt _ (by simp))]
    exact List.getElem_mem _

/-- The enabled agents. -/
theorem mem_enabled (s : State) (a : Agent) : a ∈ enabledAgents s ↔
    (a = .host ∧ s.host.pending ≠ []) ∨ (a = .enc ∧ s.enc.st = .busy) ∨ (a = .dec ∧ s.dec.st = .busy) := by
  unfold enabledAgents
  split <;> split <;> split <;> simp_all

/-- DEC alone moves. -/
theorem step_decAlone {s : State} (h : s.decAlone) (hb : s.dec.st = .busy) : step s = exec (decDispatch s.dec) s := by
  obtain ⟨hl, hp, he⟩ := h
  simp [step, hl, nextMove, chooseAgent, enabledAgents, hp, he, hb, agentMove]

/-- ENC alone moves. -/
theorem step_encAlone {s : State} (h : s.encAlone) (hb : s.enc.st = .busy) : step s = exec (encDispatch s.enc) s := by
  obtain ⟨hl, hp, he⟩ := h
  simp [step, hl, nextMove, chooseAgent, enabledAgents, hp, he, hb, agentMove]

/-! ### Records -/

/-- The meaning of an entry is the meaning of its instruction. -/
theorem exec_record (e : Entry) (s : State) : exec e.instr s = execRecord e s := by cases e <;> rfl

theorem encodeEntry_ne (e : Entry) : ∃ f bs, encodeEntry e = f :: bs := by cases e <;> exact ⟨_, _, rfl⟩

/-- A record has the length its flag byte gives (R101). -/
theorem encodeEntry_length (e : Entry) (gray : Bool) (f : Byte) (bs : List Byte) (hm : e.inMode gray = true) (h : encodeEntry e = f :: bs) :
   (encodeEntry e).length = entryLen gray f := by
  have F : ∀ hi p lo, flagPresent (flagByte hi p lo) = p := by decide +kernel
  have G : ∀ hi p (lo : BitVec 3), (flagByte hi p lo).getLsbD 2 = lo.getLsbD 2 ∧ (flagByte hi p lo).getLsbD 1 = lo.getLsbD 1 ∧ (flagByte hi p lo).getLsbD 0 = lo.getLsbD 0 := by decide +kernel
  have h2 := h
  cases e <;> cases gray <;> simp [Entry.inMode] at hm <;> simp [encodeEntry] at h2 <;> obtain ⟨rfl, h3⟩ := h2 <;> 
   simp only [encodeEntry, entryLen, F, G] <;> simp [bytesLe32]

/-- The meaning of an entry read in its mode: the entry step on its length and its present channels. -/
theorem exec_entry (e : Entry) (s : State) (hm : e.inMode s.dec.gray = true) :
   ∃ vals, (vals.map Prod.fst).Nodup ∧ exec e.instr s = .next { s with dec := decRecordStep true s.dec (encodeEntry e).length vals } := by
  cases e <;> simp [Entry.inMode] at hm <;> simp only [exec, Entry.instr, execZ, execG, execC0, execCB, execCG, execCGB, execCR, execCRB, execCRG, execCRGB, hm] <;> 
    exact ⟨_, by simp, rfl⟩

/-! ### A unit step is a function of that unit -/

theorem liftEnc_next {s t o} (h : liftEnc s o = .next t) : ∃ e, o = .next e ∧ t = { s with enc := e } := by
  cases o <;> simp [liftEnc] at h; exact ⟨_, rfl, h.symm⟩

theorem liftDec_next {s t o} (h : liftDec s o = .next t) : ∃ e, o = .next e ∧ t = { s with dec := e } := by
  cases o <;> simp [liftDec] at h; exact ⟨_, rfl, h.symm⟩

/-- Every instruction of ENC acts on ENC alone. -/
theorem enc_lens (i : Instr) (hi : runsOnEnc i = true) : ∃ F : Params → EncState → Host.Outcome EncState Fault Refusal, ∀ s, exec i s = liftEnc s (F s.params s.enc) := by
  cases i <;> simp [runsOnEnc] at hi
  case encHdr => exact ⟨fun p e => .next (encHeaderStep p e), fun s => rfl⟩
  case encZ => exact ⟨_, fun s => rfl⟩
  case encG => exact ⟨_, fun s => rfl⟩
  case encCB => exact ⟨fun p e => colourFormStep p e 9 false false true, fun s => rfl⟩
  case encCG => exact ⟨fun p e => colourFormStep p e 10 false true false, fun s => rfl⟩
  case encCGB => exact ⟨fun p e => colourFormStep p e 11 false true true, fun s => rfl⟩
  case encCR => exact ⟨fun p e => colourFormStep p e 12 true false false, fun s => rfl⟩
  case encCRB => exact ⟨fun p e => colourFormStep p e 13 true false true, fun s => rfl⟩
  case encCRG => exact ⟨fun p e => colourFormStep p e 14 true true false, fun s => rfl⟩
  case encCRGB => exact ⟨fun p e => colourFormStep p e 15 true true true, fun s => rfl⟩
  case encScale =>
    refine ⟨fun p e => if e.st = .busy ∧ e.phase = .scale then
      match magnitude p e with
      | .error a => .fault (.emUnwritten a)
      | .ok m => .next { e with shift := BitVec.ofNat 8 (scaleOf p.frac m), phase := .header } else .next e, fun s => ?_⟩
    simp only [exec, execEncScale]
    split
    · cases magnitude s.params s.enc <;> rfl
    · rfl
  case encHeader => exact ⟨fun p e => .next (encHeaderStep p e), fun s => rfl⟩
  case encEntry =>
    refine ⟨fun p e => if e.inEntries then
      match pixelAt p e with
      | .error a => .fault (.emUnwritten a)
      | .ok pix => .next (emitEntry p e (encEntry p.frac e.shift pix)) else .next e, fun s => ?_⟩
    simp only [exec, execEncEntry]
    split
    · cases pixelAt s.params s.enc <;> rfl
    · rfl
  case errorStep x p =>
    refine ⟨fun _ e => if e.st = .busy then .next (e.raise x) else .next e, fun s => ?_⟩
    cases x <;> simp [runsOnEnc] at hi <;> simp only [exec, execErrorStep] <;> split <;> rfl

/-- Every instruction of DEC acts on DEC alone. -/
theorem dec_lens (i : Instr) (hi : runsOnDec i = true) : ∃ F : DecState → Host.Outcome DecState Fault Refusal, ∀ s, exec i s = liftDec s (F s.dec) := by
  have recc : ∀ e : Entry, ∃ F : DecState → Host.Outcome DecState Fault Refusal, ∀ s, execRecord e s = liftDec s (F s.dec) := by
    intro e
    cases e <;> first | exact ⟨fun d => .next (decRecordStep true d _ _), fun s => rfl⟩ | exact ⟨fun d => .next (decRecordStep d.gray d _ _), fun s => rfl⟩ | exact ⟨fun d => .next (decRecordStep (!d.gray) d _ _), fun s => rfl⟩
  choose FR hFR using recc
  cases i <;> simp [runsOnDec] at hi
  case hdr => exact ⟨fun d => .next (decHeaderStep d _ _ _ _), fun s => rfl⟩
  case z => exact ⟨_, hFR (.z _ _)⟩
  case g => exact ⟨_, hFR (.g _ _ _)⟩
  case c0 => exact ⟨_, hFR (.c0 _)⟩
  case cB => exact ⟨_, hFR (.cB _ _)⟩
  case cG => exact ⟨_, hFR (.cG _ _)⟩
  case cGB => exact ⟨_, hFR (.cGB _ _ _)⟩
  case cR => exact ⟨_, hFR (.cR _ _)⟩
  case cRB => exact ⟨_, hFR (.cRB _ _ _)⟩
  case cRG => exact ⟨_, hFR (.cRG _ _ _)⟩
  case cRGB => exact ⟨_, hFR (.cRGB _ _ _ _)⟩
  case decHeader =>
    refine ⟨fun d => if d.st = .busy ∧ d.phase = .header then
      if d.isLen.toNat < 6 then .next (d.raise .malformedHeader 0)
      else match Memory.getBytes d.inp 0 6 with
        | .error a => .fault (.isUnwritten a)
        | .ok bs => match decodeHeader bs with
          | .ok (.hdr h w k g, _) => .next (decHeaderStep d h w k g)
          | _ => .next (d.raise .malformedHeader 0)
      else .next d, fun s => ?_⟩
    simp only [exec, execDecHeader]
    split
    · split
      · rfl
      · cases Memory.getBytes s.dec.inp 0 6 with
        | error a => rfl
        | ok bs =>
          dsimp only
          generalize decodeHeader bs = r
          rcases r with e | ⟨i, rest⟩
          · rfl
          · cases i <;> rfl
    · rfl
  case decEntry =>
    refine ⟨fun d => if d.entryReady then
      match fetchEntry d with
      | .unwritten a => .fault (.isUnwritten a)
      | .truncated => .next (d.raise .truncatedEntry d.sp)
      | .entry e => FR e d
      else .next d, fun s => ?_⟩
    simp only [exec, execDecEntry]
    split
    · cases fetchEntry s.dec <;> simp [hFR, liftDec]
    · rfl
  case decFinish =>
    refine ⟨fun d => if d.st = .busy ∧ d.phase = .entries ∧ d.sp = d.isLen ∧ d.cnt.toNat = d.total then .next d.finish else .next d, fun s => ?_⟩
    simp only [exec, execDecFinish]
    split <;> rfl
  case errorStep x p =>
    refine ⟨fun e => if e.st = .busy then .next (e.raise x p) else .next e, fun s => ?_⟩
    cases x <;> simp [runsOnDec] at hi <;> simp only [exec, execErrorStep] <;> split <;> rfl

/-! ### Runs -/

/-- A run whose first step answers a next state goes on from there. -/
theorem run_of_next (M : Host.Core) {n : Nat} {s t : M.State} (h : M.step s = .next t) : M.run (n + 1) s = M.run n t := by
  rw [Host.Core.run, h]

/-- A run whose first step is a fault ends there. -/
theorem run_of_fault (M : Host.Core) {n : Nat} {s : M.State} {f : M.Fault} (h : M.step s = .fault f) : M.run (n + 1) s = .fault f := by
  rw [Host.Core.run, h]

end Sys2Proof.Machine
end

