-- ==== Sys2Proof/Laws/PerInstr.lean ====
section
/-! SUPPORT. A law of the instructions as syntax, one lemma per constructor: the encoding of a stream record has the length the opcode table gives its
row, and every other instruction has no stream encoding (R101, R109). -/

namespace Sys2Proof.Laws.RecordLength

/-- The length in bytes of the row's record in the opcode table; 0 for the rows that are no stream record of DEC. -/
def tableLength : Instr → Nat
  | .hdr _ _ _ _ => 6
  | .z _ _ | .c0 _ => 1
  | .g _ _ _ | .cB _ _ | .cG _ _ | .cR _ _ => 5
  | .cGB _ _ _ | .cRB _ _ _ | .cRG _ _ _ => 9
  | .cRGB _ _ _ _ => 13
  | .encHdr | .encZ | .encG | .encCB | .encCG | .encCGB | .encCR | .encCRB | .encCRG | .encCRGB => 0
  | .encScale | .encHeader | .encEntry | .decHeader | .decEntry | .decFinish | .errorStep _ _ => 0
  | .encStart _ | .decStart _ | .rd _ | .wr _ _ | .emAccess _ _ _ _ | .isAccess _ _ | .rdOs _ | .rdDm _ _ _ => 0

/-- The encoding is a record of that length, or no record at all. -/
def Statement (i : Instr) : Prop :=
  match encode i with
  | .record bs => bs.length = tableLength i ∧ 0 < tableLength i
  | .access _ | .unitStep => tableLength i = 0

theorem hdr (h w : Dim) (k g : Byte) : Statement (.hdr h w k g) := ⟨rfl, Nat.succ_pos _⟩
theorem z (hi : BitVec 4) (lo : BitVec 3) : Statement (.z hi lo) := ⟨rfl, Nat.succ_pos _⟩
theorem g (hi : BitVec 4) (lo : BitVec 3) (q : Payload) : Statement (.g hi lo q) := ⟨rfl, Nat.succ_pos _⟩
theorem c0 (hi : BitVec 4) : Statement (.c0 hi) := ⟨rfl, Nat.succ_pos _⟩
theorem cB (hi : BitVec 4) (qb : Payload) : Statement (.cB hi qb) := ⟨rfl, Nat.succ_pos _⟩
theorem cG (hi : BitVec 4) (qg : Payload) : Statement (.cG hi qg) := ⟨rfl, Nat.succ_pos _⟩
theorem cGB (hi : BitVec 4) (qg qb : Payload) : Statement (.cGB hi qg qb) := ⟨rfl, Nat.succ_pos _⟩
theorem cR (hi : BitVec 4) (qr : Payload) : Statement (.cR hi qr) := ⟨rfl, Nat.succ_pos _⟩
theorem cRB (hi : BitVec 4) (qr qb : Payload) : Statement (.cRB hi qr qb) := ⟨rfl, Nat.succ_pos _⟩
theorem cRG (hi : BitVec 4) (qr qg : Payload) : Statement (.cRG hi qr qg) := ⟨rfl, Nat.succ_pos _⟩
theorem cRGB (hi : BitVec 4) (qr qg qb : Payload) : Statement (.cRGB hi qr qg qb) := ⟨rfl, Nat.succ_pos _⟩
theorem encHdr : Statement .encHdr := rfl
theorem encZ : Statement .encZ := rfl
theorem encG : Statement .encG := rfl
theorem encCB : Statement .encCB := rfl
theorem encCG : Statement .encCG := rfl
theorem encCGB : Statement .encCGB := rfl
theorem encCR : Statement .encCR := rfl
theorem encCRB : Statement .encCRB := rfl
theorem encCRG : Statement .encCRG := rfl
theorem encCRGB : Statement .encCRGB := rfl
theorem encScale : Statement .encScale := rfl
theorem encHeader : Statement .encHeader := rfl
theorem encEntry : Statement .encEntry := rfl
theorem decHeader : Statement .decHeader := rfl
theorem decEntry : Statement .decEntry := rfl
theorem decFinish : Statement .decFinish := rfl
theorem errorStep (x : ErrKind) (p : Pos) : Statement (.errorStep x p) := rfl
theorem encStart (ignored : BitVec 63) : Statement (.encStart ignored) := rfl
theorem decStart (ignored : BitVec 63) : Statement (.decStart ignored) := rfl
theorem rd (n : BitVec 4) : Statement (.rd n) := rfl
theorem wr (n : BitVec 4) (v : RegWord) : Statement (.wr n v) := rfl
theorem emAccess (op : EmOp) (row col : Dim) (ch : BitVec 2) : Statement (.emAccess op row col ch) := by cases op <;> rfl
theorem isAccess (op : IsOp) (a : Pos) : Statement (.isAccess op a) := by cases op <;> rfl
theorem rdOs (a : Pos) : Statement (.rdOs a) := rfl
theorem rdDm (row col : Dim) (ch : BitVec 2) : Statement (.rdDm row col ch) := rfl

end Sys2Proof.Laws.RecordLength
end

