-- ==== Sys2Proof/Tests/Slice0.lean ====
section
/-! SUPPORT. The model's own tests. Expected values are the spec's: the encodings of 30_encoding, the vectors of 95_test_vectors (named in each comment). A theorem
`witness_X` shows a state and operands that meet the hypotheses of the obligation `X`, at a boundary value of each clause, and where it is cheap what the step then does. -/

-- One theorem at a time: each closed evaluation by the kernel otherwise holds a thread of its own.
set_option Elab.async false

namespace Sys2Proof.Tests

open Sys2Proof.Machine

/-! ### Ill-formed terms -/

theorem test_wf_header_without_rows : (Instr.hdr 0 5 0 1).wf = false := by decide
theorem test_wf_header_without_columns : (Instr.hdr 2 0 0 1).wf = false := by decide
theorem test_wf_header_bad_layout_byte : (Instr.hdr 2 2 0 2).wf = false := by decide
theorem test_wf_start_is_no_plain_write : (Instr.wr 0 1).wf = false ∧ (Instr.wr 8 3).wf = false := by decide
theorem test_wf_error_without_position : (Instr.errorStep .malformedHeader 1).wf = false ∧ (Instr.errorStep .ioFailure 1).wf = false := by decide
theorem test_wf_accepts : (Instr.hdr 65535 1 255 1).wf = true ∧ (Instr.wr 0 2).wf = true ∧ (Instr.errorStep .truncatedEntry 7).wf = true := by decide

/-! ### Decoding: words written out from the encodings of 30_encoding (R91, R98 to R103) and 45_host_commands -/

/-- H3, H4. -/
theorem test_decode_hdr :
    decode .header [0xFF, 0xFF, 0x01, 0x00, 0x20, 0x01] = .ok (.hdr 65535 1 32 1, []) ∧
    decode .header [0x00, 0x01, 0x01, 0x02, 0xFF, 0x00] = .ok (.hdr 256 513 255 0, []) := by decide +kernel

/-- F3, F6. -/
theorem test_decode_z : decode (.entry false) [0x07] = .ok (.z 0 7, []) ∧ decode (.entry true) [0x37] = .ok (.z 3 7, []) := by
  decide +kernel

/-- F5, B2. -/
theorem test_decode_g :
    decode (.entry true) [0x0F, 0x01, 0x00, 0x00, 0x00] = .ok (.g 0 7 1, []) ∧
    decode (.entry true) [0x08, 0x18, 0xFC, 0xFF, 0xFF] = .ok (.g 0 0 (BitVec.ofInt 32 (-1000)), []) := by decide +kernel

/-- F1. -/
theorem test_decode_c0 : decode (.entry false) [0x08, 0x55] = .ok (.c0 0, [0x55]) := by decide +kernel

/-- F2. -/
theorem test_decode_cB : decode (.entry false) [0xF9, 0xFF, 0xFF, 0xFF, 0xFF] = .ok (.cB 15 (BitVec.ofInt 32 (-1)), []) := by decide +kernel

/-- D3. -/
theorem test_decode_cG : decode (.entry false) [0x0A, 0xE8, 0x03, 0x00, 0x00] = .ok (.cG 0 1000, []) := by decide +kernel

/-- D4. -/
theorem test_decode_cGB : decode (.entry false) [0x0B, 1, 0, 0, 0, 2, 0, 0, 0] = .ok (.cGB 0 1 2, []) := by decide +kernel

/-- D5. -/
theorem test_decode_cR : decode (.entry false) [0x0C, 0x00, 0x01, 0x00, 0x00] = .ok (.cR 0 256, []) := by decide +kernel

/-- D6. -/
theorem test_decode_cRB : decode (.entry false) [0x0D, 1, 0, 0, 0, 2, 0, 0, 0] = .ok (.cRB 0 1 2, []) := by decide +kernel

/-- F4. -/
theorem test_decode_cRG : decode (.entry false) [0x1E, 1, 0, 0, 0, 2, 0, 0, 0] = .ok (.cRG 1 1 2, []) := by decide +kernel

/-- D8. -/
theorem test_decode_cRGB : decode (.entry false) [0x0F, 1, 0, 0, 0, 0xFE, 0xFF, 0xFF, 0xFF, 3, 0, 0, 0] =
    .ok (.cRGB 0 1 (BitVec.ofInt 32 (-2)) 3, []) := by decide +kernel

/-- R200, R201, R205: bit 0 of a write to register 0 or 8 makes it a command; bits 63:1 are ignored (K7). -/
theorem test_decode_commands :
    decodeHost (.regWrite 0 1) = .encStart 0 ∧ decodeHost (.regWrite 8 0xFFFFFFFFFFFFFFFF) = .decStart (BitVec.allOnes 63) ∧
    decodeHost (.regWrite 0 2) = .wr 0 2 ∧ decodeHost (.regWrite 1 1) = .wr 1 1 ∧ decodeHost (.regRead 15) = .rd 15 := by
  decide +kernel

/-- R61: row in bits 33:18, column in bits 17:2, channel in bits 1:0. -/
theorem test_decode_accesses :
    decodeHost (.emWrite 0x0000C000A (-7)) = .emAccess (.write (-7)) 3 2 2 ∧ decodeHost (.emRead 0x40000) = .emAccess .read 1 0 0 ∧
    decodeHost (.isWrite 5 9) = .isAccess (.write 9) 5 ∧ decodeHost (.isRead 5) = .isAccess .read 5 ∧
    decodeHost (.osRead 6) = .rdOs 6 ∧ decodeHost (.dmRead 0x3FFFFFFFF) = .rdDm 65535 65535 3 := by decide +kernel

/-- Words as the opcode table numbers them: payload bytes above the flag byte. -/
theorem test_table_words :
    decodeTableWord 8 0x00 = some (.z 0 0) ∧ decodeTableWord 8 0x08 = some (.c0 0) ∧
    decodeTableWord 40 0xFFFFFFFF09 = some (.cB 0 0xFFFFFFFF) ∧ decodeTableWord 8 0xFF = some (.cRGB 15 0 0 0) := by decide +kernel

/-! ### Sample states -/

/-- The next state, where there is one. -/
def ran : Host.Outcome State Fault Refusal → Option State
  | .next t => some t
  | .fault _ | .refused _ => none

/-- The fault, where there is one. -/
def faulted : Host.Outcome State Fault Refusal → Option Fault
  | .fault f => some f
  | .next _ | .refused _ => none

/-- ENC BUSY on a 1 x 1 matrix with these words, right after START. -/
def encRun (gray : Bool) (words : List Nat) : State :=
  { State.reset with enc := { EncState.initial with
      h := 1, w := 1, gray := gray, st := .busy, osOpen := true, em := (List.range words.length).zip words } }

/-- The same run about to take its HEADER step. -/
def encAtHeader (gray : Bool) (words : List Nat) (cap : Option Nat) : State :=
  let s := encRun gray words
  { s with params := { s.params with osCap := cap }, enc := { s.enc with phase := .header } }

/-- The same run about to take its ENTRY step, with the shift `k` and its header appended. -/
def encAtEntry (gray : Bool) (k : Shift) (words : List Nat) (cap : Option Nat) : State :=
  let s := encRun gray words
  let e := { s.enc with phase := .header, shift := k }
  { s with params := { s.params with osCap := cap }, enc := (e.append (encHeaderBytes e)).afterHeader }

/-- DEC BUSY on a stream, right after START. -/
def decRun (bs : List Byte) : State :=
  { State.reset with dec := { DecState.initial with
      st := .busy, isOpen := true, isLen := BitVec.ofNat 40 bs.length, inp := Memory.putBytes [] 0 bs } }

/-- DEC BUSY in the ENTRIES phase of a 1 x 1 stream with these entry bytes, at offset 6. -/
def decAtEntry (gray : Bool) (k : Shift) (bs : List Byte) : State :=
  let s := decRun ([1, 0, 1, 0, k, if gray then 1 else 0] ++ bs)
  { s with dec := { s.dec with h := 1, w := 1, shift := k, gray := gray, phase := .entries, sp := 6 } }

/-- The bytes of OS below OS_LEN. -/
def written (e : EncState) : List Byte := (List.range e.osLen.toNat).map fun i => (Memory.get e.os i).getD 0xEE

/-- One word of DM, as an integer. -/
def dmWord (d : DecState) (r c ch : Nat) : Int := (Memory.getDm d.dm (wordAddr r c ch)).toInt

/-- A coefficient as a 64-bit word. -/
def word (c : Int) : Nat := truncBits 64 c

/-! ### The step from the placed word -/

theorem test_step_runs_placed_word :
    ran (step (State.reset.withFetchWord 40 0xFFFFFFFF09)) = ran (exec (.cB 0 0xFFFFFFFF) (State.reset.withFetchWord 40 0xFFFFFFFF09)) ∧
    (ran (step (State.reset.withFetchWord 40 0xFFFFFFFF09))).map (fun t => (dmWord t.dec 0 0 2, t.dec.sp, t.dec.cnt)) = some (-1, 11, 1) := by
  decide +kernel

/-! ### The encoder -/

/-- A1, A2, A9, A10, A18, A26. -/
theorem test_scale_values :
    scaleOf 0 1000 = 0 ∧ scaleOf 0 0 = 0 ∧ scaleOf 0 (2 ^ 31) = 0 ∧ scaleOf 0 (2 ^ 31 + 1) = 1 ∧ scaleOf 0 (2 ^ 63) = 32 ∧
    scaleOf 4 (2 ^ 63) = 28 := by decide +kernel

/-- B7, B12, B20, B23, B33. -/
theorem test_quant_values :
    quant 0 0 2147483648 = none ∧ quant 0 3 (-9) = some (BitVec.ofInt 32 (-2)) ∧
    quant 0 32 (-9223372036854775808) = some (BitVec.ofInt 32 (-2147483648)) ∧ quant 0 200 (-5) = some (BitVec.ofInt 32 (-1)) ∧
    quant 4 1 (-24) = some (BitVec.ofInt 32 (-1)) := by decide +kernel

/-- ENC.SCALE: A10. -/
theorem test_enc_scale : (ran (exec .encScale (encRun true [word (-2147483649)]))).map (fun t => (t.enc.shift, t.enc.phase)) = some (1, .header) := by
  decide +kernel

/-- ENC.HEADER and ENC.HDR. -/
theorem test_enc_header :
    (ran (exec .encHeader (encAtHeader true [5] none))).map (fun t => (written t.enc, t.enc.phase)) = some ([1, 0, 1, 0, 0, 1], .entries) ∧
    ran (exec .encHdr (encAtHeader true [5] none)) = ran (exec .encHeader (encAtHeader true [5] none)) := by decide +kernel

/-- What the ENTRY step appends after the header, and what the form's own instruction does. -/
def entryBytes (i : Instr) (s : State) : Option (List Byte) := (ran (exec i s)).map fun t => (written t.enc).drop 6

/-- C1, C2, C4. -/
theorem test_enc_gray_forms :
    entryBytes .encZ (encAtEntry true 0 [0] none) = some [0x00] ∧
    entryBytes .encG (encAtEntry true 0 [1000] none) = some [0x08, 0xE8, 0x03, 0x00, 0x00] ∧
    entryBytes .encEntry (encAtEntry true 10 [1023] none) = some [0x08, 0, 0, 0, 0] := by decide +kernel

/-- D1, D2, D3, D5. -/
theorem test_enc_colour_one_channel :
    entryBytes .encZ (encAtEntry false 0 [0, 0, 0] none) = some [0x00] ∧
    entryBytes .encCB (encAtEntry false 0 [0, 0, word (-1)] none) = some [0x09, 0xFF, 0xFF, 0xFF, 0xFF] ∧
    entryBytes .encCG (encAtEntry false 0 [0, 1000, 0] none) = some [0x0A, 0xE8, 0x03, 0x00, 0x00] ∧
    entryBytes .encCR (encAtEntry false 0 [256, 0, 0] none) = some [0x0C, 0x00, 0x01, 0x00, 0x00] := by decide +kernel

/-- D4, D9, D7. -/
theorem test_enc_colour_two_channels :
    entryBytes .encCGB (encAtEntry false 0 [0, 1, 2] none) = some [0x0B, 1, 0, 0, 0, 2, 0, 0, 0] ∧
    entryBytes .encCRB (encAtEntry false 10 [word 1649267441664, 0, word (-1025)] none) =
      some [0x0D, 0x00, 0x00, 0x00, 0x60, 0xFE, 0xFF, 0xFF, 0xFF] ∧
    entryBytes .encCRG (encAtEntry false 0 [1, 2, 0] none) = some [0x0E, 1, 0, 0, 0, 2, 0, 0, 0] := by decide +kernel

/-- D8, by the form and by the entry encoder. -/
theorem test_enc_colour_three_channels :
    entryBytes .encCRGB (encAtEntry false 0 [1, word (-2), 3] none) = some [0x0F, 1, 0, 0, 0, 0xFE, 0xFF, 0xFF, 0xFF, 3, 0, 0, 0] ∧
    entryBytes .encEntry (encAtEntry false 0 [1, word (-2), 3] none) = some [0x0F, 1, 0, 0, 0, 0xFE, 0xFF, 0xFF, 0xFF, 3, 0, 0, 0] := by
  decide +kernel

/-- E1, E2, E3, E4: the error, and OS_LEN unchanged. -/
theorem test_enc_errors :
    (ran (exec .encEntry (encAtEntry true 0 [2147483648] none))).map (fun t => (t.enc.err, t.enc.osLen)) = some (some .unrepresentableMagnitude, 6) ∧
    (ran (exec .encEntry (encAtEntry false 9 [1, 1099511627776, 3] none))).map (fun t => (t.enc.err, t.enc.osLen)) =
      some (some .unrepresentableMagnitude, 6) ∧
    (ran (exec .encEntry (encAtEntry true 0 [1000] (some 10)))).map (fun t => (t.enc.err, t.enc.osLen)) = some (some .ioFailure, 6) ∧
    (ran (exec .encHeader (encAtHeader true [5] (some 5)))).map (fun t => (t.enc.err, t.enc.osLen, t.enc.phase)) = some (some .ioFailure, 0, .header) := by
  decide +kernel

/-! ### The decoder -/

/-- B24, B25, B10. -/
theorem test_dequant_values :
    (dequant 255 (BitVec.ofInt 32 (-2147483648))).toInt =
      -124330809102446660538845562036705210025114037699336929360115994223289874253133343883264 ∧
    (dequant 255 2147483647).toInt = 124330809044550615920187464324919717520770083772701937027295712203561082249176779063296 ∧
    (dequant 3 (BitVec.ofInt 32 (-1))).toInt = -8 := by decide +kernel

/-- DEC.HEADER: H4 with an entry byte behind it. -/
theorem test_dec_header :
    (ran (exec .decHeader (decRun [0x00, 0x01, 0x01, 0x02, 0xFF, 0x00, 0x00]))).map
      (fun t => (t.dec.h, t.dec.w, t.dec.shift, t.dec.gray, t.dec.sp, t.dec.phase)) = some (256, 513, 255, false, 6, .entries) := by decide +kernel

/-- What an ENTRY step stores, and where D_SP goes; the record's own instruction does the same. -/
def entryResult (i : Instr) (s : State) : Option (List Int × Pos) :=
  (ran (exec i s)).map fun t => ([dmWord t.dec 0 0 0, dmWord t.dec 0 0 1, dmWord t.dec 0 0 2], t.dec.sp)

/-- F5, F6, F7. -/
theorem test_dec_gray_entries :
    entryResult .decEntry (decAtEntry true 2 [0x0F, 1, 0, 0, 0]) = some ([4, 0, 0], 11) ∧
    entryResult (.z 3 7) (decAtEntry true 2 [0x37]) = some ([0, 0, 0], 7) ∧
    entryResult (.g 15 0 (BitVec.ofInt 32 (-2))) (decAtEntry true 2 [0xF8, 0xFE, 0xFF, 0xFF, 0xFF]) = some ([-8, 0, 0], 11) := by decide +kernel

/-- F1, F2, D3, D5. -/
theorem test_dec_colour_short_entries :
    entryResult .decEntry (decAtEntry false 0 [0x08]) = some ([0, 0, 0], 7) ∧
    entryResult (.c0 0) (decAtEntry false 0 [0x08]) = some ([0, 0, 0], 7) ∧
    entryResult (.cB 15 (BitVec.ofInt 32 (-1))) (decAtEntry false 0 [0xF9, 0xFF, 0xFF, 0xFF, 0xFF]) = some ([0, 0, -1], 11) ∧
    entryResult (.cG 0 1000) (decAtEntry false 0 [0x0A, 0xE8, 3, 0, 0]) = some ([0, 1000, 0], 11) ∧
    entryResult (.cR 0 256) (decAtEntry false 0 [0x0C, 0, 1, 0, 0]) = some ([256, 0, 0], 11) := by decide +kernel

/-- D4, D6, F4, and D8 with shift 1. -/
theorem test_dec_colour_long_entries :
    entryResult (.cGB 0 1 2) (decAtEntry false 0 [0x0B, 1, 0, 0, 0, 2, 0, 0, 0]) = some ([0, 1, 2], 15) ∧
    entryResult (.cRB 0 1 2) (decAtEntry false 0 [0x0D, 1, 0, 0, 0, 2, 0, 0, 0]) = some ([1, 0, 2], 15) ∧
    entryResult (.cRG 1 1 2) (decAtEntry false 0 [0x1E, 1, 0, 0, 0, 2, 0, 0, 0]) = some ([1, 2, 0], 15) ∧
    entryResult (.cRGB 0 1 (BitVec.ofInt 32 (-2)) 3) (decAtEntry false 1 [0x0F, 1, 0, 0, 0, 0xFE, 0xFF, 0xFF, 0xFF, 3, 0, 0, 0]) = some ([2, -4, 6], 19) ∧
    entryResult .decEntry (decAtEntry false 1 [0x0F, 1, 0, 0, 0, 0xFE, 0xFF, 0xFF, 0xFF, 3, 0, 0, 0]) = some ([2, -4, 6], 19) := by decide +kernel

/-- X1, X5, X9, X13, X6, X11: error, recorded position, D_SP. -/
theorem test_dec_errors :
    let report := fun (o : Host.Outcome State Fault Refusal) => (ran o).map fun t => (t.dec.err, t.dec.errPos, t.dec.sp)
    report (step (decRun [])) = some (some .malformedHeader, 0, 0) ∧
    report (step (decRun [2, 0, 2, 0, 0, 2, 0, 0, 0, 0])) = some (some .malformedHeader, 0, 0) ∧
    report (step (decAtEntry true 0 [0x08])) = some (some .truncatedEntry, 6, 6) ∧
    report (step (decAtEntry false 0 [0x0F, 1, 0, 0, 0, 2, 0, 0, 0, 3, 0])) = some (some .truncatedEntry, 6, 6) ∧
    report (step (decAtEntry true 0 [])) = some (some .shapeMismatch, 6, 6) := by decide +kernel

/-- DEC.FINISH and the leftover byte (X11): the state after the only entry of a 1 x 1 stream. -/
def decAfterEntry (rest : List Byte) : State :=
  let s := decAtEntry true 0 (0x00 :: rest)
  { s with dec := { s.dec with sp := 7, row := 1, cnt := 1 } }

theorem test_dec_finish :
    (ran (step (decAfterEntry []))).map (fun t => (t.dec.st, t.dec.dmValid, t.dec.isOpen)) = some (.done, true, false) ∧
    (ran (exec .decFinish (decAfterEntry []))).map (fun t => t.dec.st) = some .done ∧
    (ran (step (decAfterEntry [0x08]))).map (fun t => (t.dec.err, t.dec.errPos)) = some (some .shapeMismatch, 7) := by decide +kernel

/-! ### Host commands -/

/-- What a register read returns. -/
def readReg (n : BitVec 4) (s : State) : Option HostData := (ran (exec (.rd n) s)).map fun t => t.host.rdata

/-- K1, and E_STATUS after P5's error: `0x040B`; D_STATUS after P4's first run: `0x0207`. -/
theorem test_rd_status :
    readReg 1 State.reset = some (.reg 0) ∧
    readReg 1 { State.reset with enc := { EncState.initial with st := .error, phase := .entries, err := some .unrepresentableMagnitude } } = some (.reg 0x040B) ∧
    readReg 9 { State.reset with dec := { DecState.initial with st := .error, phase := .entries, err := some .truncatedEntry } } = some (.reg 0x0207) := by
  decide +kernel

/-- K9's cursor, P3's D_HDR and D_STATUS. -/
theorem test_rd_fields :
    readReg 4 { State.reset with enc := { EncState.initial with row := 2 } } = some (.reg 2) ∧
    readReg 10 { State.reset with dec := { DecState.initial with h := 2, w := 2, shift := 10 } } = some (.reg 0x0A00020002) ∧
    readReg 9 { State.reset with dec := { DecState.initial with st := .done, phase := .entries, dmValid := true } } = some (.reg 0x20006) := by
  decide +kernel

/-- K2, K5, K6. -/
theorem test_start_commands :
    ran (exec (.encStart 0) (encRun true [5])) = some (encRun true [5]) ∧
    (ran (exec (.encStart 0) { State.reset with enc := { EncState.initial with st := .error, err := some .unrepresentableMagnitude, osLen := 11, col := 1 } })).map
      (fun t => (t.enc.st, t.enc.err, t.enc.osLen, t.enc.col, t.enc.osOpen)) = some (.busy, none, 0, 0, true) ∧
    (ran (exec (.decStart 0) { State.reset with dec := { DecState.initial with st := .done, dmValid := true, sp := 14, h := 2 } })).map
      (fun t => (t.dec.st, t.dec.dmValid, t.dec.sp, t.dec.h)) = some (.busy, false, 0, 0) := by decide +kernel

/-- P1's E_DIM, K3, K8, K7. -/
theorem test_wr :
    (ran (exec (.wr 2 0x100020002) State.reset)).map (fun t => (t.enc.h, t.enc.w, t.enc.gray)) = some (2, 2, true) ∧
    ran (exec (.wr 2 0x100030003) (encRun true [5])) = some (encRun true [5]) ∧
    (ran (exec (.wr 14 14) State.reset)).map (fun t => t.dec.isLen) = some 14 ∧ ran (exec (.wr 0 2) State.reset) = some State.reset := by
  decide +kernel

/-- R206: a write, and the read that returns it; channel 3 addresses nothing (R61). -/
theorem test_em_access :
    ((ran (exec (.emAccess (.write (-1025)) 0 1 2) State.reset)).bind (fun t => ran (exec (.emAccess .read 0 1 2) t))).map (fun t => t.host.rdata) =
      some (.emWord 0xFFFFFFFFFFFFFBFF) ∧
    ran (exec (.emAccess (.write 1) 0 0 3) State.reset) = some State.reset := by decide +kernel

/-- R207: bits 7:0 of the value are stored. -/
theorem test_is_access :
    ((ran (exec (.isAccess (.write 0x1E8) 7) State.reset)).bind (fun t => ran (exec (.isAccess .read 7) t))).map (fun t => t.host.rdata) =
      some (.isByte 0xE8) := by decide +kernel

/-- R208, R209: reads of a finished run. -/
theorem test_result_reads :
    (ran (exec (.rdOs 5) { (encAtEntry true 0 [5] none) with enc := { (encAtEntry true 0 [5] none).enc with st := .done, osOpen := false } })).map (fun t => t.host.rdata) =
      some (.osByte 1) ∧
    (ran (exec (.rdDm 0 0 0) { State.reset with dec := { DecState.initial with st := .done, dmValid := true, h := 1, w := 1, gray := true, dm := [(0, 1000)] } })).map
      (fun t => t.host.rdata) = some (.dmWord 1000) := by decide +kernel

/-- R222, R216: an error step of each unit. -/
theorem test_error_step :
    (ran (exec (.errorStep .truncatedEntry 7) (decAtEntry true 0 [0x08]))).map (fun t => (t.dec.st, t.dec.errPos, t.dec.isOpen)) = some (.error, 7, false) ∧
    (ran (exec (.errorStep .ioFailure 0) (encRun true [5]))).map (fun t => (t.enc.st, t.enc.err, t.enc.osOpen)) = some (.error, some .ioFailure, false) := by
  decide +kernel

/-! ### Witnesses: the hypotheses of the obligations -/

/-- An outcome that has a next state is one. -/
theorem next_of_ran {o : Host.Outcome State Fault Refusal} (h : (ran o).isSome = true) : ∃ t, o = .next t := by
  cases o with
  | next t => exact ⟨t, rfl⟩
  | fault _ => cases h
  | refused _ => cases h

/-- The outcome of `ran` names the next state. -/
theorem eq_of_ran {o : Host.Outcome State Fault Refusal} {t : State} (h : ran o = some t) : o = .next t := by
  cases o with
  | next u => cases h; rfl
  | fault _ => cases h
  | refused _ => cases h

/-- `loaded` by a bounded search. -/
theorem loaded_of_search (e : EncState)
    (h : ∀ r < e.h.toNat, ∀ c < e.w.toNat, ∀ ch < channels e.gray, (Memory.get e.em (wordAddr r c ch)).isSome = true) : e.loaded :=
  fun r c ch hr hc hch => h r hr c hc ch hch

theorem encRun_alone (gray : Bool) (words : List Nat) : (encRun gray words).encAlone :=
  ⟨rfl, rfl, fun h => nomatch (h : UnitState.idle = UnitState.busy)⟩

theorem encRun_started (gray : Bool) (words : List Nat) : (encRun gray words).enc.started := ⟨rfl, rfl, rfl, rfl, rfl, rfl, rfl, rfl, rfl⟩

theorem decRun_alone (bs : List Byte) : (decRun bs).decAlone := ⟨rfl, rfl, fun h => nomatch (h : UnitState.idle = UnitState.busy)⟩

theorem decRun_started (bs : List Byte) : (decRun bs).dec.started := ⟨rfl, rfl, rfl, rfl, rfl, rfl, rfl, rfl, rfl, rfl, rfl, rfl, rfl, rfl⟩

theorem decAtEntry_alone (gray : Bool) (k : Shift) (bs : List Byte) : (decAtEntry gray k bs).decAlone := ⟨rfl, rfl, fun h => nomatch (h : UnitState.idle = UnitState.busy)⟩

/-- Both units BUSY. -/
def bothBusy : State := { encRun true [5] with dec := (decRun [1, 0, 1, 0, 0, 1, 0]).dec }

/-- Neither unit BUSY, with these events pending. -/
def idleWith (evs : List HostEvent) : State := { State.reset with host := { State.reset.host with pending := evs } }

/-- Legal header, START commands with every ignored bit set, the widest entry of each mode. -/
theorem witness_EncodingDecodesBack :
    Entry.inMode true (.g 15 7 0xFFFFFFFF) = true ∧ Entry.inMode false (.cRGB 15 0 0x80000000 0xFFFFFFFF) = true ∧
    Entry.inMode true (.z 15 7) = true ∧
    ((Instr.decStart (BitVec.allOnes 63)).wf = true ∧ encode (.decStart (BitVec.allOnes 63)) = .access (.regWrite 8 (BitVec.allOnes 64))) ∧
    ((Instr.wr 0 0xFFFFFFFFFFFFFFFE).wf = true ∧ encode (.wr 0 0xFFFFFFFFFFFFFFFE) = .access (.regWrite 0 0xFFFFFFFFFFFFFFFE)) ∧
    encode (.rdDm 65535 0 3) = .access (.dmRead 0x3FFFC0003) := by decide +kernel

theorem witness_DecodedEntryIsItsBytes :
    decodeEntry false [0x78, 0x55] = .ok (.c0 7, [0x55]) ∧ decodeEntry true [0xFF, 1, 2, 3, 4, 5] = .ok (.g 15 7 0x04030201, [5]) := by decide +kernel

/-- Exactly enough bytes, and one too few, for each length. -/
theorem witness_EveryFlagByteSelectsAnEntry :
    entryLen false 0xF8 ≤ 1 + 0 ∧
    (entryLen true 0xFF ≤ 1 + [0, 0, 0, 0].length ∧ 1 + [0, 0, 0].length < entryLen true 0xFF) ∧
    (entryLen false 0x0E ≤ 1 + (List.replicate 8 0).length ∧ 1 + (List.replicate 7 0).length < entryLen false 0x0E) ∧
    (entryLen false 0xFF ≤ 1 + (List.replicate 12 0).length ∧ 1 + (List.replicate 11 0).length < entryLen false 0xFF) := by decide

theorem witness_ResetEndsAnyRun :
    (idleWith [.reset]).params.legal = true ∧ (idleWith [.reset]).host.pending = .reset :: [] ∧
    chooseAgent (idleWith [.reset]) = (some .host, idleWith [.reset]) ∧ (idleWith [.reset]).enc.st ≠ .busy ∧ (idleWith [.reset]).dec.st ≠ .busy := by
  decide

theorem witness_StepIsOneAgentsMove : bothBusy.params.legal = true ∧ State.reset.params.legal = true := by decide

theorem witness_StepRunsTheRecordAtTheStreamPosition :
    ((decAtEntry true 0 [0x0F, 1, 0, 0, 0]).decAlone ∧ (decAtEntry true 0 [0x0F, 1, 0, 0, 0]).dec.entryReady = true ∧
      (Entry.g 0 7 1).inMode (decAtEntry true 0 [0x0F, 1, 0, 0, 0]).dec.gray = true ∧
      (decAtEntry true 0 [0x0F, 1, 0, 0, 0]).dec.sp.toNat + (encodeEntry (.g 0 7 1)).length ≤ (decAtEntry true 0 [0x0F, 1, 0, 0, 0]).dec.isLen.toNat ∧
      Memory.getBytes (decAtEntry true 0 [0x0F, 1, 0, 0, 0]).dec.inp 6 5 = .ok (encodeEntry (.g 0 7 1))) ∧
    ((decRun [1, 0, 1, 0, 0, 1]).decAlone ∧ (decRun [1, 0, 1, 0, 0, 1]).dec.st = .busy ∧ (decRun [1, 0, 1, 0, 0, 1]).dec.phase = .header ∧
      6 ≤ (decRun [1, 0, 1, 0, 0, 1]).dec.isLen.toNat ∧ Memory.getBytes (decRun [1, 0, 1, 0, 0, 1]).dec.inp 0 6 = .ok (encodeHeader 1 1 0 1)) := by
  refine ⟨⟨decAtEntry_alone .., ?_⟩, decRun_alone _, ?_⟩ <;> decide +kernel

theorem witness_StepRunsTheOldestHostAccess :
    (idleWith [.access (.regRead 1), .reset]).params.legal = true ∧ (idleWith [.access (.regRead 1), .reset]).enc.st ≠ .busy ∧
    (idleWith [.access (.regRead 1), .reset]).dec.st ≠ .busy ∧
    (idleWith [.access (.regRead 1), .reset]).host.pending = .access (.regRead 1) :: [.reset] := by decide

/-- One state in each phase, and one that is idle. -/
theorem witness_StepRunsTheEncoderPhase :
    ((encRun true [5]).encAlone ∧ (encRun true [5]).enc.st = .busy ∧ (encRun true [5]).enc.phase = .scale) ∧
    ((encAtHeader true [5] none).encAlone ∧ (encAtHeader true [5] none).enc.st = .busy ∧ (encAtHeader true [5] none).enc.phase = .header) ∧
    ((encAtEntry true 0 [5] none).encAlone ∧ (encAtEntry true 0 [5] none).enc.st = .busy ∧ (encAtEntry true 0 [5] none).enc.phase = .entries) ∧
    (State.reset.encAlone ∧ State.reset.enc.st ≠ .busy) := by
  unfold State.encAlone; decide +kernel

/-- The four corners of the dispatch: complete; too few entries; a byte too many; an entry to read. -/
theorem witness_EntriesPhaseDispatch :
    ((decAfterEntry []).decAlone ∧ (decAfterEntry []).dec.st = .busy ∧ (decAfterEntry []).dec.phase = .entries ∧
      (decAfterEntry []).dec.sp = (decAfterEntry []).dec.isLen ∧ (decAfterEntry []).dec.cnt.toNat = 1 * 1) ∧
    ((decAtEntry true 0 []).decAlone ∧ (decAtEntry true 0 []).dec.sp = (decAtEntry true 0 []).dec.isLen ∧ (decAtEntry true 0 []).dec.cnt.toNat ≠ 1 * 1) ∧
    ((decAfterEntry [0]).decAlone ∧ (decAfterEntry [0]).dec.sp ≠ (decAfterEntry [0]).dec.isLen ∧ (decAfterEntry [0]).dec.cnt.toNat = 1 * 1) ∧
    ((decAtEntry true 0 [0]).decAlone ∧ (decAtEntry true 0 [0]).dec.sp ≠ (decAtEntry true 0 [0]).dec.isLen ∧ (decAtEntry true 0 [0]).dec.cnt.toNat ≠ 1 * 1) := by
  unfold State.decAlone; decide +kernel

/-- `COEF_W = FRAC`, and 288 integer bits; one bit less on each side is legal. -/
theorem witness_IllegalParametersAreRefused :
    (Params.mk 7 7 none).coefW ≤ (Params.mk 7 7 none).frac ∧ 287 < (Params.mk 288 0 none).coefW - (Params.mk 288 0 none).frac ∧
    (Params.mk 8 7 none).legal = true ∧ (Params.mk 287 0 none).legal = true ∧ (Params.mk 7 7 none).legal = false ∧ (Params.mk 288 0 none).legal = false := by
  decide

theorem witness_BitCountIsLeast : 1 ≤ 1 ∧ clog2 1 = 0 ∧ clog2 2 = 1 ∧ clog2 3 = 2 ∧ clog2 4 = 2 ∧ clog2 5 = 3 := by decide +kernel

theorem witness_ShiftOfMagnitude : 2 ^ 31 ≤ 2 ^ (31 + 0) ∧ 2 ^ (31 + 0) < 2 ^ 31 + 1 ∧ scaleOf 0 (2 ^ 31) = 0 ∧ scaleOf 0 (2 ^ 31 + 1) = 1 := by decide +kernel

/-- The largest magnitude of 64 bits, and of the widest legal word. -/
theorem witness_ShiftFitsEightBits :
    (Params.mk 64 0 none).legal = true ∧ 2 ^ 63 ≤ 2 ^ (64 - 1) ∧ scaleOf 0 (2 ^ 63) = 32 ∧
    (Params.mk 287 0 none).legal = true ∧ scaleOf 0 (2 ^ 286) = 255 := by decide +kernel

/-- The most negative word; and an empty shape, where M is 0. -/
theorem witness_ScaleStepComputesTheShift :
    ((encRun true [2 ^ 63]).params.legal = true ∧ Memory.emWf (encRun true [2 ^ 63]).params (encRun true [2 ^ 63]).enc.em = true ∧
      (encRun true [2 ^ 63]).enc.st = .busy ∧ (encRun true [2 ^ 63]).enc.phase = .scale ∧ (encRun true [2 ^ 63]).enc.loaded) ∧
    ({ (encRun true []).enc with h := 0 } : EncState).loaded ∧
    (ran (exec .encScale (encRun true [2 ^ 63]))).map (fun t => t.enc.shift) = some 32 := by
  refine ⟨⟨?_, ?_, rfl, rfl, loaded_of_search _ ?_⟩, loaded_of_search _ ?_, ?_⟩ <;> decide +kernel

/-- The only word of the shape is not written; and the last channel of a colour pixel is not. -/
theorem witness_UnwrittenWordFaultsTheScaleStep :
    ((encRun true []).enc.st = .busy ∧ (encRun true []).enc.phase = .scale ∧ 0 < (encRun true []).enc.h.toNat ∧ 0 < (encRun true []).enc.w.toNat ∧
      0 < channels true ∧ Memory.get (encRun true []).enc.em (wordAddr 0 0 0) = none) ∧
    (2 < channels false ∧ Memory.get (encRun false [1, 2]).enc.em (wordAddr 0 0 2) = none ∧
      faulted (exec .encScale (encRun false [1, 2])) = some (.emUnwritten 2)) := by decide +kernel

/-- Grayscale, channel 0; and colour, the first and the last channel, with the channels before it written. -/
theorem witness_UnwrittenPixelFaultsTheEntryStep :
    ((encAtEntry true 0 [] none).enc.inEntries = true ∧ (encAtEntry true 0 [] none).enc.gray = true ∧ 0 < channels (encAtEntry true 0 [] none).enc.gray ∧
      Memory.get (encAtEntry true 0 [] none).enc.em (wordAddr 0 0 0) = none) ∧
    (Memory.get (encAtEntry false 0 [] none).enc.em (wordAddr 0 0 0) = none ∧ (encAtEntry false 0 [] none).enc.gray = false) ∧
    ((encAtEntry false 0 [1, 2] none).enc.inEntries = true ∧ 2 < channels (encAtEntry false 0 [1, 2] none).enc.gray ∧
      Memory.get (encAtEntry false 0 [1, 2] none).enc.em (wordAddr 0 0 2) = none ∧
      ∀ c, c < 2 → (Memory.get (encAtEntry false 0 [1, 2] none).enc.em (wordAddr 0 0 c)).isSome = true) ∧
    faulted (exec .encCRG (encAtEntry false 0 [1, 2] none)) = some (.emUnwritten 2) := by decide +kernel

/-- Both ends of the payload range, and the first value outside each. -/
theorem witness_QuantIsTheFloorShift :
    quant 0 0 2147483647 = some 0x7FFFFFFF ∧ quant 0 0 (-2147483648) = some 0x80000000 ∧ quant 0 0 2147483648 = none ∧
    quant 0 0 (-2147483649) = none := by decide +kernel

theorem witness_OnlyAPositivePowerOfTwoIsUnrepresentable :
    rawmag 2147483648 ≤ 2 ^ 31 ∧ (0 : Shift).toNat = scaleOf 0 (2 ^ 31) ∧ quant 0 0 2147483648 = none := by decide +kernel

theorem witness_EncoderEmitsCanonicalRecords :
    encEntry 0 0 (.gray 0) = some [0x00] ∧ encEntry 0 0 (.gray 1000) = some [0x08, 0xE8, 3, 0, 0] ∧
    encEntry 0 0 (.colour 0 0 0) = some [0x00] ∧ encEntry 0 0 (.colour 0 0 (-1)) = some [0x09, 0xFF, 0xFF, 0xFF, 0xFF] := by decide +kernel

theorem witness_EncoderEntryIsItsForm :
    ((encAtEntry true 0 [5] none).enc.inEntries = true ∧
      pixelAt (encAtEntry true 0 [5] none).params (encAtEntry true 0 [5] none).enc = .ok (.gray 5)) ∧
    pixelAt (encAtEntry false 0 [0, 0, word (-1)] none).params (encAtEntry false 0 [0, 0, word (-1)] none).enc = .ok (.colour 0 0 (-1)) := by
  decide +kernel

/-- What the ENTRY statements of ENC ask of a state: the invariant, the phase, the pixel, its payloads, and room for the record. -/
def EntryMet (s : State) (pix : Pixel) (bs : List Byte) : Prop :=
  EncInv s.params s.enc ∧ s.enc.inEntries = true ∧ pixelAt s.params s.enc = .ok pix ∧ encEntry s.params.frac s.enc.shift pix = some bs ∧
    overCap s.params s.enc bs.length = false

theorem witness_EncoderFormsEmitTheirRecords_gray :
    EntryMet (encAtEntry true 0 [0] (some 7)) (.gray 0) [0x00] ∧
    (EntryMet (encAtEntry true 0 [1000] (some 11)) (.gray 1000) (0x08 :: bytesLe32 1000) ∧ quant 0 0 1000 = some 1000) := by
  repeat' with_reducible apply And.intro
  all_goals first | decide +kernel | (unfold EntryMet EncInv; decide +kernel)

/-- Each of the eight sets of non-zero channels; the payload of a channel that is zero is not asked for. -/
theorem witness_EncoderFormsEmitTheirRecords_colour :
    quant 0 0 1 = some 1 ∧ quant 0 0 (-2) = some 0xFFFFFFFE ∧ quant 0 0 3 = some 3 ∧
    EntryMet (encAtEntry false 0 [0, 0, 0] none) (.colour 0 0 0) [0x00] ∧
    EntryMet (encAtEntry false 0 [0, 0, 3] none) (.colour 0 0 3) (0x09 :: bytesLe32 3) ∧
    EntryMet (encAtEntry false 0 [0, word (-2), 0] none) (.colour 0 (-2) 0) (0x0A :: bytesLe32 0xFFFFFFFE) ∧
    EntryMet (encAtEntry false 0 [0, word (-2), 3] none) (.colour 0 (-2) 3) (0x0B :: (bytesLe32 0xFFFFFFFE ++ bytesLe32 3)) ∧
    EntryMet (encAtEntry false 0 [1, 0, 0] none) (.colour 1 0 0) (0x0C :: bytesLe32 1) ∧
    EntryMet (encAtEntry false 0 [1, 0, 3] none) (.colour 1 0 3) (0x0D :: (bytesLe32 1 ++ bytesLe32 3)) ∧
    EntryMet (encAtEntry false 0 [1, word (-2), 0] none) (.colour 1 (-2) 0) (0x0E :: (bytesLe32 1 ++ bytesLe32 0xFFFFFFFE)) ∧
    EntryMet (encAtEntry false 0 [1, word (-2), 3] (some 19)) (.colour 1 (-2) 3)
      (0x0F :: (bytesLe32 1 ++ (bytesLe32 0xFFFFFFFE ++ bytesLe32 3))) := by
  repeat' with_reducible apply And.intro
  all_goals first | decide +kernel | (unfold EntryMet EncInv; decide +kernel)

theorem witness_EncoderEntryAppendsTheEntry : EntryMet (encAtEntry true 10 [1023] (some 11)) (.gray 1023) [0x08, 0, 0, 0, 0] := by
  unfold EntryMet EncInv; decide +kernel

/-- The gray case; and the last channel of a colour pixel. -/
theorem witness_UnrepresentableCoefficientRaises :
    ((encAtEntry true 0 [2 ^ 31] none).enc.inEntries = true ∧
      pixelAt (encAtEntry true 0 [2 ^ 31] none).params (encAtEntry true 0 [2 ^ 31] none).enc = .ok (.gray (2 ^ 31)) ∧ quant 0 0 (2 ^ 31) = none) ∧
    ((encAtEntry false 0 [1, 0, 2 ^ 31] none).enc.inEntries = true ∧
      pixelAt (encAtEntry false 0 [1, 0, 2 ^ 31] none).params (encAtEntry false 0 [1, 0, 2 ^ 31] none).enc = .ok (.colour 1 0 (2 ^ 31))) := by
  decide +kernel

/-- One byte short for the header, and for the entry. -/
theorem witness_FullOutputRaisesIoFailure :
    ((encAtHeader true [5] (some 5)).params.osCap = some 5 ∧ (encAtHeader true [5] (some 5)).enc.st = .busy ∧
      (encAtHeader true [5] (some 5)).enc.phase = .header ∧ 5 < (encAtHeader true [5] (some 5)).enc.osLen.toNat + 6) ∧
    ((encAtEntry true 0 [1000] (some 10)).params.osCap = some 10 ∧ (encAtEntry true 0 [1000] (some 10)).enc.inEntries = true ∧
      pixelAt (encAtEntry true 0 [1000] (some 10)).params (encAtEntry true 0 [1000] (some 10)).enc = .ok (.gray 1000) ∧
      encEntry 0 0 (.gray 1000) = some [0x08, 0xE8, 3, 0, 0] ∧ 10 < (encAtEntry true 0 [1000] (some 10)).enc.osLen.toNat + 5) := by decide +kernel

/-- Room for exactly six bytes, room for five, and an empty matrix. -/
theorem witness_EncoderHeaderStep :
    ((encAtHeader true [5] (some 6)).enc.st = .busy ∧ (encAtHeader true [5] (some 6)).enc.phase = .header ∧ (encAtHeader true [5] (some 6)).enc.osLen = 0 ∧
      overCap (encAtHeader true [5] (some 6)).params (encAtHeader true [5] (some 6)).enc 6 = false ∧
      (encAtHeader true [5] (some 6)).enc.h.toNat * (encAtHeader true [5] (some 6)).enc.w.toNat ≠ 0) ∧
    overCap (encAtHeader true [5] (some 5)).params (encAtHeader true [5] (some 5)).enc 6 = true ∧
    (let s := encAtHeader true [] none
     (ran (exec .encHeader { s with enc := { s.enc with h := 0 } })).map (fun t => (written t.enc, t.enc.st, t.enc.phase)) =
      some ([0, 0, 1, 0, 0, 1], .done, .header)) := by decide +kernel

theorem witness_EncoderOnlyReadsTheMatrix : runsOnEnc .encEntry = true ∧ ∃ t, exec .encEntry (encAtEntry true 0 [5] none) = .next t :=
  ⟨rfl, next_of_ran (by decide +kernel)⟩

theorem witness_EncodeRunEnds :
    (encRun true [5]).encAlone ∧ (encRun true [5]).enc.started ∧ (encRun true [5]).enc.loaded ∧ EncInv (encRun true [5]).params (encRun true [5]).enc := by
  refine ⟨encRun_alone .., encRun_started .., loaded_of_search _ (by decide +kernel), ?_⟩
  unfold EncInv; decide +kernel

/-- Both modes, and a stream that the record ends exactly: 1, 5, 9 and 13 bytes. -/
theorem witness_EntryRecordsStoreTheirChannels :
    ((decAtEntry true 2 [0x37]).dec.entryReady = true ∧ (decAtEntry true 2 [0x37]).dec.sp.toNat + 1 ≤ (decAtEntry true 2 [0x37]).dec.isLen.toNat) ∧
    ((decAtEntry true 2 [8, 0, 0, 0, 0]).dec.entryReady = true ∧ (decAtEntry true 2 [8, 0, 0, 0, 0]).dec.gray = true ∧
      (decAtEntry true 2 [8, 0, 0, 0, 0]).dec.sp.toNat + 5 ≤ (decAtEntry true 2 [8, 0, 0, 0, 0]).dec.isLen.toNat) ∧
    ∀ n ∈ [1, 5, 9, 13], (decAtEntry false 2 (List.replicate n 8)).dec.entryReady = true ∧ (decAtEntry false 2 (List.replicate n 8)).dec.gray = false ∧
      (decAtEntry false 2 (List.replicate n 8)).dec.sp.toNat + n ≤ (decAtEntry false 2 (List.replicate n 8)).dec.isLen.toNat := by decide +kernel

/-- One byte short, in both modes. -/
theorem witness_TruncatedRecordRaises :
    ((decAtEntry true 0 [8, 1, 0, 0]).dec.entryReady = true ∧ (Entry.g 0 0 1).inMode (decAtEntry true 0 [8, 1, 0, 0]).dec.gray = true ∧
      (decAtEntry true 0 [8, 1, 0, 0]).dec.isLen.toNat < (decAtEntry true 0 [8, 1, 0, 0]).dec.sp.toNat + (encodeEntry (.g 0 0 1)).length) ∧
    ((decAtEntry false 0 (15 :: List.replicate 11 1)).dec.entryReady = true ∧
      (Entry.cRGB 0 1 1 1).inMode (decAtEntry false 0 (15 :: List.replicate 11 1)).dec.gray = true ∧
      (decAtEntry false 0 (15 :: List.replicate 11 1)).dec.isLen.toNat <
        (decAtEntry false 0 (15 :: List.replicate 11 1)).dec.sp.toNat + (encodeEntry (.cRGB 0 1 1 1)).length) := by decide +kernel

theorem witness_DecoderEntryIsTheRule :
    (decAtEntry true 2 [0x0F, 1, 0, 0, 0]).dec.entryReady = true ∧ (decAtEntry false 2 [0x0B, 1, 0, 0]).dec.entryReady = true := by decide +kernel

theorem witness_DecoderEntryRunsTheRecord :
    (decAtEntry false 0 [0xF9, 0xFF, 0xFF, 0xFF, 0xFF]).dec.entryReady = true ∧
    (Entry.cB 15 0xFFFFFFFF).inMode (decAtEntry false 0 [0xF9, 0xFF, 0xFF, 0xFF, 0xFF]).dec.gray = true ∧
    (decAtEntry false 0 [0xF9, 0xFF, 0xFF, 0xFF, 0xFF]).dec.sp.toNat + (encodeEntry (.cB 15 0xFFFFFFFF)).length ≤
      (decAtEntry false 0 [0xF9, 0xFF, 0xFF, 0xFF, 0xFF]).dec.isLen.toNat ∧
    Memory.getBytes (decAtEntry false 0 [0xF9, 0xFF, 0xFF, 0xFF, 0xFF]).dec.inp 6 5 = .ok (encodeEntry (.cB 15 0xFFFFFFFF)) := by decide +kernel

/-- A colour pixel with a zero channel and a negative one, and a grayscale one, at shift 1. -/
theorem witness_DecodedEntryIsTheQuantizedPixel :
    (encEntry 0 (decAtEntry false 1 [0x0D, 1, 0, 0, 0, 0xFE, 0xFF, 0xFF, 0xFF]).dec.shift (.colour 3 0 (-3)) = some [0x0D, 1, 0, 0, 0, 0xFE, 0xFF, 0xFF, 0xFF] ∧
      (decAtEntry false 1 [0x0D, 1, 0, 0, 0, 0xFE, 0xFF, 0xFF, 0xFF]).dec.gray = false ∧
      (decAtEntry false 1 [0x0D, 1, 0, 0, 0, 0xFE, 0xFF, 0xFF, 0xFF]).dec.entryReady = true ∧
      (decAtEntry false 1 [0x0D, 1, 0, 0, 0, 0xFE, 0xFF, 0xFF, 0xFF]).dec.sp.toNat + 9 ≤
        (decAtEntry false 1 [0x0D, 1, 0, 0, 0, 0xFE, 0xFF, 0xFF, 0xFF]).dec.isLen.toNat) ∧
    (encEntry 0 (decAtEntry true 1 [0x00]).dec.shift (.gray 0) = some [0x00] ∧ (decAtEntry true 1 [0x00]).dec.gray = true) := by decide +kernel

/-- The smallest area and the largest one, with both legal layout bytes. -/
theorem witness_HeaderIsLatched :
    ((decRun [1, 0, 1, 0, 255, 1]).dec.st = .busy ∧ (decRun [1, 0, 1, 0, 255, 1]).dec.phase = .header ∧ 6 ≤ (decRun [1, 0, 1, 0, 255, 1]).dec.isLen.toNat ∧
      Memory.getBytes (decRun [1, 0, 1, 0, 255, 1]).dec.inp 0 6 = .ok [1, 0, 1, 0, 255, 1] ∧ 1 * 1 ≠ 0 ∧ (1 : Byte).toNat ≤ 1) ∧
    (Memory.getBytes (decRun [255, 255, 255, 255, 0, 0]).dec.inp 0 6 = .ok [255, 255, 255, 255, 0, 0] ∧
      65535 = (255 : Byte).toNat + 256 * (255 : Byte).toNat ∧ 65535 * 65535 ≠ 0 ∧ (0 : Byte).toNat ≤ 1) := by decide +kernel

/-- Five bytes; no rows; no columns; layout byte 2. -/
theorem witness_MalformedHeaderRaises :
    ((decRun [1, 0, 1, 0, 0]).dec.st = .busy ∧ (decRun [1, 0, 1, 0, 0]).dec.phase = .header ∧ (decRun [1, 0, 1, 0, 0]).dec.isLen.toNat < 6) ∧
    ((decRun [0, 0, 1, 0, 0, 1]).dec.st = .busy ∧ (decRun [0, 0, 1, 0, 0, 1]).dec.phase = .header ∧ 6 ≤ (decRun [0, 0, 1, 0, 0, 1]).dec.isLen.toNat ∧
      (0 : Dim).toNat * (1 : Dim).toNat = 0 ∧ Memory.getBytes (decRun [0, 0, 1, 0, 0, 1]).dec.inp 0 6 = .ok (encodeHeader 0 1 0 1)) ∧
    (1 : Dim).toNat * (0 : Dim).toNat = 0 ∧
    (1 < (2 : Byte).toNat ∧ Memory.getBytes (decRun [1, 0, 1, 0, 0, 2]).dec.inp 0 6 = .ok (encodeHeader 1 1 0 2)) := by decide +kernel

theorem witness_FinishCompletesTheRun :
    (decAfterEntry []).dec.st = .busy ∧ (decAfterEntry []).dec.phase = .entries ∧ (decAfterEntry []).dec.sp = (decAfterEntry []).dec.isLen ∧
    (decAfterEntry []).dec.cnt.toNat = (decAfterEntry []).dec.h.toNat * (decAfterEntry []).dec.w.toNat := by decide +kernel

/-- No flag byte; no last payload byte; no first byte of a whole integer before one that is cut short (log 25); no last header byte. -/
theorem witness_UnwrittenStreamByteFaults :
    (let s := decAtEntry true 0 []
     let d := { s.dec with isLen := 7 }
     d.entryReady = true ∧ Memory.get d.inp d.sp.toNat = none) ∧
    (let s := decAtEntry true 0 [8, 1, 2, 3]
     let d := { s.dec with isLen := 11 }
     d.entryReady = true ∧ Memory.get d.inp d.sp.toNat = some 8 ∧ 4 < entryLen d.gray 8 ∧
       d.sp.toNat + 1 + 4 * ((4 - 1) / 4 + 1) ≤ d.isLen.toNat ∧ Memory.get d.inp (d.sp.toNat + 4) = none) ∧
    (let s := decAtEntry false 0 [11]
     let d := { s.dec with isLen := 14 }
     d.entryReady = true ∧ Memory.get d.inp d.sp.toNat = some 11 ∧ 1 < entryLen d.gray 11 ∧
       d.sp.toNat + 1 + 4 * ((1 - 1) / 4 + 1) ≤ d.isLen.toNat ∧ Memory.get d.inp (d.sp.toNat + 1) = none ∧
       faulted (exec .decEntry { s with dec := d }) = some (.isUnwritten 7)) ∧
    (let s := decRun [1, 0, 1, 0, 0]
     let d := { s.dec with isLen := 6 }
     d.st = .busy ∧ d.phase = .header ∧ 6 ≤ d.isLen.toNat ∧ 5 < 6 ∧ Memory.get d.inp 5 = none) := by decide +kernel

theorem witness_DecoderOnlyReadsTheStream : runsOnDec .decEntry = true ∧ ∃ t, exec .decEntry (decAtEntry true 2 [0x0F, 1, 0, 0, 0]) = .next t :=
  ⟨rfl, next_of_ran (by decide +kernel)⟩

/-- A stream with a legal header, and the empty stream with area 0. -/
theorem witness_DecodeRunEnds :
    ((decRun [1, 0, 1, 0, 0, 1, 0]).decAlone ∧ (decRun [1, 0, 1, 0, 0, 1, 0]).dec.started ∧ (decRun [1, 0, 1, 0, 0, 1, 0]).dec.loaded ∧
      DecInv (decRun [1, 0, 1, 0, 0, 1, 0]).dec ∧ Memory.getBytes (decRun [1, 0, 1, 0, 0, 1, 0]).dec.inp 0 6 = .ok (encodeHeader 1 1 0 1)) ∧
    ((decRun []).decAlone ∧ (decRun []).dec.started ∧ (decRun []).dec.loaded ∧ DecInv (decRun []).dec ∧ ¬6 ≤ (decRun []).dec.isLen.toNat) := by
  refine ⟨⟨decRun_alone _, decRun_started _, ?_⟩, decRun_alone _, decRun_started _, ?_⟩ <;> unfold DecState.loaded DecInv <;> decide +kernel

theorem witness_EncoderStart : (1 : RegWord).getLsbD 0 = true ∧ (encRun true [5]).enc.st = .busy ∧ State.reset.enc.st ≠ .busy := by decide

theorem witness_DecoderStart : (1 : RegWord).getLsbD 0 = true ∧ (decRun []).dec.st = .busy ∧ State.reset.dec.st ≠ .busy := by decide

/-- Bit 0 alone and every bit but bit 0; the registers on each side of the two that store. -/
theorem witness_RegisterWrite :
    (1 : RegWord).getLsbD 0 = true ∧ (0xFFFFFFFFFFFFFFFE : RegWord).getLsbD 0 = false ∧
    (∀ n ∈ [(1 : BitVec 4), 3, 7, 9, 13, 15], n ≠ 0 ∧ n ≠ 8 ∧ n ≠ 2 ∧ n ≠ 14) ∧
    bothBusy.enc.st = .busy ∧ bothBusy.dec.st = .busy ∧ State.reset.enc.st ≠ .busy ∧ State.reset.dec.st ≠ .busy := by decide

theorem witness_StartWhileBusyIsIgnored : bothBusy.enc.st = .busy ∧ bothBusy.dec.st = .busy ∧ (0xFFFFFFFFFFFFFFFF : RegWord).getLsbD 0 = true := by decide

/-- Channel 2 of an idle unit that holds the word; channel 3; a BUSY unit. -/
theorem witness_MatrixStoreAccess :
    (State.reset.enc.st ≠ .busy ∧ (2 : BitVec 2).toNat < 3) ∧ (encRun true [5]).enc.st = .busy ∧ (3 : BitVec 2).toNat = 3 ∧
    (let s := { State.reset with enc := { EncState.initial with em := [(2, 7)] } }
     s.enc.st ≠ .busy ∧ Memory.get s.enc.em (wordAddr (0 : Dim).toNat (0 : Dim).toNat (2 : BitVec 2).toNat) = some 7 ∧
       Memory.emWf s.params s.enc.em = true) := by decide +kernel

theorem witness_InputStreamAccess :
    State.reset.dec.st ≠ .busy ∧ (decRun [9]).dec.st = .busy ∧
    (let s := { State.reset with dec := { DecState.initial with inp := [(2 ^ 40 - 1, 7)] } }
     s.dec.st ≠ .busy ∧ Memory.get s.dec.inp (0xFFFFFFFFFF : Pos).toNat = some 7) := by decide +kernel

/-- The last byte of a finished stream. -/
theorem witness_OutputStreamRead :
    let s := encAtEntry true 0 [5] none
    let e := { s.enc with st := .done, osOpen := false }
    EncInv s.params e ∧ e.osOpen = false ∧ (5 : Pos).toNat < e.osLen.toNat := by
  unfold EncInv; decide +kernel

/-- The last word of a decoded 1 x 1 colour pixel. -/
theorem witness_DestinationMatrixRead :
    let d := { DecState.initial with st := .done, dmValid := true, h := 1, w := 1 }
    d.dmValid = true ∧ (0 : Dim).toNat < d.h.toNat ∧ (0 : Dim).toNat < d.w.toNat ∧ (2 : BitVec 2).toNat < channels d.gray := by decide

theorem witness_ErrorStepWritesTheErrorRecord : (decRun []).dec.st = .busy ∧ (encRun true [5]).enc.st = .busy := by decide

/-- Unit instructions, the two writes next to START, and a step that leaves each unit's IDLE state by START. -/
theorem witness_IdleUnitDoesNothing :
    (runsOnEnc .encScale = true ∧ State.reset.enc.st ≠ .busy) ∧ (runsOnDec .decEntry = true ∧ State.reset.dec.st ≠ .busy) ∧
    ((∀ ign, Instr.wr 0 2 ≠ .encStart ign) ∧ (∀ v : RegWord, v.getLsbD 0 = true → Instr.wr 0 2 ≠ .wr 0 v) ∧
      ∃ t, exec (.wr 0 2) State.reset = .next t) ∧
    ((∀ ign, Instr.wr 0 1 ≠ .decStart ign) ∧ (∀ v : RegWord, v.getLsbD 0 = true → Instr.wr 0 1 ≠ .wr 8 v) ∧
      ∃ t, exec (.wr 0 1) State.reset = .next t) ∧
    (ran (step (idleWith [.access (.regWrite 0 1)]))).map (fun t => t.enc.st) = some .busy ∧
    (ran (step (idleWith [.access (.regWrite 8 1)]))).map (fun t => t.dec.st) = some .busy := by
  refine ⟨by decide, by decide, ⟨fun _ h => (nomatch h), fun v hv h => ?_, next_of_ran (by decide)⟩,
    ⟨fun _ h => (nomatch h), fun v _ h => ?_, next_of_ran (by decide)⟩, by decide +kernel, by decide +kernel⟩
  · cases h; exact absurd hv (by decide)
  · exact absurd (Instr.wr.inj h).1 (by decide)

theorem witness_UnitStepsCommute :
    runsOnEnc .encScale = true ∧ runsOnDec .decHeader = true ∧ (∃ t, exec .encScale bothBusy = .next t) ∧ ∃ u, exec .decHeader bothBusy = .next u :=
  ⟨rfl, rfl, next_of_ran (by decide +kernel), next_of_ran (by decide +kernel)⟩

theorem witness_UnitOutcomeDependsOnTheUnitAlone :
    (runsOnEnc .encScale = true ∧ bothBusy.enc = (encRun true [5]).enc ∧ bothBusy.params = (encRun true [5]).params ∧
      ∃ t, exec .encScale (encRun true [5]) = .next t) ∧
    (runsOnDec .decHeader = true ∧ bothBusy.dec = (decRun [1, 0, 1, 0, 0, 1, 0]).dec ∧ ∃ t, exec .decHeader (decRun [1, 0, 1, 0, 0, 1, 0]) = .next t) :=
  ⟨⟨rfl, rfl, rfl, next_of_ran (by decide +kernel)⟩, rfl, rfl, next_of_ran (by decide +kernel)⟩

theorem bothBusy_inv : bothBusy.Inv :=
  ⟨by unfold EncInv; decide +kernel, by unfold DecInv; decide +kernel⟩

theorem witness_EveryInstructionKeepsTheInvariant : bothBusy.Inv ∧ ∃ t, exec .decHeader bothBusy = .next t :=
  ⟨bothBusy_inv, next_of_ran (by decide +kernel)⟩

theorem witness_EveryStepKeepsTheInvariant : (encRun true [5]).Inv ∧ ∃ t, step (encRun true [5]) = .next t :=
  ⟨⟨by unfold EncInv; decide +kernel, by unfold DecInv; decide +kernel⟩, next_of_ran (by decide +kernel)⟩

/-- The stream the encoder leaves for the 1 x 1 grayscale matrix 5. -/
theorem test_encode_run :
    (ran (Host.Core.run Sys2Proof.core 3 (encRun true [5]))).map (fun t => (t.enc.st, written t.enc)) =
      some (.done, [1, 0, 1, 0, 0, 1, 0x08, 5, 0, 0, 0]) := by decide +kernel

/-- The 1 x 1 grayscale matrix 5, encoded in three steps, and DEC started on the stream that leaves. -/
theorem witness_RoundTrip :
    (encRun true [5]).encAlone ∧ (encRun true [5]).enc.started ∧ EncInv (encRun true [5]).params (encRun true [5]).enc ∧
    (encRun true [5]).enc.h.toNat * (encRun true [5]).enc.w.toNat ≠ 0 ∧
    ∃ t, Host.Core.run Sys2Proof.core (2 + (encRun true [5]).enc.h.toNat * (encRun true [5]).enc.w.toNat) (encRun true [5]) = .next t ∧ t.enc.st = .done ∧
      (decRun (written t.enc)).decAlone ∧ (decRun (written t.enc)).dec.started ∧ DecInv (decRun (written t.enc)).dec ∧
      (decRun (written t.enc)).dec.isLen = t.enc.osLen ∧
      ∀ a, a < t.enc.osLen.toNat → Memory.get (decRun (written t.enc)).dec.inp a = Memory.get t.enc.os a := by
  refine ⟨encRun_alone .., encRun_started .., by unfold EncInv; decide +kernel, by decide, ?_⟩
  refine ⟨(ran (Host.Core.run Sys2Proof.core 3 (encRun true [5]))).getD State.reset, eq_of_ran ?_, ?_, decRun_alone _, decRun_started _, ?_, ?_, ?_⟩
  case refine_3 => unfold DecInv; decide +kernel
  all_goals decide +kernel

end Sys2Proof.Tests
end

section
/-! SUPPORT. The round trip of 00_scope R14: what an encode run leaves in OS, what a decode run makes of a stream, and the two together. -/

namespace Sys2Proof

/-! ### Entry records and the words they stand for -/

/-- The present channels of an entry with their payloads, in stream order (R100, R103). -/
def Entry.vals : Entry → List (Nat × Payload)
  | .z _ _ | .c0 _ => []
  | .g _ _ q => [(0, q)]
  | .cB _ qb => [(2, qb)]
  | .cG _ qg => [(1, qg)]
  | .cGB _ qg qb => [(1, qg), (2, qb)]
  | .cR _ qr => [(0, qr)]
  | .cRB _ qr qb => [(0, qr), (2, qb)]
  | .cRG _ qr qg => [(0, qr), (1, qg)]
  | .cRGB _ qr qg qb => [(0, qr), (1, qg), (2, qb)]

/-- The word of DM an entry stands for at channel `ch` of its pixel: 0 for a channel that is not present (R188, R189). -/
def Entry.word (k : Shift) (ch : Nat) (en : Entry) : DmWord := ((Machine.Memory.get en.vals ch).map (Machine.dequant k)).getD 0

/-- A record of one payload integer reads it back (R99). -/
theorem takeOne_bytes (mk : Payload → Entry) (q : Payload) (rest : List Byte) :
    takeOne mk (bytesLe32 q ++ rest) = .ok (mk q, rest) := by
  simp only [takeOne, takePayload_bytes]

theorem takeTwo_bytes (mk : Payload → Payload → Entry) (q q' : Payload) (rest : List Byte) :
    takeTwo mk (bytesLe32 q ++ (bytesLe32 q' ++ rest)) = .ok (mk q q', rest) := by
  simp only [takeTwo, takePayload_bytes, takeOne_bytes]

theorem takeThree_bytes (mk : Payload → Payload → Payload → Entry) (q q' q'' : Payload) (rest : List Byte) :
    takeThree mk (bytesLe32 q ++ (bytesLe32 q' ++ (bytesLe32 q'' ++ rest))) = .ok (mk q q' q'', rest) := by
  simp only [takeThree, takePayload_bytes, takeTwo_bytes]

/-- An entry read in its mode decodes back from its bytes (R103). -/
theorem decodeEntry_encodeEntry {gray : Bool} {en : Entry} (hm : en.inMode gray = true) (rest : List Byte) :
    decodeEntry gray (encodeEntry en ++ rest) = .ok (en, rest) := by
  have present (hi p lo) : flagPresent (flagByte hi p lo) = p := (flag_roundtrip hi p lo).1
  have high (hi p lo) : flagHi (flagByte hi p lo) = hi := (flag_roundtrip hi p lo).2.1
  have low (hi p lo) : flagLo (flagByte hi p lo) = lo := (flag_roundtrip hi p lo).2.2
  cases en <;> simp only [Entry.inMode, Bool.not_eq_true'] at hm <;>
    simp [encodeEntry, decodeEntry, present, high, low, hm, takeOne_bytes, takeTwo_bytes, takeThree_bytes]

/-- A record is 1 to 13 bytes long (R101). -/
theorem encodeEntry_length_bounds (en : Entry) : 1 ≤ (encodeEntry en).length ∧ (encodeEntry en).length ≤ 13 := by
  cases en <;> simp [encodeEntry, bytesLe32_length]

/-- The channels an entry flags are distinct. -/
theorem Entry.vals_nodup (en : Entry) : (en.vals.map Prod.fst).Nodup := by
  cases en <;> simp [Entry.vals]

/-- The channels of an entry are among red, green and blue. -/
theorem Entry.channel_lt {en : Entry} {ch : Nat} {q : Payload} (h : (ch, q) ∈ en.vals) : ch < 3 := by
  cases en <;> simp only [Entry.vals, List.mem_cons, List.not_mem_nil, Prod.mk.injEq, or_false] at h <;> omega

end Sys2Proof

namespace Sys2Proof.Machine

/-! ### The step of DEC on an entry -/

/-- A record has the length `entry_len` gives for its first byte, read in its mode (R101). -/
theorem exists_flag_encodeEntry {gray : Bool} {en : Entry} (hm : en.inMode gray = true) :
    ∃ flag, (encodeEntry en)[0]? = some flag ∧ entryLen gray flag = (encodeEntry en).length := by
  obtain ⟨flag, bs, h⟩ := encodeEntry_ne en
  exact ⟨flag, by rw [h]; rfl, (encodeEntry_length en gray flag bs hm h).symm⟩

/-- The meaning of an entry read in its mode is the entry step on its length and its present channels. -/
theorem execRecord_of_inMode {en : Entry} {s : State} (hm : en.inMode s.dec.gray = true) :
    execRecord en s = .next { s with dec := decRecordStep true s.dec (encodeEntry en).length en.vals } := by
  cases en <;> simp only [Entry.inMode] at hm <;>
    simp only [execRecord, execZ, execG, execC0, execCB, execCG, execCGB, execCR, execCRB, execCRG, execCRGB, hm] <;> rfl

theorem Memory.get_ne_none_of_mem {α : Type} {m : List (Nat × α)} {a : Nat} {v : α} (h : (a, v) ∈ m) : Memory.get m a ≠ none := by
  induction m with
  | nil => cases h
  | cons c rest ih =>
    obtain ⟨b, u⟩ := c
    by_cases hab : a = b
    · simp [Memory.get, hab]
    · simp only [Memory.get, hab, if_false]
      exact ih (by simpa [hab] using h)

/-- Storing an entry's channels puts the entry's words at the cursor, where the zero fill has left zeros (R188, R189). -/
theorem getDm_storeVals_word {row col : Dim} {k : Shift} {en : Entry} {dm : List (Nat × DmWord)} {ch : Nat}
    (h0 : Memory.getDm dm (wordAddr row.toNat col.toNat ch) = 0) :
    Memory.getDm (storeVals row col k en.vals dm) (wordAddr row.toNat col.toNat ch) = en.word k ch := by
  obtain ⟨hin, hout⟩ := storeVals_get row col k en.vals dm en.vals_nodup
  cases hg : Memory.get en.vals ch with
  | some q => simp [Entry.word, hg, hin ch q (Memory.mem_of_get hg)]
  | none =>
    have habsent : ∀ ch' q, (ch', q) ∈ en.vals → wordAddr row.toNat col.toNat ch ≠ wordAddr row.toNat col.toNat ch' := by
      intro ch' q hmem heq
      have hch : ch = ch' := by simp only [wordAddr] at heq; omega
      exact Memory.get_ne_none_of_mem (hch ▸ hmem) hg
    simpa [Entry.word, hg] using (hout _ habsent).trans h0

/-! ### Quantization there and back -/

/-- `o` is what an entry carries for the coefficient `c`: nothing for zero, its payload otherwise (R131, R133). -/
def Carries (frac : Nat) (k : Shift) (c : Int) (o : Option Payload) : Prop :=
  (c = 0 ∧ o = none) ∨ ∃ q, quant frac k c = some q ∧ o = some q

/-- `dequant` loses nothing: a 32-bit payload shifted left by an 8-bit amount fits the 287 bits of a word (R153). -/
theorem toInt_dequant (k : Shift) (q : Payload) : (dequant k q).toInt = q.toInt * 2 ^ k.toNat := by
  have hk : (2 : Int) ^ k.toNat ≤ 2 ^ 255 := by
    exact_mod_cast Nat.pow_le_pow_right (by norm_num) (Nat.le_of_lt_succ k.isLt)
  have hpos : (0 : Int) < 2 ^ k.toNat := by positivity
  have hlo : -2 ^ 31 ≤ q.toInt := BitVec.le_toInt q
  have hhi : q.toInt < 2 ^ 31 := BitVec.toInt_lt
  rw [dequant, BitVec.toInt_ofInt]
  have hlow : -2 ^ 31 * 2 ^ 255 ≤ q.toInt * 2 ^ k.toNat := by nlinarith
  have hhigh : q.toInt * 2 ^ k.toNat < 2 ^ 31 * 2 ^ 255 := by nlinarith
  apply Int.bmod_eq_of_le <;> norm_num at * <;> omega

theorem toInt_of_quant {frac : Nat} {k : Shift} {c : Int} {q : Payload} (h : quant frac k c = some q) :
    q.toInt = asr (ipart frac c) k.toNat := by
  simp only [quant] at h
  split at h
  next hfit => cases h; exact ofInt_toInt32 hfit
  next => cases h

/-- The word decoded from what an entry carries is the coefficient with its low bits cleared (R14). -/
theorem Carries.toInt_word {frac : Nat} {k : Shift} {c : Int} {o : Option Payload} (h : Carries frac k c o) :
    ((o.map (dequant k)).getD 0).toInt = asr (ipart frac c) k.toNat * 2 ^ k.toNat := by
  obtain ⟨rfl, rfl⟩ | ⟨q, hq, rfl⟩ := h
  · simp [ipart, asr]
  · simp [toInt_dequant, toInt_of_quant hq]

/-! ### The entry the encoder writes -/

/-- The coefficient of a pixel at a channel (R130). -/
def Pixel.coef : Pixel → Nat → Int
  | .gray c, _ => c
  | .colour r _ _, 0 => r
  | .colour _ g _, 1 => g
  | .colour _ _ b, _ => b

/-- The layout a pixel belongs to. -/
def Pixel.isGray : Pixel → Bool
  | .gray _ => true
  | .colour _ _ _ => false

/-- The canonical grayscale entry (R102). -/
def grayEntry : Option Payload → Entry
  | none => .z 0 0
  | some q => .g 0 0 q

/-- The canonical colour entry of the channels that are present (R102). -/
def colourEntry : Option Payload → Option Payload → Option Payload → Entry
  | none, none, none => .z 0 0
  | none, none, some b => .cB 0 b
  | none, some g, none => .cG 0 g
  | none, some g, some b => .cGB 0 g b
  | some r, none, none => .cR 0 r
  | some r, none, some b => .cRB 0 r b
  | some r, some g, none => .cRG 0 r g
  | some r, some g, some b => .cRGB 0 r g b

/-- The payload bytes of a channel: none when it is not present. -/
def payloadBytes (o : Option Payload) : List Byte := (o.map bytesLe32).getD []

/-- One turn of the encoder's loop: `x` shifted left with the presence bit, and the channel's payload appended (R136). -/
theorem encLoop_cons {frac : Nat} {k : Shift} {c : Int} {cs : List Int} {x : Byte} {pending : List Byte} {out : Byte × List Byte}
    (h : encLoop frac k (c :: cs) x pending = some out) :
    ∃ o, Carries frac k c o ∧
      encLoop frac k cs ((x <<< 1) ||| BitVec.setWidth 8 (BitVec.ofBool o.isSome)) (pending ++ payloadBytes o) = some out := by
  simp only [encLoop] at h
  split at h
  next hz => exact ⟨none, .inl ⟨(iszero_iff c).mp hz, rfl⟩, by simpa [payloadBytes] using h⟩
  next =>
    split at h
    next => cases h
    next q hq => exact ⟨some q, .inr ⟨q, hq, rfl⟩, h⟩

/-- `enc_colour` writes the canonical entry of the channels it finds present (R136, R137). -/
theorem encColour_eq_some {frac : Nat} {k : Shift} {r g b : Int} {bs : List Byte} (h : encColour frac k r g b = some bs) :
    ∃ oR oG oB, Carries frac k r oR ∧ Carries frac k g oG ∧ Carries frac k b oB ∧ encodeEntry (colourEntry oR oG oB) = bs := by
  simp only [encColour] at h
  split at h
  next => cases h
  next x pending hloop =>
    obtain ⟨oR, hr, hloop⟩ := encLoop_cons hloop
    obtain ⟨oG, hg, hloop⟩ := encLoop_cons hloop
    obtain ⟨oB, hb, hloop⟩ := encLoop_cons hloop
    simp only [encLoop, Option.some.injEq, Prod.mk.injEq] at hloop
    obtain ⟨rfl, rfl⟩ := hloop
    refine ⟨oR, oG, oB, hr, hg, hb, ?_⟩
    cases oR <;> cases oG <;> cases oB <;> simpa [colourEntry, encodeEntry, flagByte, payloadBytes] using h

/-- `enc_gray` writes the canonical entry of its coefficient (R135). -/
theorem encGray_eq_some {frac : Nat} {k : Shift} {c : Int} {bs : List Byte} (h : encGray frac k c = some bs) :
    ∃ o, Carries frac k c o ∧ encodeEntry (grayEntry o) = bs := by
  simp only [encGray] at h
  split at h
  next hz => exact ⟨none, .inl ⟨(iszero_iff c).mp hz, rfl⟩, by simpa [grayEntry, encodeEntry, flagByte] using h⟩
  next =>
    split at h
    next => cases h
    next q hq => exact ⟨some q, .inr ⟨q, hq, rfl⟩, by simpa [grayEntry, encodeEntry, flagByte] using h⟩

/-- The words of the canonical colour entry are the words of its channels. -/
theorem word_colourEntry (k : Shift) (oR oG oB : Option Payload) :
    (colourEntry oR oG oB).word k 0 = (oR.map (dequant k)).getD 0 ∧
    (colourEntry oR oG oB).word k 1 = (oG.map (dequant k)).getD 0 ∧
    (colourEntry oR oG oB).word k 2 = (oB.map (dequant k)).getD 0 := by
  cases oR <;> cases oG <;> cases oB <;> exact ⟨rfl, rfl, rfl⟩

/-- The bytes `enc_entry` gives for a pixel are an entry of its layout whose words are its coefficients with their low bits cleared
(R14, 95_test_vectors section 4). -/
theorem encEntry_eq_some {frac : Nat} {k : Shift} {pix : Pixel} {bs : List Byte} (h : encEntry frac k pix = some bs) :
    ∃ en, encodeEntry en = bs ∧ en.inMode pix.isGray = true ∧ ∀ ch < channels pix.isGray,
      (en.word k ch).toInt = asr (ipart frac (pix.coef ch)) k.toNat * 2 ^ k.toNat := by
  cases pix with
  | gray c =>
    obtain ⟨o, hc, hbytes⟩ := encGray_eq_some h
    refine ⟨grayEntry o, hbytes, by cases o <;> rfl, fun ch hch => ?_⟩
    obtain rfl : ch = 0 := by simpa [Pixel.isGray, channels] using hch
    rw [Pixel.coef, ← hc.toInt_word]
    cases o <;> rfl
  | colour r g b =>
    obtain ⟨oR, oG, oB, hr, hg, hb, hbytes⟩ := encColour_eq_some h
    obtain ⟨hwr, hwg, hwb⟩ := word_colourEntry k oR oG oB
    refine ⟨colourEntry oR oG oB, hbytes, by cases oR <;> cases oG <;> cases oB <;> rfl, fun ch hch => ?_⟩
    obtain rfl | rfl | rfl : ch = 0 ∨ ch = 1 ∨ ch = 2 := by
      have hlt : ch < 3 := hch
      omega
    · rw [hwr]; exact hr.toInt_word
    · rw [hwg]; exact hg.toInt_word
    · rw [hwb]; exact hb.toInt_word

/-! ### Streams -/

/-- What the header record of a stream says (R91). -/
structure Header where
  height : Dim
  width : Dim
  shift : Shift
  gray : Bool

/-- The six bytes of the header (R94). -/
def Header.bytes (hd : Header) : List Byte :=
  encodeHeader hd.height hd.width hd.shift (if hd.gray then 0x01#8 else 0x00#8)

/-- The number of pixels. -/
def Header.area (hd : Header) : Nat := hd.height.toNat * hd.width.toNat

/-- The address of channel `ch` of the `i`-th pixel in raster order (R61, R65). -/
def Header.wordAt (hd : Header) (i ch : Nat) : Nat := wordAddr (i / hd.width.toNat) (i % hd.width.toNat) ch

/-- The stream of a header and a list of entries (R90). -/
def Header.stream (hd : Header) (es : List Entry) : List Byte := hd.bytes ++ es.flatMap encodeEntry

/-- The header ENC writes. -/
def EncState.header (e : EncState) : Header := ⟨e.h, e.w, e.shift, e.gray⟩

/-- The header DEC has latched. -/
def DecState.header (d : DecState) : Header := ⟨d.h, d.w, d.shift, d.gray⟩

@[simp] theorem EncState.append_header (e : EncState) (bs : List Byte) : (e.append bs).header = e.header := rfl
@[simp] theorem EncState.advance_header (e : EncState) : e.advance.header = e.header := rfl
@[simp] theorem DecState.consume_header (d : DecState) (len : Nat) (vals : List (Nat × Payload)) :
    (d.consume len vals).header = d.header := rfl
@[simp] theorem DecState.finish_header (d : DecState) : d.finish.header = d.header := rfl

theorem encHeaderBytes_eq (e : EncState) : encHeaderBytes e = e.header.bytes := rfl

theorem Header.bytes_length (hd : Header) : hd.bytes.length = 6 := rfl

theorem Header.stream_length (hd : Header) (es : List Entry) :
    (hd.stream es).length = 6 + (es.flatMap encodeEntry).length := by
  rw [Header.stream, List.length_append, Header.bytes_length]

theorem Header.stream_append (hd : Header) (es : List Entry) (en : Entry) :
    hd.stream (es ++ [en]) = hd.stream es ++ encodeEntry en := by
  simp [Header.stream]

/-- The header bytes read back as the header's fields (R91, R94). -/
theorem decodeHeader_bytes (hd : Header) :
    decodeHeader hd.bytes = .ok (.hdr hd.height hd.width hd.shift (if hd.gray then 0x01#8 else 0x00#8), []) := by
  simp [Header.bytes, encodeHeader, bytesLe16, decodeHeader, le16_bytes]

theorem flatMap_encodeEntry_length_le (es : List Entry) : (es.flatMap encodeEntry).length ≤ 13 * es.length := by
  induction es with
  | nil => simp
  | cons en es ih =>
    have := (encodeEntry_length_bounds en).2
    simp only [List.flatMap_cons, List.length_append, List.length_cons]
    omega

theorem Header.area_le (hd : Header) : hd.area ≤ 65535 * 65535 :=
  Nat.mul_le_mul (Nat.le_of_lt_succ hd.height.isLt) (Nat.le_of_lt_succ hd.width.isLt)

/-- A stream of at most the header's number of entries stays far below the width of a position (R28, R36). -/
theorem Header.stream_length_lt (hd : Header) {es : List Entry} (h : es.length ≤ hd.area) :
    (hd.stream es).length + 13 < 2 ^ 40 := by
  have := flatMap_encodeEntry_length_le es
  have := hd.area_le
  rw [Header.stream_length]
  omega

/-- The pixel at a cursor that agrees with the count (R27, R35). -/
theorem Header.wordAt_cursor (hd : Header) {row col : Nat} (ch : Nat) (hcol : col < hd.width.toNat) :
    hd.wordAt (row * hd.width.toNat + col) ch = wordAddr row col ch := by
  have hdiv : (row * hd.width.toNat + col) / hd.width.toNat = row := by
    rw [Nat.add_comm, Nat.add_mul_div_right _ _ (by omega), Nat.div_eq_of_lt hcol, Nat.zero_add]
  have hmod : (row * hd.width.toNat + col) % hd.width.toNat = col := by
    rw [Nat.add_comm, Nat.add_mul_mod_self_right, Nat.mod_eq_of_lt hcol]
  rw [Header.wordAt, hdiv, hmod]

/-- A pixel of the shape has its place in raster order (R65). -/
theorem Header.raster_lt_area (hd : Header) {r c : Nat} (hr : r < hd.height.toNat) (hc : c < hd.width.toNat) :
    r * hd.width.toNat + c < hd.area :=
  calc r * hd.width.toNat + c < r * hd.width.toNat + hd.width.toNat := by omega
    _ = (r + 1) * hd.width.toNat := by ring
    _ ≤ hd.area := Nat.mul_le_mul_right _ hr

/-- Different pixels have different words. -/
theorem Header.wordAt_inj (hd : Header) {i j ch ch' : Nat} (hw : 0 < hd.width.toNat) (hch : ch < 4) (hch' : ch' < 4)
    (h : hd.wordAt i ch = hd.wordAt j ch') : i = j := by
  have hi := Nat.mod_lt i hw
  have hj := Nat.mod_lt j hw
  have hlt := hd.width.isLt
  simp only [Header.wordAt, wordAddr] at h
  have hdiv : i / hd.width.toNat = j / hd.width.toNat := by omega
  have hmod : i % hd.width.toNat = j % hd.width.toNat := by omega
  rw [← Nat.div_add_mod i hd.width.toNat, ← Nat.div_add_mod j hd.width.toNat, hdiv, hmod]

theorem channels_le (gray : Bool) : channels gray ≤ 3 := by cases gray <;> decide

/-- A part of a span that reads, reads. -/
theorem Memory.getBytes_slice {m : List Host.Cell} {a n : Nat} {pre mid post : List Byte}
    (h : Memory.getBytes m a n = .ok (pre ++ mid ++ post)) : Memory.getBytes m (a + pre.length) mid.length = .ok mid := by
  rw [Memory.getBytes_ok_iff] at h ⊢
  obtain ⟨hlen, hget⟩ := h
  simp only [List.length_append] at hlen
  refine ⟨rfl, fun i hi => ?_⟩
  rw [Nat.add_assoc, hget _ (by omega), List.append_assoc, List.getElem?_append_right (by omega), Nat.add_sub_cancel_left,
    List.getElem?_append_left hi]

/-- A span reads the same in a memory that agrees on it. -/
theorem Memory.getBytes_congr {m m' : List Host.Cell} {a n : Nat} {bs : List Byte}
    (hm : ∀ i, i < n → Memory.get m' (a + i) = Memory.get m (a + i)) (h : Memory.getBytes m a n = .ok bs) :
    Memory.getBytes m' a n = .ok bs := by
  rw [Memory.getBytes_ok_iff] at h ⊢
  exact ⟨h.1, fun i hi => (hm i hi).trans (h.2 i hi)⟩

/-- What stands in OS below OS_LEN after an append (R68). -/
theorem Appended.getBytes {e f : EncState} {old new : List Byte} (h : Appended e f new)
    (hold : Memory.getBytes e.os 0 e.osLen.toNat = .ok old) : Memory.getBytes f.os 0 f.osLen.toNat = .ok (old ++ new) := by
  obtain ⟨hlen, hnew, hkeep⟩ := h
  have hbefore : Memory.getBytes f.os 0 e.osLen.toNat = .ok old :=
    Memory.getBytes_congr (fun i hi => hkeep _ (by omega)) hold
  have hafter : Memory.getBytes f.os (0 + e.osLen.toNat) new.length = .ok new :=
    (Memory.getBytes_ok_iff ..).mpr ⟨rfl, fun i hi => by rw [Nat.zero_add]; exact hnew i hi⟩
  rw [hlen, Memory.getBytes_add, hbefore, hafter]

/-! ### Runs of one unit -/

/-- A machine with nothing to do stays as it is (log 6). -/
theorem step_idle {s : State} (hl : s.params.legal = true) (hp : s.host.pending = []) (he : s.enc.st ≠ .busy)
    (hd : s.dec.st ≠ .busy) : step s = .next s := by
  simp [step, hl, nextMove, chooseAgent, enabledAgents, hp, he, hd]

theorem run_idle {s : State} (hl : s.params.legal = true) (hp : s.host.pending = []) (he : s.enc.st ≠ .busy)
    (hd : s.dec.st ≠ .busy) (n : Nat) : Host.Core.run Sys2Proof.core n s = .next s := by
  induction n with
  | zero => rfl
  | succ n ih => exact (run_of_next Sys2Proof.core (step_idle hl hp he hd)).trans ih

/-- A run that answers a state took its first step. -/
theorem exists_step_of_run (M : Host.Core) {n : Nat} {s t : M.State} (h : M.run (n + 1) s = .next t) :
    ∃ s', M.step s = .next s' ∧ M.run n s' = .next t := by
  rw [Host.Core.run] at h
  split at h
  next s' hs => exact ⟨s', hs, h⟩
  next => cases h
  next => cases h

/-- After the error step of ENC the run stays in ERROR (R227). -/
theorem run_raise {s t : State} {x : ErrKind} {n : Nat} (halone : s.encAlone)
    (h : Host.Core.run Sys2Proof.core n { s with enc := s.enc.raise x } = .next t) : t.enc.st = .error := by
  obtain ⟨hlegal, hpending, hdec⟩ := halone
  have hidle := run_idle (s := { s with enc := s.enc.raise x }) hlegal hpending (by simp) hdec n
  cases hidle.symm.trans h
  rfl

/-! ### The encode run -/

/-- `en` carries the `i`-th pixel of the matrix `em`: an entry of the layout whose words are the coefficients with their low bits
cleared (R14). -/
def CarriesPixel (p : Params) (hd : Header) (em : List (Nat × Nat)) (i : Nat) (en : Entry) : Prop :=
  en.inMode hd.gray = true ∧ ∀ ch < channels hd.gray, ∃ x, Memory.get em (hd.wordAt i ch) = some x ∧
    (en.word hd.shift ch).toInt = asr (ipart p.frac (sextBits p.coefW x)) hd.shift.toNat * 2 ^ hd.shift.toNat

/-- What holds of ENC once it has written its header and the entries `es`, and nothing has been raised. -/
structure Encoded (p : Params) (es : List Entry) (e : EncState) : Prop where
  stream : Memory.getBytes e.os 0 e.osLen.toNat = .ok (e.header.stream es)
  pixels : ∀ i en, es[i]? = some en → CarriesPixel p e.header e.em i en
  count : e.cnt.toNat = es.length
  cursor : e.cnt.toNat = e.row.toNat * e.w.toNat + e.col.toNat ∧ e.col.toNat < e.w.toNat
  running : es.length < e.header.area → e.st = .busy ∧ e.phase = .entries

theorem emWord_eq_ok {p : Params} {e : EncState} {row col ch : Nat} {c : Int} (h : emWord p e row col ch = .ok c) :
    ∃ x, Memory.get e.em (wordAddr row col ch) = some x ∧ c = sextBits p.coefW x := by
  simp only [emWord] at h
  split at h
  next => cases h
  next x hx => cases h; exact ⟨x, hx, rfl⟩

/-- The pixel at the cursor has the layout of the matrix, and its coefficients are the words of EM there (R174). -/
theorem pixelAt_eq_ok {p : Params} {e : EncState} {pix : Pixel} (h : pixelAt p e = .ok pix) :
    pix.isGray = e.gray ∧ ∀ ch < channels e.gray, ∃ x,
      Memory.get e.em (wordAddr e.row.toNat e.col.toNat ch) = some x ∧ pix.coef ch = sextBits p.coefW x := by
  simp only [pixelAt] at h
  split at h
  next => cases h
  next c0 h0 =>
    split at h
    next hg =>
      cases h
      refine ⟨by simp [Pixel.isGray, hg], fun ch hch => ?_⟩
      obtain rfl : ch = 0 := by simpa [channels, hg] using hch
      exact emWord_eq_ok h0
    next hg =>
      split at h
      next => cases h
      next c1 h1 =>
        split at h
        next => cases h
        next c2 h2 =>
          cases h
          refine ⟨by simpa [Pixel.isGray] using hg, fun ch hch => ?_⟩
          obtain rfl | rfl | rfl : ch = 0 ∨ ch = 1 ∨ ch = 2 := by
            simp only [channels, if_neg hg] at hch; omega
          · exact emWord_eq_ok h0
          · exact emWord_eq_ok h1
          · exact emWord_eq_ok h2

/-- The record of an ENTRY step is an entry that carries the next pixel (R174). -/
theorem Encoded.next_pixel {p : Params} {es : List Entry} {e : EncState} {pix : Pixel} {bs : List Byte} (h : Encoded p es e)
    (hpix : pixelAt p e = .ok pix) (hbs : encEntry p.frac e.shift pix = some bs) :
    ∃ en, encodeEntry en = bs ∧ CarriesPixel p e.header e.em es.length en := by
  obtain ⟨hlayout, hcoef⟩ := pixelAt_eq_ok hpix
  obtain ⟨en, hbytes, hmode, hword⟩ := encEntry_eq_some hbs
  rw [hlayout] at hmode hword
  obtain ⟨hcur, hcol⟩ := h.cursor
  refine ⟨en, hbytes, hmode, fun ch hch => ?_⟩
  have haddr : e.header.wordAt es.length ch = wordAddr e.row.toNat e.col.toNat ch := by
    rw [← h.count, hcur]; exact e.header.wordAt_cursor ch hcol
  obtain ⟨x, hx, hc⟩ := hcoef ch hch
  exact ⟨x, haddr ▸ hx, hc ▸ hword ch hch⟩

/-- An ENTRY step that appends its record extends what ENC has written by one entry (R174, R175). -/
theorem Encoded.advance {p : Params} {es : List Entry} {e : EncState} {pix : Pixel} {bs : List Byte} (h : Encoded p es e)
    (hlt : es.length < e.header.area) (hpix : pixelAt p e = .ok pix) (hbs : encEntry p.frac e.shift pix = some bs) :
    ∃ en, Encoded p (es ++ [en]) (e.append bs).advance := by
  obtain ⟨en, rfl, hpixel⟩ := h.next_pixel hpix hbs
  obtain ⟨hcur, hcol⟩ := h.cursor
  obtain ⟨hcnt', hcur', hcol'⟩ := cursor_step (h := e.h) hcur hcol (by rw [h.count]; exact hlt)
  obtain ⟨hbusy, hphase⟩ := h.running hlt
  have hroom : e.osLen.toNat + (encodeEntry en).length < 2 ^ 40 := by
    have hlen := ((Memory.getBytes_ok_iff ..).mp h.stream).1
    have hstream := e.header.stream_length_lt hlt.le
    have hentry := (encodeEntry_length_bounds en).2
    omega
  have happend : Appended e (e.append (encodeEntry en)).advance (encodeEntry en) := (advance_emitted hroom).1
  have harea : e.header.area = e.h.toNat * e.w.toNat := rfl
  refine ⟨en, ?stream, ?pixels, by simpa [h.count] using hcnt', ⟨hcur', hcol'⟩, ?running⟩
  case stream =>
    rw [EncState.advance_header, EncState.append_header, Header.stream_append]
    exact happend.getBytes h.stream
  case pixels =>
    intro i en' hi
    rw [List.getElem?_append] at hi
    split at hi
    next => exact h.pixels i en' hi
    next hge =>
      rw [List.getElem?_singleton] at hi
      split at hi
      next h0 =>
        cases hi
        obtain rfl : i = es.length := by omega
        exact hpixel
      next => cases hi
  case running =>
    intro hlt'
    simp only [List.length_append, List.length_singleton, EncState.advance_header, EncState.append_header] at hlt'
    simp [hbusy, hphase, h.count, ← harea, hlt'.ne]

/-- An ENTRY step of ENC raises, or appends the record it was given (R174). -/
theorem emitEntry_cases (p : Params) (e : EncState) (o : Option (List Byte)) :
    (∃ x, emitEntry p e o = e.raise x) ∨ ∃ bs, o = some bs ∧ emitEntry p e o = (e.append bs).advance := by
  cases o with
  | none => exact .inl ⟨_, rfl⟩
  | some bs =>
    cases hcap : overCap p e bs.length with
    | true => exact .inl ⟨.ioFailure, by simp [emitEntry, hcap]⟩
    | false => exact .inr ⟨bs, rfl, by simp [emitEntry, hcap]⟩

/-- The step of ENC in its ENTRIES phase, where it does not fault (R174). -/
theorem step_encEntries {s s' : State} (halone : s.encAlone) (hbusy : s.enc.st = .busy) (hphase : s.enc.phase = .entries)
    (h : step s = .next s') : ∃ pix, pixelAt s.params s.enc = .ok pix ∧
      s' = { s with enc := emitEntry s.params s.enc (encEntry s.params.frac s.enc.shift pix) } := by
  have hin : s.enc.inEntries = true := by simp [EncState.inEntries, hbusy, hphase]
  rw [step_encAlone halone hbusy] at h
  simp only [encDispatch, hphase, exec, execEncEntry, hin, if_true] at h
  split at h
  next => cases h
  next pix hpix => cases h; exact ⟨pix, hpix, rfl⟩

/-- An encode run from the ENTRIES phase that ends in DONE has written one entry per pixel. -/
theorem encoded_of_run {n : Nat} : ∀ {s t : State} {es : List Entry}, s.encAlone → Encoded s.params es s.enc →
    es.length + n = s.enc.header.area → Host.Core.run Sys2Proof.core n s = .next t → t.enc.st = .done →
    t.enc.header = s.enc.header ∧ t.enc.em = s.enc.em ∧
      ∃ es', es'.length = s.enc.header.area ∧ Encoded s.params es' t.enc := by
  induction n with
  | zero =>
    intro s t es _ henc hn hrun _
    cases hrun
    exact ⟨rfl, rfl, es, hn, henc⟩
  | succ n ih =>
    intro s t es halone henc hn hrun hdone
    have hlt : es.length < s.enc.header.area := by omega
    obtain ⟨hbusy, hphase⟩ := henc.running hlt
    obtain ⟨s', hstep, hrun⟩ := exists_step_of_run Sys2Proof.core hrun
    obtain ⟨pix, hpix, rfl⟩ := step_encEntries halone hbusy hphase hstep
    obtain ⟨x, hemit⟩ | ⟨bs, hbs, hemit⟩ := emitEntry_cases s.params s.enc (encEntry s.params.frac s.enc.shift pix) <;>
      rw [hemit] at hrun
    · cases hdone.symm.trans (run_raise halone hrun)
    · obtain ⟨en, henc'⟩ := henc.advance hlt hpix hbs
      have hn' : (es ++ [en]).length + n = s.enc.header.area := by
        rw [List.length_append, List.length_singleton]; omega
      exact ih (s := { s with enc := (s.enc.append bs).advance }) halone henc' hn' hrun hdone

/-- ENC after its SCALE step with the shift `k` (R121). -/
def EncState.scaled (e : EncState) (k : Shift) : EncState := { e with shift := k, phase := .header }

/-- ENC after the HEADER step of a matrix of non-zero area (R173). -/
def EncState.headed (e : EncState) : EncState := { e.append e.header.bytes with phase := .entries }

@[simp] theorem EncState.headed_header (e : EncState) : e.headed.header = e.header := rfl

/-- The SCALE step of a run that goes on chooses a shift and nothing else (R121). -/
theorem step_encScale {s s' : State} (halone : s.encAlone) (hbusy : s.enc.st = .busy) (hphase : s.enc.phase = .scale)
    (h : step s = .next s') : ∃ k, s' = { s with enc := s.enc.scaled k } := by
  rw [step_encAlone halone hbusy] at h
  simp only [encDispatch, hphase, exec, execEncScale, hbusy, and_self, if_true] at h
  split at h
  next => cases h
  next m _ => cases h; exact ⟨BitVec.ofNat 8 (scaleOf s.params.frac m), by rw [EncState.scaled, hbusy]⟩

theorem step_encHeader {s : State} (halone : s.encAlone) (hbusy : s.enc.st = .busy) (hphase : s.enc.phase = .header) :
    step s = .next { s with enc := encHeaderStep s.params s.enc } := by
  simp only [step_encAlone halone hbusy, encDispatch, hphase, exec, execEncHeader]

/-- The HEADER step of ENC on a matrix of non-zero area raises, or writes the header and goes on to the entries (R173). -/
theorem encHeaderStep_cases {p : Params} {e : EncState} (hbusy : e.st = .busy) (hphase : e.phase = .header)
    (harea : e.header.area ≠ 0) : (∃ x, encHeaderStep p e = e.raise x) ∨ encHeaderStep p e = e.headed := by
  have harea' : ¬ (e.append e.header.bytes).h.toNat * (e.append e.header.bytes).w.toNat = 0 := harea
  cases hcap : overCap p e e.header.bytes.length with
  | true => exact .inl ⟨.ioFailure, by simp [encHeaderStep, hbusy, hphase, encHeaderBytes_eq, hcap]⟩
  | false =>
    right
    simp only [encHeaderStep, hbusy, hphase, encHeaderBytes_eq, hcap, and_self, if_true, Bool.false_eq_true, if_false,
      EncState.afterHeader, harea', EncState.headed]

/-- After the header ENC has written no entry yet. -/
theorem encoded_headed {p : Params} {e : EncState} (hbusy : e.st = .busy) (hcnt : e.cnt = 0) (hrow : e.row = 0) (hcol : e.col = 0)
    (hlen : e.osLen = 0) (harea : e.header.area ≠ 0) : Encoded p [] e.headed := by
  have hw : 0 < e.w.toNat := Nat.pos_of_ne_zero fun h0 => harea (by simp [Header.area, EncState.header, h0])
  have happend : Appended e e.headed e.header.bytes :=
    append_appended (by rw [hlen, Header.bytes_length]; decide)
  have hempty : Memory.getBytes e.os 0 e.osLen.toNat = .ok [] := by rw [hlen]; rfl
  refine ⟨?_, by simp, by simp [EncState.headed, hcnt], ⟨by simp [EncState.headed, hcnt, hrow, hcol], ?_⟩,
    fun _ => ⟨hbusy, rfl⟩⟩
  · rw [EncState.headed_header, Header.stream, List.flatMap_nil, List.append_nil]
    exact happend.getBytes hempty
  · simpa [EncState.headed, hcol] using hw

/-- An encode run from the HEADER phase that ends in DONE has written the header and one entry per pixel. -/
theorem encoded_of_header_run {s t : State} (halone : s.encAlone) (hbusy : s.enc.st = .busy) (hphase : s.enc.phase = .header)
    (hcnt : s.enc.cnt = 0) (hrow : s.enc.row = 0) (hcol : s.enc.col = 0) (hlen : s.enc.osLen = 0) (harea : s.enc.header.area ≠ 0)
    (hrun : Host.Core.run Sys2Proof.core (s.enc.header.area + 1) s = .next t) (hdone : t.enc.st = .done) :
    t.enc.header = s.enc.header ∧ t.enc.em = s.enc.em ∧ ∃ es, es.length = s.enc.header.area ∧ Encoded s.params es t.enc := by
  obtain ⟨s', hstep, hrun⟩ := exists_step_of_run Sys2Proof.core hrun
  cases (step_encHeader halone hbusy hphase).symm.trans hstep
  obtain ⟨x, hheader⟩ | hheader := encHeaderStep_cases (p := s.params) hbusy hphase harea <;> rw [hheader] at hrun
  · cases hdone.symm.trans (run_raise halone hrun)
  · exact encoded_of_run (s := { s with enc := s.enc.headed }) halone (encoded_headed hbusy hcnt hrow hcol hlen harea)
      (Nat.zero_add _) hrun hdone

/-- What an encode run from START that ends in DONE leaves in OS: the header and one entry per pixel, each carrying its pixel. -/
theorem encoded_of_encode_run {s t : State} (halone : s.encAlone) (hstarted : s.enc.started)
    (harea : s.enc.h.toNat * s.enc.w.toNat ≠ 0)
    (hrun : Host.Core.run Sys2Proof.core (2 + s.enc.h.toNat * s.enc.w.toNat) s = .next t) (hdone : t.enc.st = .done) :
    t.enc.header = ⟨s.enc.h, s.enc.w, t.enc.shift, s.enc.gray⟩ ∧ t.enc.em = s.enc.em ∧
      ∃ es, es.length = t.enc.header.area ∧ Encoded s.params es t.enc := by
  obtain ⟨hbusy, hphase, -, -, hrow, hcol, hcnt, hlen, -⟩ := hstarted
  rw [Nat.add_comm] at hrun
  obtain ⟨s', hscale, hrun⟩ := exists_step_of_run Sys2Proof.core hrun
  obtain ⟨k, rfl⟩ := step_encScale halone hbusy hphase hscale
  obtain ⟨hhd, hem, es, hes, henc⟩ := encoded_of_header_run (s := { s with enc := s.enc.scaled k }) halone hbusy rfl
    hcnt hrow hcol hlen harea hrun hdone
  have hshift : t.enc.shift = k := congrArg Header.shift hhd
  exact ⟨hshift ▸ hhd, hem, es, hhd ▸ hes, henc⟩

/-! ### The decode run -/

/-- What holds of DEC once it has read the header and the entries `es` of a stream that goes on with the entries `rest`. -/
structure Decoded (es rest : List Entry) (d : DecState) : Prop where
  busy : d.st = .busy
  phase : d.phase = .entries
  stream : Memory.getBytes d.inp 0 d.isLen.toNat = .ok (d.header.stream (es ++ rest))
  modes : ∀ en ∈ rest, en.inMode d.gray = true
  length_eq : (es ++ rest).length = d.header.area
  count : d.cnt.toNat = es.length
  cursor : d.cnt.toNat = d.row.toNat * d.w.toNat + d.col.toNat ∧ d.col.toNat < d.w.toNat
  position : d.sp.toNat = (d.header.stream es).length
  words : ∀ i ch, ch < channels d.gray → i < d.header.area →
    Memory.getDm d.dm (d.header.wordAt i ch) = ((es[i]?).map (Entry.word d.shift ch)).getD 0

/-- The fetch at D_SP of a whole record, read in its mode, gives the entry (R150). -/
theorem fetchEntry_of_bytes {d : DecState} {en : Entry} (hm : en.inMode d.gray = true)
    (hfit : d.sp.toNat + (encodeEntry en).length ≤ d.isLen.toNat)
    (hbs : Memory.getBytes d.inp d.sp.toNat (encodeEntry en).length = .ok (encodeEntry en)) : fetchEntry d = .entry en := by
  obtain ⟨flag, hflag, hlen⟩ := exists_flag_encodeEntry hm
  have hget : Memory.get d.inp d.sp.toNat = some flag := by
    rw [← hflag]
    exact ((Memory.getBytes_ok_iff ..).mp hbs).2 0 (encodeEntry_length_bounds en).1
  have hdecode : decodeEntry d.gray (encodeEntry en) = .ok (en, []) := by
    simpa using decodeEntry_encodeEntry hm []
  simp only [fetchEntry, hget, recordSpan, hlen, hfit, if_true, hbs, hdecode]

/-- Where the next entry stands in the stream. -/
theorem Decoded.next_entry {es rest : List Entry} {en : Entry} {d : DecState} (h : Decoded es (en :: rest) d) :
    d.sp.toNat + (encodeEntry en).length ≤ d.isLen.toNat ∧
    Memory.getBytes d.inp d.sp.toNat (encodeEntry en).length = .ok (encodeEntry en) := by
  have hsplit : d.header.stream (es ++ en :: rest) = d.header.stream es ++ encodeEntry en ++ rest.flatMap encodeEntry := by
    simp [Header.stream]
  have hstream := h.stream
  rw [hsplit] at hstream
  have hlen := ((Memory.getBytes_ok_iff ..).mp hstream).1
  have hslice := Memory.getBytes_slice hstream
  rw [h.position]
  rw [List.length_append, List.length_append] at hlen
  exact ⟨by omega, by rwa [Nat.zero_add] at hslice⟩

/-- The cursor of DEC stands at the pixel after the ones it has read (R35). -/
theorem Decoded.wordAddr_cursor {es rest : List Entry} {d : DecState} (h : Decoded es rest d) (ch : Nat) :
    wordAddr d.row.toNat d.col.toNat ch = d.header.wordAt es.length ch := by
  obtain ⟨hcur, hcol⟩ := h.cursor
  rw [← h.count, hcur]
  exact (d.header.wordAt_cursor ch hcol).symm

/-- DM over the shape after the next entry's stores: its words at the cursor, every other pixel as before (R189). -/
theorem Decoded.words_storeVals {es rest : List Entry} {d : DecState} (h : Decoded es rest d) (en : Entry) {i ch : Nat}
    (hch : ch < channels d.gray) (hi : i < d.header.area) :
    Memory.getDm (storeVals d.row d.col d.shift en.vals d.dm) (d.header.wordAt i ch) =
      (((es ++ [en])[i]?).map (Entry.word d.shift ch)).getD 0 := by
  have hold := h.words i ch hch hi
  by_cases hcursor : i = es.length
  · subst hcursor
    rw [← h.wordAddr_cursor] at hold ⊢
    rw [getDm_storeVals_word (by simpa using hold)]
    simp
  · have hother : ∀ ch' q, (ch', q) ∈ en.vals → d.header.wordAt i ch ≠ wordAddr d.row.toNat d.col.toNat ch' := by
      intro ch' q hmem heq
      have hch' := Entry.channel_lt hmem
      have hchannels := channels_le d.gray
      rw [h.wordAddr_cursor] at heq
      exact hcursor (d.header.wordAt_inj (Nat.zero_lt_of_lt h.cursor.2) (by omega) (by omega) heq)
    have hsame : (es ++ [en])[i]? = es[i]? := by
      rw [List.getElem?_append]
      split
      · rfl
      · rw [List.getElem?_eq_none (by rw [List.length_singleton]; omega), List.getElem?_eq_none (by omega)]
    rw [(storeVals_get d.row d.col d.shift _ d.dm en.vals_nodup).2 _ hother, hold, hsame]

/-- The entry step on the next entry of the stream. -/
theorem Decoded.consume {es rest : List Entry} {en : Entry} {d : DecState} (h : Decoded es (en :: rest) d) :
    Decoded (es ++ [en]) rest (d.consume (encodeEntry en).length en.vals) := by
  obtain ⟨hcur, hcol⟩ := h.cursor
  obtain ⟨hfit, -⟩ := h.next_entry
  have hlt : es.length < d.header.area := by
    rw [← h.length_eq, List.length_append, List.length_cons]; omega
  obtain ⟨hcnt', hcur', hcol'⟩ := cursor_step (h := d.h) hcur hcol (by rw [h.count]; exact hlt)
  have hassoc : es ++ [en] ++ rest = es ++ en :: rest := by simp
  refine ⟨h.busy, h.phase, hassoc ▸ h.stream, fun x hx => h.modes x (List.mem_cons_of_mem _ hx), hassoc ▸ h.length_eq,
    by simpa [h.count] using hcnt', ⟨hcur', hcol'⟩, ?position, fun i ch hch hi => h.words_storeVals en hch hi⟩
  have hroom := d.isLen.isLt
  rw [DecState.consume_header, Header.stream_append, List.length_append, ← h.position]
  simp only [DecState.consume_sp, BitVec.toNat_add, BitVec.toNat_ofNat]
  omega

/-- The step of DEC while entries are left (R189, R190). -/
theorem Decoded.step_entry {es rest : List Entry} {en : Entry} {u : State} (halone : u.decAlone) (h : Decoded es (en :: rest) u.dec) :
    step u = .next { u with dec := u.dec.consume (encodeEntry en).length en.vals } := by
  obtain ⟨hfit, hbytes⟩ := h.next_entry
  have hm : en.inMode u.dec.gray = true := h.modes en (List.mem_cons_self ..)
  have hpos := (encodeEntry_length_bounds en).1
  have hne : u.dec.sp ≠ u.dec.isLen := fun heq => by rw [heq] at hfit; omega
  have htotal : u.dec.total = u.dec.header.area := rfl
  have hlt : u.dec.cnt.toNat < u.dec.total := by
    rw [htotal, ← h.length_eq, h.count, List.length_append, List.length_cons]; omega
  have hready : u.dec.entryReady = true := by
    simp only [DecState.entryReady, h.busy, h.phase, hlt, beq_self_eq_true, decide_true, Bool.and_true, Bool.true_and,
      decide_eq_true_eq]
    omega
  have hdispatch : decDispatch u.dec = .decEntry := by
    simp only [decDispatch, h.phase, hne, hlt.ne, if_false]
  have hrecord : decRecordStep true u.dec (encodeEntry en).length en.vals =
      u.dec.consume (encodeEntry en).length en.vals := by
    simp only [decRecordStep, hready, Bool.and_true, if_true, Nat.not_lt.mpr hfit, if_false]
  rw [step_decAlone halone h.busy, hdispatch, exec, execDecEntry, if_pos hready, fetchEntry_of_bytes hm hfit hbytes]
  simp only [execRecord_of_inMode hm, hrecord]

/-- The step of DEC at the end of a stream with an entry for every pixel (R190). -/
theorem Decoded.step_finish {es : List Entry} {u : State} (halone : u.decAlone) (h : Decoded es [] u.dec) :
    step u = .next { u with dec := u.dec.finish } := by
  have hsp : u.dec.sp = u.dec.isLen := by
    apply BitVec.eq_of_toNat_eq
    rw [h.position, ← ((Memory.getBytes_ok_iff ..).mp h.stream).1, List.append_nil]
  have hcnt : u.dec.cnt.toNat = u.dec.total := by
    have := h.length_eq
    rw [List.append_nil, ← h.count] at this
    exact this
  simp only [step_decAlone halone h.busy, decDispatch, h.phase, hsp, hcnt, if_true, exec, execDecFinish, h.busy, and_self]

/-- A decode run from the ENTRIES phase over entries for every pixel ends in DONE with the words of the entries in DM. -/
theorem run_of_decoded {rest : List Entry} : ∀ {es : List Entry} {u : State}, u.decAlone → Decoded es rest u.dec →
    ∃ v, Host.Core.run Sys2Proof.core (rest.length + 1) u = .next v ∧ v.dec.st = .done ∧ v.dec.dmValid = true ∧
      v.dec.header = u.dec.header ∧ ∀ i ch, ch < channels u.dec.gray → i < u.dec.header.area →
        Memory.getDm v.dec.dm (u.dec.header.wordAt i ch) = (((es ++ rest)[i]?).map (Entry.word u.dec.shift ch)).getD 0 := by
  induction rest with
  | nil =>
    intro es u halone h
    refine ⟨_, run_of_next Sys2Proof.core (h.step_finish halone), rfl, rfl, rfl, ?_⟩
    rw [List.append_nil]
    exact h.words
  | cons en rest ih =>
    intro es u halone h
    obtain ⟨v, hrun, hdone, hvalid, hhd, hwords⟩ :=
      ih (u := { u with dec := u.dec.consume (encodeEntry en).length en.vals }) halone h.consume
    refine ⟨v, (run_of_next Sys2Proof.core (h.step_entry halone)).trans hrun, hdone, hvalid, hhd, ?_⟩
    rw [List.append_assoc] at hwords
    exact hwords

/-- DEC after its HEADER step on the header `hd` (R187, R188). -/
def DecState.latched (d : DecState) (hd : Header) : DecState :=
  d.latch hd.height hd.width hd.shift (if hd.gray then 0x01#8 else 0x00#8)

@[simp] theorem DecState.latched_gray (d : DecState) (hd : Header) : (d.latched hd).gray = hd.gray := by
  cases h : hd.gray <;> simp [DecState.latched, h]

@[simp] theorem DecState.latched_header (d : DecState) (hd : Header) : (d.latched hd).header = hd := by
  rw [DecState.header, DecState.latched_gray]; rfl

theorem DecState.latched_dm (d : DecState) (hd : Header) :
    (d.latched hd).dm = d.dm.filter (fun c => !inShape hd.height.toNat hd.width.toNat hd.gray c.1) := by
  rw [← DecState.latched_gray d hd]; rfl

/-- The HEADER step of DEC at the head of a stream of non-zero area (R187). -/
theorem step_decHeader {u : State} {hd : Header} {es : List Entry} (halone : u.decAlone) (hstarted : u.dec.started)
    (harea : hd.area ≠ 0) (hstream : Memory.getBytes u.dec.inp 0 u.dec.isLen.toNat = .ok (hd.stream es)) :
    step u = .next { u with dec := u.dec.latched hd } := by
  obtain ⟨hbusy, hphase, -⟩ := hstarted
  have hlen : ¬ u.dec.isLen.toNat < 6 := by
    rw [← ((Memory.getBytes_ok_iff ..).mp hstream).1, Header.stream_length]; omega
  have hbytes : Memory.getBytes u.dec.inp 0 6 = .ok hd.bytes :=
    Memory.getBytes_slice (pre := []) (mid := hd.bytes) hstream
  have hlegal : headerLegal hd.height hd.width (if hd.gray then 0x01#8 else 0x00#8) = true := by
    simp only [headerLegal, Bool.and_eq_true, decide_eq_true_eq]
    exact ⟨harea, by cases hd.gray <;> decide⟩
  simp only [step_decAlone halone hbusy, decDispatch, hphase, exec, execDecHeader, hbusy, and_self, if_true, hlen, if_false,
    hbytes, decodeHeader_bytes, execHeaderRecord, execHdr, decHeaderStep, hlegal, Bool.true_eq_false, or_self,
    DecState.latched]

/-- After the header DEC has read no entry, and DM is zero over the shape (R188). -/
theorem decoded_latched {d : DecState} {hd : Header} {es : List Entry} (hstarted : d.started) (harea : hd.area ≠ 0)
    (hlen : es.length = hd.area) (hmodes : ∀ en ∈ es, en.inMode hd.gray = true)
    (hstream : Memory.getBytes d.inp 0 d.isLen.toNat = .ok (hd.stream es)) : Decoded [] es (d.latched hd) := by
  obtain ⟨hbusy, -, -, -, -, -, -, -, hrow, hcol, hcnt, -⟩ := hstarted
  have hw : 0 < hd.width.toNat := Nat.pos_of_ne_zero fun h0 => harea (by simp [Header.area, h0])
  have hhd := d.latched_header hd
  refine ⟨hbusy, rfl, hhd.symm ▸ hstream, d.latched_gray hd ▸ hmodes, hhd.symm ▸ hlen, by simp [DecState.latched, hcnt],
    ⟨by simp [DecState.latched, hcnt, hrow, hcol], by simpa [DecState.latched, hcol] using hw⟩, hhd.symm ▸ rfl, ?_⟩
  intro i ch hch hi
  rw [DecState.latched_gray] at hch
  rw [DecState.latched_header] at hi ⊢
  have hin : inShape hd.height.toNat hd.width.toNat hd.gray (hd.wordAt i ch) = true := by
    have hmod := Nat.mod_lt i hw
    have hwidth := hd.width.isLt
    have hchannels := channels_le hd.gray
    exact (inShape_word (by omega) (by omega)).mpr ⟨Nat.div_lt_of_lt_mul (by rwa [Nat.mul_comm]), hmod, hch⟩
  rw [DecState.latched_dm, Memory.getDm_filter d.dm (fun a => !inShape hd.height.toNat hd.width.toNat hd.gray a), hin]
  rfl

/-- A decode run from START over a stream with an entry of its layout for every pixel ends in DONE with the words of the entries in DM. -/
theorem decode_run {u : State} {hd : Header} {es : List Entry} (halone : u.decAlone) (hstarted : u.dec.started)
    (harea : hd.area ≠ 0) (hlen : es.length = hd.area) (hmodes : ∀ en ∈ es, en.inMode hd.gray = true)
    (hstream : Memory.getBytes u.dec.inp 0 u.dec.isLen.toNat = .ok (hd.stream es)) :
    ∃ v, Host.Core.run Sys2Proof.core (2 + hd.area) u = .next v ∧ v.dec.st = .done ∧ v.dec.dmValid = true ∧
      v.dec.header = hd ∧ ∀ i ch, ch < channels hd.gray → i < hd.area →
        Memory.getDm v.dec.dm (hd.wordAt i ch) = ((es[i]?).map (Entry.word hd.shift ch)).getD 0 := by
  obtain ⟨v, hrun, hdone, hvalid, hhd, hwords⟩ := run_of_decoded (u := { u with dec := u.dec.latched hd }) halone
    (decoded_latched hstarted harea hlen hmodes hstream)
  rw [hlen] at hrun
  rw [Nat.add_comm]
  rw [DecState.latched_header] at hhd hwords
  rw [DecState.latched_gray] at hwords
  exact ⟨v, (run_of_next Sys2Proof.core (step_decHeader halone hstarted harea hstream)).trans hrun, hdone, hvalid, hhd, hwords⟩

/-! ### The round trip (00_scope R14, 95_test_vectors section 4) -/

/-- Settles O57: the encode run leaves a header and one entry per pixel, each carrying its pixel (`encoded_of_encode_run`), and the
decode run stores the words of these entries (`decode_run`). -/
theorem roundTrip : Obligations.RoundTrip := by
  intro s t u hencAlone hencStarted _ harea hrun hdone hdecAlone hdecStarted _ hlen hloaded
  obtain ⟨hhd, hem, es, hes, henc⟩ := encoded_of_encode_run hencAlone hencStarted harea hrun hdone
  have hstream : Memory.getBytes u.dec.inp 0 u.dec.isLen.toNat = .ok (t.enc.header.stream es) := by
    rw [hlen]
    exact Memory.getBytes_congr (fun i hi => hloaded _ (by omega)) henc.stream
  have hmodes : ∀ en ∈ es, en.inMode t.enc.header.gray = true := fun en hmem => by
    obtain ⟨i, hi⟩ := List.mem_iff_getElem?.mp hmem
    exact (henc.pixels i en hi).1
  have hpixels := henc.pixels
  rw [hem] at hpixels
  rw [hhd] at hstream hmodes hes hpixels
  obtain ⟨v, hdecRun, hdecDone, hvalid, hvhd, hwords⟩ := decode_run (hd := ⟨s.enc.h, s.enc.w, t.enc.shift, s.enc.gray⟩)
    hdecAlone hdecStarted harea hes hmodes hstream
  injection hvhd with hh hw hshift hgray
  refine ⟨v, hdecRun, hdecDone, hvalid, hh, hw, hgray, hshift, fun r c ch hr hc hch => ?_⟩
  have hi := hes ▸ Header.raster_lt_area ⟨s.enc.h, s.enc.w, t.enc.shift, s.enc.gray⟩ hr hc
  have haddr := Header.wordAt_cursor ⟨s.enc.h, s.enc.w, t.enc.shift, s.enc.gray⟩ (row := r) ch hc
  have hget := List.getElem?_eq_getElem hi
  obtain ⟨x, hx, hword⟩ := (hpixels _ _ hget).2 ch hch
  have hdm := hwords _ ch hch (hes ▸ hi)
  simp only [hget, haddr, Option.map_some, Option.getD_some] at hdm hx
  exact ⟨x, hx, hdm ▸ hword⟩

end Sys2Proof.Machine
end

section
/-! SUPPORT. What a step does that meets something never written (10_state R47): the faults of the launch of log 10 and log 25. -/

namespace Sys2Proof.Machine

/-! ### ENC on an unwritten word -/

/-- The magnitude of a shape with an unwritten word names an unwritten word (R122). -/
theorem magnitude_unwritten {p : Params} {e : EncState} {r c ch : Nat} (hr : r < e.h.toNat) (hc : c < e.w.toNat)
    (hch : ch < channels e.gray) (hnone : Memory.get e.em (wordAddr r c ch) = none) :
    ∃ a, Memory.get e.em a = none ∧ magnitude p e = .error a :=
  maxMag_none _ ⟨_, mem_shape.mpr ⟨r, c, ch, hr, hc, hch, rfl⟩, hnone⟩

/-- Settles O17: the walk of `magnitude` over the shape stops at an unwritten word. -/
theorem unwrittenWordFaultsTheScaleStep : Obligations.UnwrittenWordFaultsTheScaleStep := by
  intro s r c ch hbusy hphase hr hc hch hnone
  obtain ⟨a, ha, hmag⟩ := magnitude_unwritten (p := s.params) hr hc hch hnone
  exact ⟨a, ha, by simp only [exec, execEncScale, hbusy, hphase, hmag, and_self, if_true]⟩

section
variable {s : State} {a : Nat} (hin : s.enc.inEntries = true) (hpix : pixelAt s.params s.enc = .error a)
include hin hpix

/-- ENC.ENTRY on a pixel that cannot be read (R174). -/
theorem exec_encEntry_unwritten : exec .encEntry s = .fault (.emUnwritten a) := by
  simp only [exec, execEncEntry, hin, hpix, if_true]

/-- ENC.Z on a pixel that cannot be read, in either mode. -/
theorem exec_encZ_unwritten : exec .encZ s = .fault (.emUnwritten a) := by
  simp only [exec, execEncZ, zeroFormStep, hin, hpix, if_true, liftEnc]

/-- ENC.G on a pixel that cannot be read. -/
theorem exec_encG_unwritten (hgray : s.enc.gray = true) : exec .encG s = .fault (.emUnwritten a) := by
  simp only [exec, execEncG, grayFormStep, hin, hgray, hpix, Bool.and_self, if_true, liftEnc]

/-- Every colour form reads the whole pixel before it looks at which channels are zero. -/
theorem colourFormStep_unwritten (hcolour : s.enc.gray = false) (flag : Byte) (r g b : Bool) :
    colourFormStep s.params s.enc flag r g b = .fault (.emUnwritten a) := by
  simp only [colourFormStep, hin, hcolour, hpix, Bool.not_false, Bool.and_self, if_true]

end

/-- Settles O58: every form reads the pixel at the cursor first, and `pixelAt_none` names the first unwritten word. -/
theorem unwrittenPixelFaultsTheEntryStep : Obligations.UnwrittenPixelFaultsTheEntryStep := by
  intro s ch hin hch hnone hbefore
  have hpix := pixelAt_none (p := s.params) hch hnone hbefore
  refine ⟨?_, exec_encG_unwritten hin hpix, ?_⟩
  · rintro i (rfl | rfl)
    · exact exec_encEntry_unwritten hin hpix
    · exact exec_encZ_unwritten hin hpix
  · intro hcolour i hi
    have hform := colourFormStep_unwritten hin hpix hcolour
    obtain rfl | rfl | rfl | rfl | rfl | rfl | rfl := hi <;>
      simp only [exec, execEncCB, execEncCG, execEncCGB, execEncCR, execEncCRB, execEncCRG, execEncCRGB, hform, liftEnc]

/-! ### DEC on an unwritten byte -/

/-- A flag byte that holds no value stops the fetch at D_SP (R150). -/
theorem fetchEntry_flag_unwritten {d : DecState} (hflag : Memory.get d.inp d.sp.toNat = none) :
    fetchEntry d = .unwritten d.sp.toNat := by
  simp only [fetchEntry, hflag]

/-- The step reads every byte of a payload integer that is whole in the stream (R152): its `o`-th byte after the flag lies in the span. -/
theorem lt_recordSpan {d : DecState} {o len : Nat} (hpos : 1 ≤ o) (hlen : o < len)
    (hwhole : d.sp.toNat + 1 + 4 * ((o - 1) / 4 + 1) ≤ d.isLen.toNat) : o < recordSpan d len := by
  rw [recordSpan]
  split
  · exact hlen
  · omega

/-- A byte of a whole payload integer that holds no value stops the fetch at a byte that holds none (R152, log 25). -/
theorem fetchEntry_payload_unwritten {d : DecState} {flag : Byte} {o : Nat} (hflag : Memory.get d.inp d.sp.toNat = some flag)
    (hspan : o < recordSpan d (entryLen d.gray flag)) (hnone : Memory.get d.inp (d.sp.toNat + o) = none) :
    ∃ b, Memory.get d.inp b = none ∧ fetchEntry d = .unwritten b := by
  obtain ⟨b, hb, hread⟩ := Memory.getBytes_err hspan hnone
  exact ⟨b, hb, by simp only [fetchEntry, hflag, hread]⟩

/-- DEC.ENTRY passes on what its fetch could not read (R189). -/
theorem exec_decEntry_unwritten {s : State} {b : Nat} (hready : s.dec.entryReady = true) (hfetch : fetchEntry s.dec = .unwritten b) :
    exec .decEntry s = .fault (.isUnwritten b) := by
  simp only [exec, execDecEntry, hready, hfetch, if_true]

/-- Settles O38: the flag byte and the whole payload integers are the span the fetch reads, the six header bytes the span of the HEADER step, and
a span with an unwritten byte does not read (`Memory.getBytes_err`). -/
theorem unwrittenStreamByteFaults : Obligations.UnwrittenStreamByteFaults := by
  refine ⟨fun s hready hnone => exec_decEntry_unwritten hready (fetchEntry_flag_unwritten hnone), ?payload, ?header⟩
  case payload =>
    intro s flag o hready hflag hpos hlen hwhole hnone
    obtain ⟨b, hb, hfetch⟩ := fetchEntry_payload_unwritten hflag (lt_recordSpan hpos hlen hwhole) hnone
    exact ⟨b, hb, exec_decEntry_unwritten hready hfetch⟩
  case header =>
    intro s a hbusy hphase hlen ha hnone
    have hlong : ¬ s.dec.isLen.toNat < 6 := Nat.not_lt.mpr hlen
    obtain ⟨b, hb, hread⟩ := Memory.getBytes_err (a := 0) ha ((Nat.zero_add a).symm ▸ hnone)
    exact ⟨b, hb, by simp only [exec, execDecHeader, hbusy, hphase, hlong, hread, and_self, if_true, if_false]⟩

/-! ### The two units -/

/-- Settles O52: an instruction of ENC is a function of ENC and the parameters lifted to the machine (`enc_lens`), one of DEC a function of DEC (`dec_lens`), so
neither sees what the other wrote. -/
theorem unitStepsCommute : Obligations.UnitStepsCommute := by
  intro i j s t u hi hj ht hu
  obtain ⟨F, hF⟩ := enc_lens i hi
  obtain ⟨G, hG⟩ := dec_lens j hj
  rw [hF] at ht
  rw [hG] at hu
  obtain ⟨e, he, rfl⟩ := liftEnc_next ht
  obtain ⟨d, hd, rfl⟩ := liftDec_next hu
  refine ⟨{ s with enc := e, dec := d }, ?_, ?_⟩
  · rw [hG]; simp only [hd, liftDec]
  · rw [hF]; simp only [he, liftEnc]

end Sys2Proof.Machine
end

section
/-! SUPPORT. The invariant of 10_state (R27 to R29, R35 to R37): every operation of a unit keeps the unit's invariant, every instruction amounts to one of these
operations, and every step runs one instruction or resets. -/

namespace Sys2Proof.Machine

/-! ### The operations of ENC -/

theorem EncInv.raise {p : Params} {e : EncState} {x : ErrKind} (h : EncInv p e)
    (hx : x = .unrepresentableMagnitude ∨ x = .ioFailure) : EncInv p (e.raise x) := by
  obtain ⟨-, -, -, -, -, hbytes, hem, hos⟩ := h
  exact ⟨by simp, by simp, by simpa using hx, by simp, by simp, hbytes, hem, hos⟩

theorem EncInv.start {p : Params} {e : EncState} (h : EncInv p e) : EncInv p e.start := by
  by_cases hbusy : e.st = .busy
  · rwa [EncState.start_of_busy hbusy]
  · obtain ⟨-, -, -, -, -, -, hem, hos⟩ := h
    rw [EncState.start_of_not_busy hbusy]
    exact ⟨by simp, by simp, by simp, by simp, by simp, by simp, hem, hos⟩

/-- The host writes E_DIM only while no clause about the cursor is in force (log 20). -/
theorem EncInv.setDim {p : Params} {e : EncState} (h : EncInv p e) (v : RegWord) : EncInv p (e.setDim v) := by
  rw [EncState.setDim]
  split
  next => exact h
  next hidle =>
    obtain ⟨hopen, herr, hkind, -, -, hbytes, hem, hos⟩ := h
    exact ⟨hopen, herr, hkind, fun hb => absurd hb hidle, fun hb => absurd hb hidle, hbytes, hem, hos⟩

theorem EncInv.setWord {p : Params} {e : EncState} (h : EncInv p e) (v : Int) (row col : Dim) (ch : BitVec 2) :
    EncInv p (e.setWord p v row col ch) := by
  rw [EncState.setWord]
  split
  next hwrite =>
    obtain ⟨hopen, herr, hkind, hearly, hrun, hbytes, hem, hos⟩ := h
    exact ⟨hopen, herr, hkind, hearly, hrun, hbytes, Memory.emWf_put row col v hwrite.2 hem, hos⟩
  next => exact h

@[simp] theorem EncState.scaled_phase (e : EncState) (k : Shift) : (e.scaled k).phase = .header := rfl

/-- The SCALE step leaves ENC before its first entry (R121). -/
theorem EncInv.scaled {p : Params} {e : EncState} (h : EncInv p e) (hphase : e.phase = .scale) (k : Shift) :
    EncInv p (e.scaled k) := by
  obtain ⟨hopen, herr, hkind, hearly, -, hbytes, hem, hos⟩ := h
  exact ⟨hopen, herr, hkind, fun hb _ => hearly hb (by simp [hphase]), by simp, hbytes, hem, hos⟩

/-- After an append every byte below OS_LEN is written (R68). -/
theorem Appended.written {e f : EncState} {bs : List Byte} (h : Appended e f bs)
    (hold : ∀ a, a < e.osLen.toNat → (Memory.get e.os a).isSome = true) :
    ∀ a, a < f.osLen.toNat → (Memory.get f.os a).isSome = true := by
  obtain ⟨hlen, hnew, hkeep⟩ := h
  intro a ha
  rcases Nat.lt_or_ge a e.osLen.toNat with hlt | hge
  · rw [hkeep a (.inl hlt)]; exact hold a hlt
  · obtain ⟨i, rfl⟩ := Nat.exists_eq_add_of_le hge
    have hi : i < bs.length := by omega
    rw [hnew i hi, List.getElem?_eq_getElem hi]; rfl

/-- ENC after a successful header append: DONE on an empty shape, else before the first of its entries (R173, R176). -/
theorem EncInv.afterHeader {p : Params} {e : EncState} (h : EncInv p e) (hbusy : e.st = .busy) (hphase : e.phase = .header) :
    EncInv p (e.append (encHeaderBytes e)).afterHeader := by
  obtain ⟨hopen, herr, hkind, hearly, -, hbytes, hem, hos⟩ := h
  obtain ⟨hrow, hcol, hcnt, hlen⟩ := hearly hbusy (by simp [hphase])
  have happend : Appended e (e.append (encHeaderBytes e)) (encHeaderBytes e) :=
    append_appended (by rw [hlen, encHeaderBytes_eq, Header.bytes_length]; decide)
  have hlen' : (e.append (encHeaderBytes e)).osLen.toNat = 6 := by rw [happend.1, hlen]; rfl
  have hwritten := happend.written hbytes
  have hos' : Memory.bufWf (e.append (encHeaderBytes e)).os = true := Memory.bufWf_putBytes _ _ hos
  rw [EncState.afterHeader]
  split
  next => exact ⟨by simp, by simpa [hbusy] using herr, hkind, by simp, by simp, hwritten, hem, hos'⟩
  next harea =>
    rw [EncState.append_h, EncState.append_w] at harea
    have hpos : 0 < e.h.toNat * e.w.toNat := Nat.pos_of_ne_zero harea
    have hw : 0 < e.w.toNat := Nat.pos_of_mul_pos_left hpos
    refine ⟨hopen, herr, hkind, fun _ hp => absurd rfl hp, fun _ _ => ?_, hwritten, hem, hos'⟩
    exact ⟨by simp [hrow, hcol, hcnt], by simpa [hcol] using hw, by simpa [hcnt] using hpos,
      by simpa [hcnt] using hlen'.ge, by simpa [hcnt] using hlen'.le⟩

theorem EncInv.headerStep {p : Params} {e : EncState} (h : EncInv p e) : EncInv p (encHeaderStep p e) := by
  rw [encHeaderStep]
  split
  next hready =>
    split
    next => exact h.raise (.inr rfl)
    next => exact h.afterHeader hready.1 hready.2
  next => exact h

/-- An entry of 1 to 13 bytes keeps OS_LEN in its bounds; the cursor and the counter move together (R28, R174, R175). -/
theorem EncInv.append_advance {p : Params} {e : EncState} {bs : List Byte} (h : EncInv p e) (hin : e.inEntries = true)
    (hlen : 1 ≤ bs.length ∧ bs.length ≤ 13) : EncInv p (e.append bs).advance := by
  have hroom := osLen_bound h hin
  simp only [EncState.inEntries, Bool.and_eq_true, beq_iff_eq] at hin
  obtain ⟨hbusy, hphase⟩ := hin
  obtain ⟨hopen, herr, hkind, -, hrun, hbytes, hem, hos⟩ := h
  obtain ⟨hcur, hcol, hlt, hlow, hhigh⟩ := hrun hbusy hphase
  obtain ⟨hcnt', hcur', hcol'⟩ := cursor_step hcur hcol hlt
  obtain ⟨happend, -⟩ := advance_emitted (e := e) (bs := bs) (by omega)
  have hosLen : (e.append bs).advance.osLen.toNat = e.osLen.toNat + bs.length := happend.1
  have hcount : (e.append bs).advance.cnt.toNat = e.cnt.toNat + 1 := hcnt'
  refine ⟨?stream, ?error, hkind, ?early, ?run, happend.written hbytes, hem, Memory.bufWf_putBytes _ _ hos⟩
  case stream => by_cases hlast : e.cnt.toNat + 1 = e.h.toNat * e.w.toNat <;> simp [hlast, hopen]
  case error =>
    have hnone : e.err = none := herr.mpr (by simp [hbusy])
    by_cases hlast : e.cnt.toNat + 1 = e.h.toNat * e.w.toNat <;> simp [hlast, hnone, hbusy]
  case early => exact fun _ hp => absurd hphase hp
  case run =>
    intro hstill _
    have hmore : e.cnt.toNat + 1 ≠ e.h.toNat * e.w.toNat := fun hlast => by simp [hlast] at hstill
    refine ⟨hcur', hcol', ?_, ?_, ?_⟩
    · rw [hcount]; exact Nat.lt_of_le_of_ne hlt hmore
    · rw [hcount, hosLen]; omega
    · rw [hcount, hosLen]; omega

theorem EncInv.emitEntry {p : Params} {e : EncState} {o : Option (List Byte)} (h : EncInv p e) (hin : e.inEntries = true)
    (hlen : ∀ bs, o = some bs → 1 ≤ bs.length ∧ bs.length ≤ 13) : EncInv p (emitEntry p e o) := by
  cases o with
  | none => exact h.raise (.inl rfl)
  | some bs =>
    rw [Machine.emitEntry]
    split
    next => exact h.raise (.inr rfl)
    next => exact h.append_advance hin (hlen bs rfl)

/-! ### The instructions of ENC -/

/-- What an instruction of ENC can make of ENC: nothing, a step of one of its phases on some operand, or an error step. -/
inductive EncChange (p : Params) (e : EncState) : EncState → Prop where
  | stay : EncChange p e e
  | scale (k : Shift) (hphase : e.phase = .scale) : EncChange p e (e.scaled k)
  | header : EncChange p e (encHeaderStep p e)
  | entry (o : Option (List Byte)) (hin : e.inEntries = true)
      (hlen : ∀ bs, o = some bs → 1 ≤ bs.length ∧ bs.length ≤ 13) : EncChange p e (emitEntry p e o)
  | raise (x : ErrKind) (hx : x = .unrepresentableMagnitude ∨ x = .ioFailure) : EncChange p e (e.raise x)

theorem EncInv.change {p : Params} {e f : EncState} (h : EncInv p e) (hf : EncChange p e f) : EncInv p f := by
  cases hf with
  | stay => exact h
  | scale k hphase => exact h.scaled hphase k
  | header => exact h.headerStep
  | entry o hin hlen => exact h.emitEntry hin hlen
  | raise x hx => exact h.raise hx

/-- A record of at most three payload integers is 1 to 13 bytes long (R101). -/
theorem formRecord_length_bounds {frac : Nat} {k : Shift} {flag : Byte} {cs : List Int} (hcs : cs.length ≤ 3) :
    ∀ bs, formRecord frac k flag cs = some bs → 1 ≤ bs.length ∧ bs.length ≤ 13 := by
  intro bs h
  have := formRecord_len h
  omega

/-- The entry encoder writes 1 to 13 bytes (R101). -/
theorem encEntry_length_bounds {frac : Nat} {k : Shift} {pix : Pixel} :
    ∀ bs, encEntry frac k pix = some bs → 1 ≤ bs.length ∧ bs.length ≤ 13 := by
  intro bs h
  obtain ⟨en, rfl, -⟩ := encEntry_eq_some h
  exact encodeEntry_length_bounds en

/-- The zero byte is an entry. -/
theorem zeroByte_length_bounds : ∀ bs : List Byte, some [0x00#8] = some bs → 1 ≤ bs.length ∧ bs.length ≤ 13 := by
  rintro bs ⟨⟩
  decide

theorem zeroFormStep_change {p : Params} {e f : EncState} (h : zeroFormStep p e = .next f) : EncChange p e f := by
  rw [zeroFormStep] at h
  split at h
  next hin =>
    split at h
    next => cases h
    next c _ =>
      split at h <;> cases h
      · exact .entry _ hin zeroByte_length_bounds
      · exact .stay
    next r g b _ =>
      split at h <;> cases h
      · exact .entry _ hin zeroByte_length_bounds
      · exact .stay
  next => cases h; exact .stay

theorem grayFormStep_change {p : Params} {e f : EncState} (h : grayFormStep p e = .next f) : EncChange p e f := by
  rw [grayFormStep] at h
  split at h
  next hin =>
    rw [Bool.and_eq_true] at hin
    split at h
    next => cases h
    next => cases h; exact .stay
    next c _ =>
      split at h <;> cases h
      · exact .stay
      · exact .entry _ hin.1 (formRecord_length_bounds (by simp))
  next => cases h; exact .stay

theorem colourFormStep_change {p : Params} {e f : EncState} {flag : Byte} {r g b : Bool}
    (h : colourFormStep p e flag r g b = .next f) : EncChange p e f := by
  rw [colourFormStep] at h
  split at h
  next hin =>
    rw [Bool.and_eq_true] at hin
    split at h
    next => cases h
    next => cases h; exact .stay
    next cr cg cb _ =>
      split at h <;> cases h
      · exact .entry _ hin.1 (formRecord_length_bounds (by cases r <;> cases g <;> cases b <;> simp))
      · exact .stay
  next => cases h; exact .stay

theorem execEncScale_change {s t : State} (h : execEncScale s = .next t) :
    ∃ f, t = { s with enc := f } ∧ EncChange s.params s.enc f := by
  rw [execEncScale] at h
  split at h
  next hready =>
    split at h
    next => cases h
    next m _ => cases h; exact ⟨_, rfl, .scale (BitVec.ofNat 8 (scaleOf s.params.frac m)) hready.2⟩
  next => cases h; exact ⟨_, rfl, .stay⟩

theorem execEncEntry_change {s t : State} (h : execEncEntry s = .next t) :
    ∃ f, t = { s with enc := f } ∧ EncChange s.params s.enc f := by
  rw [execEncEntry] at h
  split at h
  next hin =>
    split at h
    next => cases h
    next pix _ => cases h; exact ⟨_, rfl, .entry _ hin encEntry_length_bounds⟩
  next => cases h; exact ⟨_, rfl, .stay⟩

theorem execErrorStep_encChange {s t : State} {x : ErrKind} {pos : Pos} (hx : x = .unrepresentableMagnitude ∨ x = .ioFailure)
    (h : execErrorStep x pos s = .next t) : ∃ f, t = { s with enc := f } ∧ EncChange s.params s.enc f := by
  obtain rfl | rfl := hx <;> simp only [execErrorStep] at h <;> split at h <;> cases h
  · exact ⟨_, rfl, .raise _ (.inl rfl)⟩
  · exact ⟨_, rfl, .stay⟩
  · exact ⟨_, rfl, .raise _ (.inr rfl)⟩
  · exact ⟨_, rfl, .stay⟩

theorem exists_encChange_of_lift {s t : State} {o : Host.Outcome EncState Fault Refusal} (h : liftEnc s o = .next t)
    (hchange : ∀ f, o = .next f → EncChange s.params s.enc f) : ∃ f, t = { s with enc := f } ∧ EncChange s.params s.enc f := by
  obtain ⟨f, ho, rfl⟩ := liftEnc_next h
  exact ⟨f, rfl, hchange f ho⟩

/-- Every instruction of ENC makes one of the changes of `EncChange` to ENC, and none elsewhere (R20). -/
theorem exec_encChange {i : Instr} {s t : State} (hi : runsOnEnc i = true) (h : exec i s = .next t) :
    ∃ f, t = { s with enc := f } ∧ EncChange s.params s.enc f := by
  cases i <;> try cases hi
  case encHdr | encHeader => cases h; exact ⟨_, rfl, .header⟩
  case encZ => exact exists_encChange_of_lift h fun _ => zeroFormStep_change
  case encG => exact exists_encChange_of_lift h fun _ => grayFormStep_change
  case encCB | encCG | encCGB | encCR | encCRB | encCRG | encCRGB =>
    exact exists_encChange_of_lift h fun _ => colourFormStep_change
  case encScale => exact execEncScale_change h
  case encEntry => exact execEncEntry_change h
  case errorStep x pos => exact execErrorStep_encChange (by cases x <;> simp_all [runsOnEnc]) h

/-! ### The operations of DEC -/

theorem DecInv.raise {d : DecState} {x : ErrKind} (h : DecInv d)
    (hx : x = .malformedHeader ∨ x = .truncatedEntry ∨ x = .shapeMismatch) (p : Pos) : DecInv (d.raise x p) := by
  obtain ⟨-, -, -, -, hearly, hrun, -, hinp, hdm⟩ := h
  exact ⟨by simp, by simp, by simp, by simpa using hx, hearly, hrun, by simp, hinp, hdm⟩

theorem DecInv.start {d : DecState} (h : DecInv d) : DecInv d.start := by
  by_cases hbusy : d.st = .busy
  · rwa [DecState.start_of_busy hbusy]
  · obtain ⟨-, -, -, -, -, -, -, hinp, hdm⟩ := h
    rw [DecState.start_of_not_busy hbusy]
    exact ⟨by simp, by simp, by simp, by simp, by simp, by simp, by simp, hinp, hdm⟩

/-- The host writes IS_LEN only while the bound on D_SP is not in force (log 20). -/
theorem DecInv.setLen {d : DecState} (h : DecInv d) (v : RegWord) : DecInv (d.setLen v) := by
  rw [DecState.setLen]
  split
  next => exact h
  next hidle =>
    obtain ⟨hopen, hvalid, herr, hkind, hearly, hrun, -, hinp, hdm⟩ := h
    exact ⟨hopen, hvalid, herr, hkind, hearly, hrun, fun hb => absurd hb hidle, hinp, hdm⟩

theorem DecInv.setByte {d : DecState} (h : DecInv d) (v : RegWord) (a : Pos) : DecInv (d.setByte v a) := by
  rw [DecState.setByte]
  split
  next =>
    obtain ⟨hopen, hvalid, herr, hkind, hearly, hrun, hsp, hinp, hdm⟩ := h
    exact ⟨hopen, hvalid, herr, hkind, hearly, hrun, hsp, Memory.bufWf_put a _ hinp, hdm⟩
  next => exact h

/-- A legal header puts the cursor at the first pixel of a shape that is not empty (R187, R188). -/
theorem DecInv.latch {d : DecState} {h w : Dim} {k g : Byte} (hd : DecInv d) (hphase : d.phase = .header)
    (hlen : 6 ≤ d.isLen.toNat) (hlegal : headerLegal h w g = true) : DecInv (d.latch h w k g) := by
  obtain ⟨hopen, hvalid, herr, hkind, hearly, -, -, hinp, hdm⟩ := hd
  obtain ⟨hrow, hcol, hcnt, -⟩ := hearly hphase
  simp only [headerLegal, Bool.and_eq_true, decide_eq_true_eq] at hlegal
  have hw : 0 < w.toNat := Nat.pos_of_ne_zero fun h0 => hlegal.1 (by simp [h0])
  refine ⟨hopen, hvalid, herr, hkind, by simp, fun _ => ?_, fun _ => hlen, hinp, Memory.dmWf_filter _ hdm⟩
  simp [hrow, hcol, hcnt, hw]

theorem DecInv.headerStep {d : DecState} (hd : DecInv d) (h w : Dim) (k g : Byte) : DecInv (decHeaderStep d h w k g) := by
  rw [decHeaderStep]
  split
  next hready =>
    split
    next => exact hd.raise (.inl rfl) 0
    next hgood =>
      rw [not_or, Nat.not_lt, Bool.not_eq_false] at hgood
      exact hd.latch hready.2 hgood.1 hgood.2
  next => exact hd

/-- When an ENTRY step of DEC is enabled (R186, R190). -/
theorem DecState.entryReady_iff (d : DecState) :
    d.entryReady = true ↔ d.st = .busy ∧ d.phase = .entries ∧ d.sp.toNat < d.isLen.toNat ∧ d.cnt.toNat < d.total := by
  simp only [DecState.entryReady, Bool.and_eq_true, beq_iff_eq, decide_eq_true_eq, and_assoc]

/-- An entry of 1 to 13 bytes that lies in the stream keeps D_SP in its bounds; the cursor and the counter move together (R36, R189, R191). -/
theorem DecInv.consume {d : DecState} {len : Nat} {vals : List (Nat × Payload)} (h : DecInv d) (hready : d.entryReady = true)
    (hlen : 1 ≤ len ∧ len ≤ 13) (hfit : d.sp.toNat + len ≤ d.isLen.toNat) (hvals : ∀ c ∈ vals, c.1 < 3) :
    DecInv (d.consume len vals) := by
  obtain ⟨-, hphase, -, hlt⟩ := d.entryReady_iff.mp hready
  obtain ⟨hopen, hvalid, herr, hkind, -, hrun, -, hinp, hdm⟩ := h
  obtain ⟨hcur, hcol, -, hlow, hhigh⟩ := hrun hphase
  obtain ⟨hcnt', hcur', hcol'⟩ := cursor_step hcur hcol hlt
  have hcount : (d.consume len vals).cnt.toNat = d.cnt.toNat + 1 := hcnt'
  have hsp : (d.consume len vals).sp.toNat = d.sp.toNat + len := by
    have hroom := d.isLen.isLt
    simp only [DecState.consume_sp, BitVec.toNat_add, BitVec.toNat_ofNat]
    omega
  refine ⟨hopen, hvalid, herr, hkind, fun hp => ?_, fun _ => ⟨hcur', hcol', ?_, ?_, ?_⟩, fun _ => ?_, hinp,
    Memory.dmWf_storeVals _ _ _ _ hvals hdm⟩
  · exact nomatch hphase.symm.trans hp
  · rw [hcount]; exact hlt
  · rw [hcount, hsp]; omega
  · rw [hcount, hsp]; omega
  · rw [hsp]; exact hfit

theorem DecInv.recordStep {d : DecState} {len : Nat} {vals : List (Nat × Payload)} (h : DecInv d) (ok : Bool)
    (hlen : 1 ≤ len ∧ len ≤ 13) (hvals : ∀ c ∈ vals, c.1 < 3) : DecInv (decRecordStep ok d len vals) := by
  rw [decRecordStep]
  split
  next hready =>
    rw [Bool.and_eq_true] at hready
    split
    next => exact h.raise (.inr (.inl rfl)) d.sp
    next hfit => exact h.consume hready.1 hlen (Nat.not_lt.mp hfit) hvals
  next => exact h

theorem DecInv.finish {d : DecState} (h : DecInv d) (hbusy : d.st = .busy) : DecInv d.finish := by
  obtain ⟨-, -, herr, hkind, hearly, hrun, -, hinp, hdm⟩ := h
  exact ⟨by simp, by simp, by simpa [hbusy] using herr, hkind, hearly, hrun, by simp, hinp, hdm⟩

/-! ### The instructions of DEC -/

/-- What an instruction of DEC can make of DEC: nothing, a step of one of its phases on some record, FINISH, or an error step. -/
inductive DecChange (d : DecState) : DecState → Prop where
  | stay : DecChange d d
  | header (h w : Dim) (k g : Byte) : DecChange d (decHeaderStep d h w k g)
  | record (ok : Bool) (en : Entry) : DecChange d (decRecordStep ok d (encodeEntry en).length en.vals)
  | finish (hbusy : d.st = .busy) : DecChange d d.finish
  | raise (x : ErrKind) (p : Pos) (hx : x = .malformedHeader ∨ x = .truncatedEntry ∨ x = .shapeMismatch) :
      DecChange d (d.raise x p)

theorem DecInv.change {d f : DecState} (h : DecInv d) (hf : DecChange d f) : DecInv f := by
  cases hf with
  | stay => exact h
  | header height w k g => exact h.headerStep height w k g
  | record ok en => exact h.recordStep ok (encodeEntry_length_bounds en) fun _ hc => Entry.channel_lt hc
  | finish hbusy => exact h.finish hbusy
  | raise x p hx => exact h.raise hx p

/-- The meaning of an entry is the entry step on its length and its present channels, guarded by its mode (R103, R189). -/
theorem execRecord_eq (en : Entry) (s : State) :
    execRecord en s = .next { s with dec := decRecordStep (en.inMode s.dec.gray) s.dec (encodeEntry en).length en.vals } := by
  cases en <;> rfl

theorem execRecord_change {en : Entry} {s t : State} (h : execRecord en s = .next t) :
    ∃ f, t = { s with dec := f } ∧ DecChange s.dec f := by
  rw [execRecord_eq] at h
  cases h
  exact ⟨_, rfl, .record _ en⟩

theorem execHeaderRecord_change {r : Except DecodeError (Instr × List Byte)} {s t : State} (h : execHeaderRecord r s = .next t) :
    ∃ f, t = { s with dec := f } ∧ DecChange s.dec f := by
  unfold execHeaderRecord at h
  split at h <;> cases h
  · exact ⟨_, rfl, .header _ _ _ _⟩
  · exact ⟨_, rfl, .raise _ _ (.inl rfl)⟩

theorem execDecHeader_change {s t : State} (h : execDecHeader s = .next t) :
    ∃ f, t = { s with dec := f } ∧ DecChange s.dec f := by
  rw [execDecHeader] at h
  split at h
  next =>
    split at h
    next => cases h; exact ⟨_, rfl, .raise _ _ (.inl rfl)⟩
    next =>
      split at h
      next => cases h
      next bs _ => exact execHeaderRecord_change h
  next => cases h; exact ⟨_, rfl, .stay⟩

theorem execDecEntry_change {s t : State} (h : execDecEntry s = .next t) :
    ∃ f, t = { s with dec := f } ∧ DecChange s.dec f := by
  rw [execDecEntry] at h
  split at h
  next =>
    split at h
    next => cases h
    next => cases h; exact ⟨_, rfl, .raise _ _ (.inr (.inl rfl))⟩
    next en _ => exact execRecord_change h
  next => cases h; exact ⟨_, rfl, .stay⟩

theorem execDecFinish_change {s t : State} (h : execDecFinish s = .next t) :
    ∃ f, t = { s with dec := f } ∧ DecChange s.dec f := by
  rw [execDecFinish] at h
  split at h <;> cases h
  next hready => exact ⟨_, rfl, .finish hready.1⟩
  next => exact ⟨_, rfl, .stay⟩

theorem execErrorStep_decChange {s t : State} {x : ErrKind} {p : Pos}
    (hx : x = .malformedHeader ∨ x = .truncatedEntry ∨ x = .shapeMismatch) (h : execErrorStep x p s = .next t) :
    ∃ f, t = { s with dec := f } ∧ DecChange s.dec f := by
  have hstep : execErrorStep x p s = if s.dec.st = .busy then .next { s with dec := s.dec.raise x p } else .next s := by
    obtain rfl | rfl | rfl := hx <;> rfl
  rw [hstep] at h
  split at h <;> cases h
  · exact ⟨_, rfl, .raise x p hx⟩
  · exact ⟨_, rfl, .stay⟩

/-- Every instruction of DEC makes one of the changes of `DecChange` to DEC, and none elsewhere (R20). -/
theorem exec_decChange {i : Instr} {s t : State} (hi : runsOnDec i = true) (h : exec i s = .next t) :
    ∃ f, t = { s with dec := f } ∧ DecChange s.dec f := by
  cases i <;> try cases hi
  case hdr => cases h; exact ⟨_, rfl, .header _ _ _ _⟩
  case z hi lo => exact execRecord_change (en := .z hi lo) h
  case g hi lo q => exact execRecord_change (en := .g hi lo q) h
  case c0 hi => exact execRecord_change (en := .c0 hi) h
  case cB hi qb => exact execRecord_change (en := .cB hi qb) h
  case cG hi qg => exact execRecord_change (en := .cG hi qg) h
  case cGB hi qg qb => exact execRecord_change (en := .cGB hi qg qb) h
  case cR hi qr => exact execRecord_change (en := .cR hi qr) h
  case cRB hi qr qb => exact execRecord_change (en := .cRB hi qr qb) h
  case cRG hi qr qg => exact execRecord_change (en := .cRG hi qr qg) h
  case cRGB hi qr qg qb => exact execRecord_change (en := .cRGB hi qr qg qb) h
  case decHeader => exact execDecHeader_change h
  case decEntry => exact execDecEntry_change h
  case decFinish => exact execDecFinish_change h
  case errorStep x p => exact execErrorStep_decChange (by cases x <;> simp_all [runsOnDec]) h

/-! ### The host's instructions -/

/-- What a host access can make of the machine: a read leaves both units as they are, and each of the other accesses writes one unit by one store or START. -/
inductive HostChange (s : State) : State → Prop where
  | read {t : State} (hsame : SameOutsideRead s t) : HostChange s t
  | encStart : HostChange s { s with enc := s.enc.start }
  | setDim (v : RegWord) : HostChange s { s with enc := s.enc.setDim v }
  | setWord (v : Int) (row col : Dim) (ch : BitVec 2) : HostChange s { s with enc := s.enc.setWord s.params v row col ch }
  | decStart : HostChange s { s with dec := s.dec.start }
  | setLen (v : RegWord) : HostChange s { s with dec := s.dec.setLen v }
  | setByte (v : RegWord) (a : Pos) : HostChange s { s with dec := s.dec.setByte v a }

theorem SameOutsideRead.refl (s : State) : SameOutsideRead s s := ⟨rfl, rfl, rfl, rfl⟩

theorem State.answer_sameOutsideRead (s : State) (v : HostData) : SameOutsideRead s (s.answer v) := ⟨rfl, rfl, rfl, rfl⟩

theorem State.answerFree_sameOutsideRead (s : State) (v : HostData) : SameOutsideRead s (s.answerFree v) := ⟨rfl, rfl, rfl, rfl⟩

theorem execWr_change {n : BitVec 4} {v : RegWord} {s t : State} (h : execWr n v s = .next t) : HostChange s t := by
  rw [execWr] at h
  split at h
  next =>
    split at h <;> cases h
    · exact .encStart
    · exact .read (.refl s)
  next => cases h; exact .setDim v
  next =>
    split at h <;> cases h
    · exact .decStart
    · exact .read (.refl s)
  next => cases h; exact .setLen v
  next => cases h; exact .read (.refl s)

theorem execEmAccess_change {op : EmOp} {row col : Dim} {ch : BitVec 2} {s t : State} (h : execEmAccess op row col ch s = .next t) :
    HostChange s t := by
  cases op with
  | write v => cases h; exact .setWord v row col ch
  | read =>
    simp only [execEmAccess] at h
    split at h <;> cases h
    · exact .read (s.answer_sameOutsideRead _)
    · exact .read (s.answerFree_sameOutsideRead _)

theorem execIsAccess_change {op : IsOp} {a : Pos} {s t : State} (h : execIsAccess op a s = .next t) : HostChange s t := by
  cases op with
  | write v => cases h; exact .setByte v a
  | read =>
    simp only [execIsAccess] at h
    split at h <;> cases h
    · exact .read (s.answer_sameOutsideRead _)
    · exact .read (s.answerFree_sameOutsideRead _)

theorem execRdOs_change {a : Pos} {s t : State} (h : execRdOs a s = .next t) : HostChange s t := by
  rw [execRdOs] at h
  split at h <;> cases h
  · exact .read (s.answer_sameOutsideRead _)
  · exact .read (s.answerFree_sameOutsideRead _)

theorem execRdDm_change {row col : Dim} {ch : BitVec 2} {s t : State} (h : execRdDm row col ch s = .next t) : HostChange s t := by
  rw [execRdDm] at h
  split at h <;> cases h
  · exact .read (s.answer_sameOutsideRead _)
  · exact .read (s.answerFree_sameOutsideRead _)

/-- Every instruction that is no unit's makes one of the changes of `HostChange`. -/
theorem exec_hostChange {i : Instr} {s t : State} (henc : runsOnEnc i = false) (hdec : runsOnDec i = false)
    (h : exec i s = .next t) : HostChange s t := by
  cases i <;> try cases henc
  all_goals try cases hdec
  case errorStep x p => cases x <;> simp_all [runsOnEnc, runsOnDec]
  case encStart => cases h; exact .encStart
  case decStart => cases h; exact .decStart
  case rd => cases h; exact .read (s.answer_sameOutsideRead _)
  case wr => exact execWr_change h
  case emAccess => exact execEmAccess_change h
  case isAccess => exact execIsAccess_change h
  case rdOs => exact execRdOs_change h
  case rdDm => exact execRdDm_change h

theorem State.Inv.hostChange {s t : State} (h : s.Inv) (ht : HostChange s t) : t.Inv ∧ t.params = s.params := by
  obtain ⟨he, hd⟩ := h
  cases ht with
  | read hsame =>
    obtain ⟨hparams, henc, hdec, -⟩ := hsame
    exact ⟨⟨by rwa [hparams, henc], by rwa [hdec]⟩, hparams⟩
  | encStart => exact ⟨⟨he.start, hd⟩, rfl⟩
  | setDim v => exact ⟨⟨he.setDim v, hd⟩, rfl⟩
  | setWord v row col ch => exact ⟨⟨he.setWord v row col ch, hd⟩, rfl⟩
  | decStart => exact ⟨⟨he, hd.start⟩, rfl⟩
  | setLen v => exact ⟨⟨he, hd.setLen v⟩, rfl⟩
  | setByte v a => exact ⟨⟨he, hd.setByte v a⟩, rfl⟩

/-! ### Every instruction, every step -/

/-- Settles O55: an instruction belongs to ENC, to DEC or to the host, and each changes the machine only by operations that keep the invariant. -/
theorem everyInstructionKeepsTheInvariant : Obligations.EveryInstructionKeepsTheInvariant := by
  intro i s t hinv h
  cases henc : runsOnEnc i with
  | true =>
    obtain ⟨f, rfl, hf⟩ := exec_encChange henc h
    exact ⟨⟨hinv.1.change hf, hinv.2⟩, rfl⟩
  | false =>
    cases hdec : runsOnDec i with
    | true =>
      obtain ⟨f, rfl, hf⟩ := exec_decChange hdec h
      exact ⟨⟨hinv.1, hinv.2.change hf⟩, rfl⟩
    | false => exact hinv.hostChange (exec_hostChange henc hdec h)

theorem EncInv.initial (p : Params) : EncInv p EncState.initial :=
  ⟨by decide, by decide, by decide, by decide, by decide, fun _ ha => absurd ha (Nat.not_lt_zero _), rfl, rfl⟩

theorem DecInv.initial : DecInv DecState.initial :=
  ⟨by decide, by decide, by decide, by decide, by decide, by decide, by decide, rfl, rfl⟩

/-- Reset makes the invariant hold, whatever the state (R46, R245). -/
theorem applyReset_inv (s : State) : (applyReset s).Inv := ⟨.initial _, .initial⟩

/-- Choosing an agent and taking the host's event from the queue leave the units and the parameters as they are. -/
theorem nextMove_frame (s : State) :
    (nextMove s).2.params = s.params ∧ (nextMove s).2.enc = s.enc ∧ (nextMove s).2.dec = s.dec := by
  obtain ⟨-, hchoose⟩ | ⟨a, n, -, -, hchoose⟩ := chooseAgent_spec s
  · simp only [nextMove, hchoose, and_self]
  · simp only [nextMove, hchoose]
    cases a with
    | enc | dec => simp only [agentMove, and_self]
    | host =>
      simp only [agentMove]
      split <;> simp only [and_self]

/-- What a step that answers a state did: nothing, a reset, or one instruction. -/
theorem step_cases {s t : State} (h : step s = .next t) :
    t = (nextMove s).2 ∨ t = applyReset (nextMove s).2 ∨ ∃ i, exec i (nextMove s).2 = .next t := by
  rw [step] at h
  split at h
  next => cases h
  next =>
    split at h
    next u hmove => cases h; exact .inl (by rw [hmove])
    next u hmove => cases h; exact .inr (.inl (by rw [hmove]))
    next i u hmove => exact .inr (.inr ⟨i, by rw [hmove]; exact h⟩)

/-- Settles O56: a step is idle, a reset or an instruction, in a state whose units are those of `s`; for an instruction it is O55. -/
theorem everyStepKeepsTheInvariant : Obligations.EveryStepKeepsTheInvariant := by
  intro s t hinv h
  obtain ⟨hparams, henc, hdec⟩ := nextMove_frame s
  have hinv' : (nextMove s).2.Inv := by rwa [State.Inv, hparams, henc, hdec]
  obtain rfl | rfl | ⟨i, hexec⟩ := step_cases h
  · exact ⟨hinv', hparams⟩
  · exact ⟨applyReset_inv _, hparams⟩
  · obtain ⟨ht, hp⟩ := everyInstructionKeepsTheInvariant i _ t hinv' hexec
    exact ⟨ht, hp.trans hparams⟩

end Sys2Proof.Machine
end

section
/-! SUPPORT. The reach of a step of a unit (20_memory R66, R70, R76, R77): DEC writes neither IS nor IS_LEN, and what a unit makes of itself is a function of that unit
and the parameters. -/

namespace Sys2Proof.Machine

/-! ### DEC only reads its stream -/

theorem decHeaderStep_sameDecInputs (d : DecState) (h w : Dim) (k g : Byte) : SameDecInputs d (decHeaderStep d h w k g) := by
  rw [decHeaderStep]
  split
  next =>
    split
    next => exact ⟨d.raise_isLen _ _, d.raise_inp _ _⟩
    next => exact ⟨d.latch_isLen _ _ _ _, d.latch_inp _ _ _ _⟩
  next => exact ⟨rfl, rfl⟩

theorem decRecordStep_sameDecInputs (ok : Bool) (d : DecState) (len : Nat) (vals : List (Nat × Payload)) :
    SameDecInputs d (decRecordStep ok d len vals) := by
  rw [decRecordStep]
  split
  next =>
    split
    next => exact ⟨d.raise_isLen _ _, d.raise_inp _ _⟩
    next => exact ⟨d.consume_isLen _ _, d.consume_inp _ _⟩
  next => exact ⟨rfl, rfl⟩

/-- No change an instruction of DEC can make touches the stream (R66, R76). -/
theorem DecChange.sameDecInputs {d f : DecState} (hf : DecChange d f) : SameDecInputs d f := by
  cases hf with
  | stay => exact ⟨rfl, rfl⟩
  | header h w k g => exact decHeaderStep_sameDecInputs d h w k g
  | record ok en => exact decRecordStep_sameDecInputs ok d _ _
  | finish => exact ⟨d.finish_isLen, d.finish_inp⟩
  | raise x p => exact ⟨d.raise_isLen x p, d.raise_inp x p⟩

/-- Settles O39: an instruction of DEC changes DEC alone, and by one of the changes of `DecChange`. -/
theorem decoderOnlyReadsTheStream : Obligations.DecoderOnlyReadsTheStream := by
  intro i s t hi h
  obtain ⟨f, rfl, hf⟩ := exec_decChange hi h
  exact ⟨⟨rfl, rfl, rfl, rfl⟩, hf.sameDecInputs⟩

/-! ### A step depends on its unit alone -/

/-- One outcome of ENC leaves the same ENC in whichever machine it is placed. -/
theorem liftEnc_next_transfer {s t : State} {o : Host.Outcome EncState Fault Refusal} (s' : State) (h : liftEnc s o = .next t) :
    ∃ t', liftEnc s' o = .next t' ∧ t'.enc = t.enc := by
  obtain ⟨e, rfl, rfl⟩ := liftEnc_next h
  exact ⟨{ s' with enc := e }, rfl, rfl⟩

/-- One outcome of DEC leaves the same DEC in whichever machine it is placed. -/
theorem liftDec_next_transfer {s t : State} {o : Host.Outcome DecState Fault Refusal} (s' : State) (h : liftDec s o = .next t) :
    ∃ t', liftDec s' o = .next t' ∧ t'.dec = t.dec := by
  obtain ⟨d, rfl, rfl⟩ := liftDec_next h
  exact ⟨{ s' with dec := d }, rfl, rfl⟩

/-- Settles O53: an instruction of a unit is a function of that unit (for ENC, of the parameters too), placed in the machine, so states that agree there
have the same outcome. -/
theorem unitOutcomeDependsOnTheUnitAlone : Obligations.UnitOutcomeDependsOnTheUnitAlone := by
  constructor
  · intro i s s' t hi henc hparams h
    obtain ⟨F, hF⟩ := enc_lens i hi
    rw [hF] at h
    rw [hF, henc, hparams]
    exact liftEnc_next_transfer s' h
  · intro i s s' t hi hdec h
    obtain ⟨F, hF⟩ := dec_lens i hi
    rw [hF] at h
    rw [hF, hdec]
    exact liftDec_next_transfer s' h

end Sys2Proof.Machine
end

section
/-! SUPPORT. Encoding and decoding (30_encoding): what a flag byte selects, the length of its record, and the round trip of records and host accesses. -/

namespace Sys2Proof

/-! ### The flag byte (R98, R101) -/

@[simp] theorem flagPresent_flagByte (hi : BitVec 4) (p : Bool) (lo : BitVec 3) : flagPresent (flagByte hi p lo) = p := (flag_roundtrip hi p lo).1

@[simp] theorem flagHi_flagByte (hi : BitVec 4) (p : Bool) (lo : BitVec 3) : flagHi (flagByte hi p lo) = hi := (flag_roundtrip hi p lo).2.1

@[simp] theorem flagLo_flagByte (hi : BitVec 4) (p : Bool) (lo : BitVec 3) : flagLo (flagByte hi p lo) = lo := (flag_roundtrip hi p lo).2.2

/-- Bits 2:0 of a flag byte are its last field. -/
theorem getLsbD_flagByte (hi : BitVec 4) (p : Bool) (lo : BitVec 3) {i : Nat} (h : i < 3) : (flagByte hi p lo).getLsbD i = lo.getLsbD i := by
  rw [flagByte, BitVec.getLsbD_append, if_pos h]

/-- Every flag byte is made of its fields. -/
theorem exists_flagByte (flag : Byte) : ∃ hi p lo, flag = flagByte hi p lo := ⟨_, _, _, (flag_of flag).symm⟩

/-- A bit of a byte as a digit of its value. -/
theorem byte_bit_toNat (b : Byte) (i : Nat) : (b.getLsbD i).toNat = b.toNat / 2 ^ i % 2 := Nat.toNat_testBit b.toNat i

/-- `entry_len` by arithmetic on the value of the flag byte (R101). -/
theorem entryLen_arith (gray : Bool) (flag : Byte) :
    entryLen gray flag = (if flag.toNat / 8 % 2 = 0 then 1 else if gray = true then 5
      else 1 + 4 * (flag.toNat / 4 % 2 + flag.toNat / 2 % 2 + flag.toNat % 2)) := by
  have hpresent := byte_bit_toNat flag 3
  have hred := byte_bit_toNat flag 2
  have hgreen := byte_bit_toNat flag 1
  have hblue := byte_bit_toNat flag 0
  simp only [Nat.reducePow, Nat.div_one] at hpresent hred hgreen hblue
  rw [entryLen, flagPresent, hred, hgreen, hblue, ← hpresent]
  cases flag.getLsbD 3 <;> rfl

/-! ### What a flag byte selects (R103) -/

/-- The record a flag byte selects in a mode: how many payload integers the decoder takes after it, and the entry it makes of them, whose bytes are that flag byte and
those integers. -/
inductive FlagSelects (gray : Bool) (flag : Byte) : Prop
  | flagAlone (en : Entry) (hlen : entryLen gray flag = 1) (hmode : en.inMode gray = true) (hbytes : encodeEntry en = [flag])
      (hdecode : ∀ bs, decodeEntry gray (flag :: bs) = .ok (en, bs))
  | onePayload (mk : Payload → Entry) (hlen : entryLen gray flag = 5) (hmode : ∀ q, (mk q).inMode gray = true)
      (hbytes : ∀ q, encodeEntry (mk q) = flag :: bytesLe32 q) (hdecode : ∀ bs, decodeEntry gray (flag :: bs) = takeOne mk bs)
  | twoPayloads (mk : Payload → Payload → Entry) (hlen : entryLen gray flag = 9) (hmode : ∀ q q', (mk q q').inMode gray = true)
      (hbytes : ∀ q q', encodeEntry (mk q q') = flag :: (bytesLe32 q ++ bytesLe32 q'))
      (hdecode : ∀ bs, decodeEntry gray (flag :: bs) = takeTwo mk bs)
  | threePayloads (mk : Payload → Payload → Payload → Entry) (hlen : entryLen gray flag = 13) (hmode : ∀ q q' q'', (mk q q' q'').inMode gray = true)
      (hbytes : ∀ q q' q'', encodeEntry (mk q q' q'') = flag :: (bytesLe32 q ++ (bytesLe32 q' ++ bytesLe32 q'')))
      (hdecode : ∀ bs, decodeEntry gray (flag :: bs) = takeThree mk bs)

/-- P clear: the zero pixel, in either mode. -/
theorem flagSelects_absent (gray : Bool) (hi : BitVec 4) (lo : BitVec 3) : FlagSelects gray (flagByte hi false lo) :=
  .flagAlone (.z hi lo) (by simp [entryLen]) rfl rfl
    (by simp [decodeEntry])

/-- P set in grayscale mode: one integer, whatever bits 2:0. -/
theorem flagSelects_gray (hi : BitVec 4) (lo : BitVec 3) : FlagSelects true (flagByte hi true lo) :=
  .onePayload (.g hi lo) (by simp [entryLen]) (fun _ => rfl) (fun _ => rfl)
    (by simp [decodeEntry])

/-- P set in colour mode: one byte, and four more for each of the bits 2:0. -/
theorem entryLen_colour (hi : BitVec 4) (lo : BitVec 3) :
    entryLen false (flagByte hi true lo) = 1 + 4 * ((lo.getLsbD 2).toNat + (lo.getLsbD 1).toNat + (lo.getLsbD 0).toNat) := by
  simp only [entryLen, flagPresent_flagByte, getLsbD_flagByte, Nat.lt_add_one, Nat.reduceLT, Bool.not_true, Bool.false_eq_true, if_false]

/-- P set in colour mode: the form of the channels flagged by bits 2:0. -/
theorem flagSelects_colour (hi : BitVec 4) (lo : BitVec 3) : FlagSelects false (flagByte hi true lo) := by
  have hlen := entryLen_colour hi lo
  have hforms : ∀ lo : BitVec 3, lo = 0#3 ∨ lo = 1#3 ∨ lo = 2#3 ∨ lo = 3#3 ∨ lo = 4#3 ∨ lo = 5#3 ∨ lo = 6#3 ∨ lo = 7#3 := by decide
  rcases hforms lo with rfl | rfl | rfl | rfl | rfl | rfl | rfl | rfl
  · exact .flagAlone (.c0 hi) hlen rfl rfl (by simp [decodeEntry])
  · exact .onePayload (.cB hi) hlen (fun _ => rfl) (fun _ => rfl) (by simp [decodeEntry])
  · exact .onePayload (.cG hi) hlen (fun _ => rfl) (fun _ => rfl) (by simp [decodeEntry])
  · exact .twoPayloads (.cGB hi) hlen (fun _ _ => rfl) (fun _ _ => rfl) (by simp [decodeEntry])
  · exact .onePayload (.cR hi) hlen (fun _ => rfl) (fun _ => rfl) (by simp [decodeEntry])
  · exact .twoPayloads (.cRB hi) hlen (fun _ _ => rfl) (fun _ _ => rfl) (by simp [decodeEntry])
  · exact .twoPayloads (.cRG hi) hlen (fun _ _ => rfl) (fun _ _ => rfl) (by simp [decodeEntry])
  · exact .threePayloads (.cRGB hi) hlen (fun _ _ _ => rfl) (fun _ _ _ => rfl) (by simp [decodeEntry])

/-- The flag-byte map is total in each mode (R103, R105). -/
theorem flagSelects (gray : Bool) (flag : Byte) : FlagSelects gray flag := by
  obtain ⟨hi, p, lo, rfl⟩ := exists_flagByte flag
  cases p with
  | false => exact flagSelects_absent gray hi lo
  | true => cases gray with
    | false => exact flagSelects_colour hi lo
    | true => exact flagSelects_gray hi lo

/-! ### The length of an entry (R101) -/

theorem entryLen_values (gray : Bool) (flag : Byte) :
    entryLen gray flag = 1 ∨ entryLen gray flag = 5 ∨ entryLen gray flag = 9 ∨ entryLen gray flag = 13 := by
  cases flagSelects gray flag with
  | flagAlone _ hlen => exact .inl hlen
  | onePayload _ hlen => exact .inr (.inl hlen)
  | twoPayloads _ hlen => exact .inr (.inr (.inl hlen))
  | threePayloads _ hlen => exact .inr (.inr (.inr hlen))

/-- With `entry_len` bytes there, the decoder gives an entry and leaves the bytes after it. -/
theorem decodeEntry_of_entryLen_le {gray : Bool} {flag : Byte} {bs : List Byte} (h : entryLen gray flag ≤ 1 + bs.length) :
    ∃ en, decodeEntry gray (flag :: bs) = .ok (en, bs.drop (entryLen gray flag - 1)) := by
  cases flagSelects gray flag with
  | flagAlone en hlen _ _ hdecode => exact ⟨en, by rw [hdecode, hlen]; rfl⟩
  | onePayload mk hlen _ _ hdecode =>
    obtain ⟨q, hq⟩ := takeOne_len (mk := mk) (bs := bs) (by omega)
    exact ⟨mk q, by rw [hdecode, hlen, hq]⟩
  | twoPayloads mk hlen _ _ hdecode =>
    obtain ⟨q, q', hq⟩ := takeTwo_len (mk := mk) (bs := bs) (by omega)
    exact ⟨mk q q', by rw [hdecode, hlen, hq]⟩
  | threePayloads mk hlen _ _ hdecode =>
    obtain ⟨q, q', q'', hq⟩ := takeThree_len (mk := mk) (bs := bs) (by omega)
    exact ⟨mk q q' q'', by rw [hdecode, hlen, hq]⟩

/-- With fewer bytes, the decoder reports truncation. -/
theorem decodeEntry_of_lt_entryLen {gray : Bool} {flag : Byte} {bs : List Byte} (h : 1 + bs.length < entryLen gray flag) :
    decodeEntry gray (flag :: bs) = .error .truncatedPayload := by
  cases flagSelects gray flag with
  | flagAlone _ hlen => omega
  | onePayload mk hlen _ _ hdecode => rw [hdecode, takeOne_short (by omega)]
  | twoPayloads mk hlen _ _ hdecode => rw [hdecode, takeTwo_short (by omega)]
  | threePayloads mk hlen _ _ hdecode => rw [hdecode, takeThree_short (by omega)]

/-! ### Decoded entries -/

/-- Settles O2: for each number of payload integers a flag byte can select, what the decoder took are the bytes of the entry it made. -/
theorem decodedEntryIsItsBytes : Obligations.DecodedEntryIsItsBytes := by
  intro gray bs rest en h
  cases bs with
  | nil => cases h
  | cons flag bs =>
    cases flagSelects gray flag with
    | flagAlone en' _ hmode hbytes hdecode =>
      rw [hdecode] at h
      cases h
      exact ⟨by rw [hbytes]; rfl, hmode⟩
    | onePayload mk _ hmode hbytes hdecode =>
      rw [hdecode] at h
      obtain ⟨q, rfl, rfl⟩ := takeOne_inv h
      exact ⟨by rw [hbytes]; rfl, hmode q⟩
    | twoPayloads mk _ hmode hbytes hdecode =>
      rw [hdecode] at h
      obtain ⟨q, q', rfl, rfl⟩ := takeTwo_inv h
      exact ⟨by simp only [hbytes, List.cons_append, List.append_assoc], hmode q q'⟩
    | threePayloads mk _ hmode hbytes hdecode =>
      rw [hdecode] at h
      obtain ⟨q, q', q'', rfl, rfl⟩ := takeThree_inv h
      exact ⟨by simp only [hbytes, List.cons_append, List.append_assoc], hmode q q' q''⟩

/-- The entry read at a flag byte is as long as the flag byte says. -/
theorem length_encodeEntry_of_decodeEntry {gray : Bool} {flag : Byte} {bs rest : List Byte} {en : Entry}
    (h : decodeEntry gray (flag :: bs) = .ok (en, rest)) : (encodeEntry en).length = entryLen gray flag := by
  obtain ⟨hbytes, hmode⟩ := decodedEntryIsItsBytes gray _ rest en h
  obtain ⟨flag', payload, hen⟩ := Machine.encodeEntry_ne en
  rw [hen, List.cons_append, List.cons.injEq] at hbytes
  exact hbytes.1 ▸ Machine.encodeEntry_length en gray flag' payload hmode hen

/-- Settles O3, by the number of payload integers the flag byte selects. -/
theorem everyFlagByteSelectsAnEntry : Obligations.EveryFlagByteSelectsAnEntry := by
  intro gray flag bs
  refine ⟨entryLen_arith gray flag, entryLen_values gray flag, fun h => ?_, decodeEntry_of_lt_entryLen⟩
  obtain ⟨en, hen⟩ := decodeEntry_of_entryLen_le h
  exact ⟨en, hen, length_encodeEntry_of_decodeEntry hen⟩

/-! ### Encoding and decoding back -/

/-- The header record (R91, R94). -/
theorem decode_encodeHeader (h w : Dim) (k g : Byte) (rest : List Byte) :
    decode .header (encodeHeader h w k g ++ rest) = .ok (.hdr h w k g, rest) := by
  simp [decode, decodeHeader, encodeHeader, bytesLe16, le16_bytes]

/-- An entry record, as an instruction (R103). -/
theorem decode_encodeEntry {gray : Bool} {en : Entry} (hm : en.inMode gray = true) (rest : List Byte) :
    decode (.entry gray) (encodeEntry en ++ rest) = .ok (en.instr, rest) := by
  simp only [decode, decodeEntry_encodeEntry hm]

theorem encode_instr (en : Entry) : encode en.instr = .record (encodeEntry en) := by cases en <;> rfl

/-- A write with bit 0 set to register 0 is ENC_START (R200). -/
theorem decodeHost_startWrite_enc (ign : BitVec 63) : decodeHost (.regWrite 0#4 (ign ++ 1#1)) = .encStart ign := by
  obtain ⟨hbit, hign⟩ := start_concat ign
  simp only [decodeHost, isStartWrite, hbit, hign, BEq.rfl, Bool.true_or, Bool.and_self, if_true]

/-- A write with bit 0 set to register 8 is DEC_START (R201). -/
theorem decodeHost_startWrite_dec (ign : BitVec 63) : decodeHost (.regWrite 8#4 (ign ++ 1#1)) = .decStart ign := by
  obtain ⟨hbit, hign⟩ := start_concat ign
  simp [decodeHost, isStartWrite, hbit, hign]

/-- A host access that stands for a well-formed instruction decodes to it (R61, R200 to R209): START writes and plain writes are told apart by bit 0, and a matrix address gives
its row, column and channel back. -/
theorem decodeHost_of_encode {i : Instr} {a : HostAccess} (hwf : i.wf = true) (h : encode i = .access a) : decodeHost a = i := by
  cases i with
  | encStart ign => cases h; exact decodeHost_startWrite_enc ign
  | decStart ign => cases h; exact decodeHost_startWrite_dec ign
  | wr n v =>
    have hplain : isStartWrite n v = false := by simpa only [Instr.wf, Bool.not_eq_true'] using hwf
    cases h
    simp only [decodeHost, hplain, Bool.false_eq_true, if_false]
  | emAccess op row col ch =>
    obtain ⟨hrow, hcol, hch⟩ := addr_fields row col ch
    cases op <;> cases h <;> simp only [decodeHost, hrow, hcol, hch]
  | rdDm row col ch =>
    obtain ⟨hrow, hcol, hch⟩ := addr_fields row col ch
    cases h
    simp only [decodeHost, hrow, hcol, hch]
  | isAccess op _ => cases op <;> cases h <;> rfl
  | rd _ | rdOs _ => cases h; rfl
  | _ => cases h

/-- Settles O1: the header by its fields, the entries by the flag-byte map, the host accesses constructor by constructor. -/
theorem encodingDecodesBack : Obligations.EncodingDecodesBack :=
  ⟨decode_encodeHeader, fun en _ rest hm => ⟨decode_encodeEntry hm rest, encode_instr en⟩, fun _ _ => decodeHost_of_encode⟩

end Sys2Proof
end

section
/-! SUPPORT. The Scale Selector (40_scale_selector): which magnitudes a bit count and a shift cover, what the SCALE step computes, and what quantization under that shift
can raise. -/

namespace Sys2Proof.Machine

/-! ### The bit count (R123) -/

/-- The powers of two that bound `M` are those from the bit count on: what "the least `n` with `M <= 2^n`" comes to. -/
theorem clog2_le_iff (m n : Nat) : clog2 m ≤ n ↔ m ≤ 2 ^ n := by
  rw [clog2]
  split
  next hsmall =>
    have hpos : 1 ≤ 2 ^ n := Nat.one_le_two_pow
    omega
  next hlarge =>
    have hlog : Nat.log2 (m - 1) < n ↔ m - 1 < 2 ^ n := Nat.log2_lt (by omega)
    omega

/-- Settles O13: both halves are `clog2_le_iff`. -/
theorem bitCountIsLeast : Obligations.BitCountIsLeast := by
  intro m _
  exact ⟨(clog2_le_iff m _).mp le_rfl, fun n => (clog2_le_iff m n).mpr⟩

/-! ### The shift (R124 to R126) -/

/-- The special case of a zero magnitude (R126) and the test of R124 are what natural subtraction does: the bit count of 0 is 0. -/
theorem scaleOf_eq (frac m : Nat) : scaleOf frac m = clog2 m - (31 + frac) := by
  simp only [scaleOf]
  split
  next hzero => subst hzero; exact (Nat.zero_sub _).symm
  next => split <;> omega

/-- The shift is the least that brings a magnitude down to `2^31` integer units. -/
theorem scaleOf_le_iff (frac m k : Nat) : scaleOf frac m ≤ k ↔ m ≤ 2 ^ (31 + k + frac) := by
  rw [scaleOf_eq, ← clog2_le_iff]
  omega

/-- Settles O14: the least `b` is the bit count less FRAC. -/
theorem shiftOfMagnitude : Obligations.ShiftOfMagnitude := by
  intro frac m
  refine ⟨fun hsmall => Nat.le_zero.mp ((scaleOf_le_iff frac m 0).mpr hsmall), fun hlarge => ?_⟩
  have hbits : 31 + frac < clog2 m := by rwa [← not_le, clog2_le_iff, not_le]
  refine ⟨clog2 m - frac, by omega, ?bounds, ?least, ?shift⟩
  case bounds => exact (clog2_le_iff _ _).mp (by omega)
  case least =>
    intro n hn
    have hle : clog2 m ≤ n + frac := (clog2_le_iff _ _).mpr hn
    omega
  case shift => rw [scaleOf_eq]; omega

/-- The range of R7. -/
theorem Params.legal_iff (p : Params) : p.legal = true ↔ p.frac < p.coefW ∧ p.coefW - p.frac ≤ 287 := by
  simp only [Params.legal, Bool.and_eq_true, decide_eq_true_eq]

/-- The shift of a magnitude of a `COEF_W`-bit word (R125). -/
theorem scaleOf_le_of_word {p : Params} {m : Nat} (hm : m ≤ 2 ^ (p.coefW - 1)) : scaleOf p.frac m ≤ p.coefW - p.frac - 32 :=
  (scaleOf_le_iff _ _ _).mpr (hm.trans (Nat.pow_le_pow_right (by decide) (by omega)))

/-- Settles O15: `scaleOf_le_of_word`, and the range of R7. -/
theorem shiftFitsEightBits : Obligations.ShiftFitsEightBits := by
  intro p m hlegal hm
  obtain ⟨-, hwidth⟩ := (Params.legal_iff p).mp hlegal
  have hshift := scaleOf_le_of_word hm
  exact ⟨hshift, by omega⟩

/-! ### The SCALE step (R121, R122, R128) -/

/-- A word of EM has `COEF_W` bits (R40). -/
theorem Memory.get_lt_of_emWf {p : Params} {em : List (Nat × Nat)} {a u : Nat} (hem : Memory.emWf p em = true)
    (hu : Memory.get em a = some u) : u < 2 ^ p.coefW := by
  simp only [Memory.emWf, Bool.and_eq_true, List.all_eq_true, decide_eq_true_eq] at hem
  obtain ⟨-, hwords⟩ := hem
  exact (hwords _ (Memory.mem_of_get hu)).2

/-- ENC.SCALE on a matrix whose magnitude can be read (R121). -/
theorem exec_encScale_of_magnitude {s : State} {m : Nat} (hbusy : s.enc.st = .busy) (hphase : s.enc.phase = .scale)
    (hmag : magnitude s.params s.enc = .ok m) :
    exec .encScale s =
      .next { s with enc := { s.enc with shift := BitVec.ofNat 8 (scaleOf s.params.frac m), phase := .header } } := by
  simp only [exec, execEncScale, hbusy, hphase, hmag, and_self, if_true]

/-- Settles O16: the magnitude is 0 or that of a word, so by R125 E_SHIFT holds its shift uncut. -/
theorem scaleStepComputesTheShift : Obligations.ScaleStepComputesTheShift := by
  intro s hlegal hem hbusy hphase hloaded
  obtain ⟨m, hmag, hbound, hattained⟩ := magnitude_ok (p := s.params) hloaded
  have hword : m ≤ 2 ^ (s.params.coefW - 1) := by
    obtain ⟨rfl, -⟩ | ⟨_, _, _, u, -, -, -, hu, rfl⟩ := hattained
    · exact Nat.zero_le _
    · obtain ⟨hfrac, -⟩ := (Params.legal_iff _).mp hlegal
      exact rawmag_bound (Nat.zero_lt_of_lt hfrac) (Memory.get_lt_of_emWf hem hu)
  have hfits : scaleOf s.params.frac m < 2 ^ 8 := Nat.lt_succ_of_le (shiftFitsEightBits _ _ hlegal hword).2
  exact ⟨m, _, exec_encScale_of_magnitude hbusy hphase hmag, (BitVec.toNat_ofNat ..).trans (Nat.mod_eq_of_lt hfits), hbound, hattained⟩

/-! ### Quantization under the selected shift (R127, R133, R134) -/

/-- A lower bound on a floor shift (R9). -/
theorem le_asr_iff (x a : Int) (n : Nat) : x ≤ asr a n ↔ x * 2 ^ n ≤ a :=
  Int.le_ediv_iff_mul_le (by positivity)

/-- An upper bound on a floor shift (R9). -/
theorem asr_lt_iff (x a : Int) (n : Nat) : asr a n < x ↔ a < x * 2 ^ n :=
  Int.ediv_lt_iff_lt_mul (by positivity)

/-- What raises UnrepresentableMagnitude (R134), as a bound on the integer part. -/
theorem quant_eq_none_iff (frac : Nat) (k : Shift) (s : Int) :
    quant frac k s = none ↔ ipart frac s < -2 ^ (31 + k.toNat) ∨ 2 ^ (31 + k.toNat) ≤ ipart frac s := by
  have hrange : quant frac k s = none ↔ asr (ipart frac s) k.toNat < -2 ^ 31 ∨ 2 ^ 31 ≤ asr (ipart frac s) k.toNat := by
    simp only [quant, fitsPayload, ite_eq_right_iff, reduceCtorEq, imp_false, Bool.and_eq_true, decide_eq_true_eq]
    omega
  rw [hrange, asr_lt_iff, le_asr_iff, neg_mul, ← pow_add]

/-- A positive power of two is reached by the integer part only when the coefficient reaches it (R12). -/
theorem two_pow_le_ipart_iff (frac n : Nat) (s : Int) : 2 ^ n ≤ ipart frac s ↔ 2 ^ (n + frac) ≤ s := by
  rw [ipart]
  split
  next => rw [le_asr_iff, ← pow_add]
  next hneg =>
    have hn : (0 : Int) < 2 ^ n := by positivity
    have hnf : (0 : Int) < 2 ^ (n + frac) := by positivity
    have hpos : 0 ≤ asr (-s) frac := (le_asr_iff _ _ _).mpr (by omega)
    omega

/-- Truncation toward zero does not go below a negative power of two that bounds the magnitude (R12). -/
theorem neg_two_pow_le_ipart {frac n : Nat} {s : Int} (h : rawmag s ≤ 2 ^ (n + frac)) : -2 ^ n ≤ ipart frac s := by
  have hmag : |s| ≤ 2 ^ n * 2 ^ frac := by
    rw [← pow_add, Int.abs_eq_natAbs]; exact_mod_cast h
  rw [ipart]
  split
  next hnonneg =>
    have hn : (0 : Int) < 2 ^ n := by positivity
    have hpos : 0 ≤ asr s frac := (le_asr_iff _ _ _).mpr (by omega)
    omega
  next =>
    have hbelow : -s < (2 ^ n + 1) * 2 ^ frac := calc
      -s ≤ |s| := neg_le_abs s
      _ ≤ 2 ^ n * 2 ^ frac := hmag
      _ < (2 ^ n + 1) * 2 ^ frac := mul_lt_mul_of_pos_right (lt_add_one _) (by positivity)
    have hlt : asr (-s) frac < 2 ^ n + 1 := (asr_lt_iff _ _ _).mpr hbelow
    omega

/-- Settles O19: the shift bounds the magnitude by `2^(31+k+FRAC)`. The negative bound of R134 is then out of reach, and the positive one is met only by a coefficient equal to
that power of two. -/
theorem onlyAPositivePowerOfTwoIsUnrepresentable : Obligations.OnlyAPositivePowerOfTwoIsUnrepresentable := by
  intro frac m k s hsm hk hnone
  have hm : m ≤ 2 ^ (31 + k.toNat + frac) := (scaleOf_le_iff frac m k.toNat).mp hk.ge
  obtain hlow | hhigh := (quant_eq_none_iff frac k s).mp hnone
  · exact absurd hlow (neg_two_pow_le_ipart (hsm.trans hm)).not_gt
  · have hs : ((2 ^ (31 + k.toNat + frac) : Nat) : Int) ≤ s := by
      exact_mod_cast (two_pow_le_ipart_iff frac _ s).mp hhigh
    have hpos : 0 < 2 ^ (31 + k.toNat + frac) := Nat.two_pow_pos _
    rw [rawmag] at hsm
    exact ⟨by omega, by omega, 31 + k.toNat, Nat.le_add_right _ _, by omega⟩

end Sys2Proof.Machine
end

section
/-! SUPPORT. The entry encoder (41_entry_encode): `quant` as a floor, the pseudocode of `enc_entry` against the canonical records of R102, and the ENTRY step of ENC as the
step of the form its pixel has. -/

namespace Sys2Proof.Machine

/-! ### Quantization (R132 to R134) -/

/-- `ipart` is the division that rounds toward zero (R12, R132). -/
theorem ipart_eq_tdiv (frac : Nat) (s : Int) : ipart frac s = Int.tdiv s (2 ^ frac) := by
  rw [ipart]
  split
  next hnonneg => exact (Int.tdiv_eq_ediv_of_nonneg hnonneg).symm
  next hneg =>
    have hflip : Int.tdiv (-s) (2 ^ frac) = asr (-s) frac := Int.tdiv_eq_ediv_of_nonneg (by omega)
    rw [← hflip, Int.neg_tdiv, neg_neg]

/-- Settles O18: the payload is the floor shift, whose bounds are `asr_bounds`, and `quant_eq_none_iff` says when it leaves the payload range. -/
theorem quantIsTheFloorShift : Obligations.QuantIsTheFloorShift := by
  intro frac k s
  refine ⟨fun q hq => ?floor, ?range, ipart_eq_tdiv frac s⟩
  case floor => rw [toInt_of_quant hq]; exact asr_bounds _ _
  case range => rw [quant_eq_none_iff, pow_add, neg_mul]

/-! ### The records of R102 -/

theorem quantAll_cons_none {frac : Nat} {k : Shift} {c : Int} (hq : quant frac k c = none) (cs : List Int) :
    quantAll frac k (c :: cs) = none := by
  rw [quantAll, hq]

theorem quantAll_cons_some {frac : Nat} {k : Shift} {c : Int} {q : Payload} (hq : quant frac k c = some q) (cs : List Int) :
    quantAll frac k (c :: cs) = (quantAll frac k cs).map (bytesLe32 q ++ ·) := by
  rw [quantAll, hq]
  cases quantAll frac k cs <;> rfl

/-- The payloads of a record cannot be built exactly when one of its coefficients raises (R147). -/
theorem quantAll_eq_none_iff (frac : Nat) (k : Shift) (cs : List Int) :
    quantAll frac k cs = none ↔ ∃ c ∈ cs, quant frac k c = none := by
  induction cs with
  | nil => simp [quantAll]
  | cons c cs ih =>
    cases hq : quant frac k c with
    | none => simp [quantAll_cons_none hq, hq]
    | some q => simp [quantAll_cons_some hq, hq, ih]

theorem formRecord_eq_map (frac : Nat) (k : Shift) (flag : Byte) (cs : List Int) :
    formRecord frac k flag cs = (quantAll frac k cs).map (flag :: ·) := by
  rw [formRecord]
  cases quantAll frac k cs <;> rfl

theorem formRecord_eq_none_iff (frac : Nat) (k : Shift) (flag : Byte) (cs : List Int) :
    formRecord frac k flag cs = none ↔ ∃ c ∈ cs, quant frac k c = none := by
  rw [formRecord_eq_map, Option.map_eq_none_iff, quantAll_eq_none_iff]

/-- A record begins with its flag byte (R97). -/
theorem formRecord_head {frac : Nat} {k : Shift} {flag : Byte} {cs : List Int} {bs : List Byte}
    (h : formRecord frac k flag cs = some bs) : bs.head? = some flag := by
  rw [formRecord_eq_map, Option.map_eq_some_iff] at h
  obtain ⟨_, -, rfl⟩ := h
  rfl

/-! ### The loop of `enc_colour` (R136) -/

theorem iszero_eq_decide (c : Int) : iszero c = decide (c = 0) := rfl

theorem decide_ne_zero (c : Int) : decide (c ≠ 0) = !iszero c := decide_not

/-- One turn of the loop on `x`: the shift, and the presence bit of the channel. -/
def pushPresence (x : Byte) (present : Bool) : Byte := (x <<< 1) ||| BitVec.setWidth 8 (BitVec.ofBool present)

/-- The flag byte of a colour entry: P, and the presence bits of red, green and blue (R98). -/
def colourFlag (r g b : Bool) : Byte := flagByte 0 true (BitVec.ofBool r ++ BitVec.ofBool g ++ BitVec.ofBool b)

/-- From `x = 1` the loop ends at the flag byte of the pixel. -/
theorem pushPresence_eq_colourFlag :
    ∀ r g b : Bool, pushPresence (pushPresence (pushPresence 1#8 r) g) b = colourFlag r g b := by decide

/-- What the test `x == 8` of R137 finds. -/
theorem colourFlag_eq_eight_iff : ∀ r g b : Bool, colourFlag r g b = 0x08#8 ↔ r = false ∧ g = false ∧ b = false := by decide

/-- The channels of a colour pixel that its entry carries, in the order red, green, blue (R100). -/
def nonzeroChannels (r g b : Int) : List Int := [r, g, b].filter (· ≠ 0)

theorem length_nonzeroChannels (r g b : Int) :
    (nonzeroChannels r g b).length = (decide (r ≠ 0)).toNat + (decide (g ≠ 0)).toNat + (decide (b ≠ 0)).toNat := by
  simp only [nonzeroChannels, ← List.countP_eq_length_filter, List.countP_cons, List.countP_nil, Bool.toNat, Bool.cond_eq_ite]
  omega

/-- The channels of a form (R140 to R146) are those of the pixel when the form names its non-zero ones. -/
theorem formChannels_eq_nonzeroChannels (r g b : Int) :
    (if r ≠ 0 then [r] else []) ++ (if g ≠ 0 then [g] else []) ++ (if b ≠ 0 then [b] else []) = nonzeroChannels r g b := by
  have hone : ∀ c : Int, (if c ≠ 0 then [c] else []) = [c].filter (· ≠ 0) := fun c => by by_cases hc : c = 0 <;> simp [hc]
  rw [hone, hone, hone, ← List.filter_append, ← List.filter_append]
  rfl

/-- The loop shifts in a presence bit per channel and appends the payloads of the non-zero channels. -/
theorem encLoop_eq (frac : Nat) (k : Shift) (cs : List Int) : ∀ (x : Byte) (pending : List Byte), encLoop frac k cs x pending =
    (quantAll frac k (cs.filter (· ≠ 0))).map fun bs => (cs.foldl (fun y c => pushPresence y (c ≠ 0)) x, pending ++ bs) := by
  induction cs with
  | nil => intro x pending; simp [encLoop, quantAll]
  | cons c cs ih =>
    intro x pending
    by_cases hc : c = 0
    · simp [encLoop, iszero_eq_decide, ih, pushPresence, hc]
    · cases hq : quant frac k c with
      | none => simp [encLoop, iszero_ne hc, hc, hq, quantAll_cons_none hq]
      | some q => simp [encLoop, iszero_ne hc, hc, hq, quantAll_cons_some hq, ih, pushPresence, Function.comp_def]

/-! ### The entry encoder, pixel by pixel -/

@[simp] theorem encEntry_gray_zero (frac : Nat) (k : Shift) : encEntry frac k (.gray 0) = some [0x00#8] := rfl

/-- A non-zero grayscale coefficient (R135). -/
theorem encEntry_gray {frac : Nat} {k : Shift} {c : Int} (hc : c ≠ 0) :
    encEntry frac k (.gray c) = formRecord frac k 0x08#8 [c] := by
  simp only [encEntry, encGray, iszero_ne hc, formRecord_eq_map, quantAll, Bool.false_eq_true, if_false]
  cases quant frac k c with
  | none => rfl
  | some q => simp

@[simp] theorem encEntry_colour_zero (frac : Nat) (k : Shift) : encEntry frac k (.colour 0 0 0) = some [0x00#8] := rfl

/-- A colour pixel with a non-zero channel (R136). -/
theorem encEntry_colour {frac : Nat} {k : Shift} {r g b : Int} (h : ¬(r = 0 ∧ g = 0 ∧ b = 0)) :
    encEntry frac k (.colour r g b) = formRecord frac k (colourFlag (r ≠ 0) (g ≠ 0) (b ≠ 0)) (nonzeroChannels r g b) := by
  have hflag : colourFlag (r ≠ 0) (g ≠ 0) (b ≠ 0) ≠ 0x08#8 := by
    simpa only [ne_eq, colourFlag_eq_eight_iff, decide_eq_false_iff_not, not_not] using h
  rw [encEntry, encColour, encLoop_eq, formRecord_eq_map, nonzeroChannels]
  simp only [List.foldl_cons, List.foldl_nil, pushPresence_eq_colourFlag]
  cases quantAll frac k ([r, g, b].filter (· ≠ 0)) with
  | none => rfl
  | some bs => exact if_neg hflag

/-- Settles O20: an entry other than the zero byte is a record, whose head is its flag byte and whose length counts its channels. -/
theorem encoderEmitsCanonicalRecords : Obligations.EncoderEmitsCanonicalRecords := by
  refine ⟨fun frac k c bs h => ?gray, fun frac k r g b bs h => ?colour⟩
  case gray =>
    by_cases hc : c = 0
    · subst hc
      cases h
      exact .inl ⟨rfl, rfl⟩
    · rw [encEntry_gray hc] at h
      exact .inr ⟨hc, formRecord_len h, formRecord_head h⟩
  case colour =>
    by_cases hzero : r = 0 ∧ g = 0 ∧ b = 0
    · obtain ⟨rfl, rfl, rfl⟩ := hzero
      cases h
      exact .inl ⟨rfl, rfl, rfl, rfl⟩
    · rw [encEntry_colour hzero] at h
      exact .inr ⟨hzero, formRecord_head h, length_nonzeroChannels r g b ▸ formRecord_len h⟩

/-- What a channel adds to a colour record: its payload, unless it is zero (R100). -/
def channelBytes (c : Int) (q : Payload) : List Byte := if c = 0 then [] else bytesLe32 q

/-- A channel that does not raise adds its bytes to the payloads. -/
theorem quantAll_filter_cons {frac : Nat} {k : Shift} {c : Int} {q : Payload} (hq : c ≠ 0 → quant frac k c = some q) (cs : List Int) :
    quantAll frac k ((c :: cs).filter (· ≠ 0)) = (quantAll frac k (cs.filter (· ≠ 0))).map (channelBytes c q ++ ·) := by
  by_cases hc : c = 0
  · simp [channelBytes, hc]
  · simp [channelBytes, hc, quantAll_cons_some (hq hc)]

/-- The record of a colour pixel whose channels do not raise: the flag byte, then the payloads in the order red, green, blue (R136). -/
theorem encEntry_colour_eq_some {frac : Nat} {k : Shift} {r g b : Int} {qr qg qb : Payload} (h : ¬(r = 0 ∧ g = 0 ∧ b = 0))
    (hr : r ≠ 0 → quant frac k r = some qr) (hg : g ≠ 0 → quant frac k g = some qg) (hb : b ≠ 0 → quant frac k b = some qb) :
    encEntry frac k (.colour r g b) = some (colourFlag (r ≠ 0) (g ≠ 0) (b ≠ 0) :: (channelBytes r qr ++ (channelBytes g qg ++ channelBytes b qb))) := by
  rw [encEntry_colour h, formRecord_eq_map, nonzeroChannels, quantAll_filter_cons hr, quantAll_filter_cons hg, quantAll_filter_cons hb]
  simp [quantAll]

/-- A grayscale coefficient that raises leaves the pixel without an entry (R147). -/
theorem encEntry_gray_eq_none {frac : Nat} {k : Shift} {c : Int} (hc : c ≠ 0) (hq : quant frac k c = none) :
    encEntry frac k (.gray c) = none := by
  rw [encEntry_gray hc, formRecord_eq_none_iff]
  exact ⟨c, List.mem_singleton_self c, hq⟩

/-- A non-zero channel that raises leaves the pixel without an entry, whichever channel it is (R147). -/
theorem encEntry_colour_eq_none {frac : Nat} {k : Shift} {r g b c : Int} (hmem : c = r ∨ c = g ∨ c = b) (hc : c ≠ 0)
    (hq : quant frac k c = none) : encEntry frac k (.colour r g b) = none := by
  have hpresent : c ∈ nonzeroChannels r g b := by simp [nonzeroChannels, hmem, hc]
  have hsome : ¬(r = 0 ∧ g = 0 ∧ b = 0) := by omega
  rw [encEntry_colour hsome, formRecord_eq_none_iff]
  exact ⟨c, hpresent, hq⟩

/-! ### The ENTRY step of ENC (R174) -/

/-- The form of a colour pixel with a non-zero channel: its flag byte and its channels name the record (R140 to R146). -/
theorem exec_form_of_nonzero {s : State} {r g b : Int} (h : ¬(r = 0 ∧ g = 0 ∧ b = 0)) : exec (Pixel.colour r g b).form s =
    liftEnc s (colourFormStep s.params s.enc (colourFlag (r ≠ 0) (g ≠ 0) (b ≠ 0)) (r ≠ 0) (g ≠ 0) (b ≠ 0)) := by
  simp only [← iszero_iff] at h
  simp only [Pixel.form, colourFlag, decide_ne_zero]
  generalize iszero r = zr, iszero g = zg, iszero b = zb at h ⊢
  cases zr <;> cases zg <;> cases zb
  case true.true.true => exact absurd ⟨rfl, rfl, rfl⟩ h
  all_goals rfl

section
variable {s : State} (hin : s.enc.inEntries = true)
include hin

/-- ENC.ENTRY on a pixel that can be read. -/
theorem exec_encEntry_of_pixel {pix : Pixel} (hpix : pixelAt s.params s.enc = .ok pix) :
    exec .encEntry s = .next { s with enc := emitEntry s.params s.enc (encEntry s.params.frac s.enc.shift pix) } := by
  simp only [exec, execEncEntry, hin, hpix, if_true]

/-- The form of a grayscale pixel is the ENTRY step on its entry (R135). -/
theorem exec_form_gray {c : Int} (hpix : pixelAt s.params s.enc = .ok (.gray c)) : exec (Pixel.gray c).form s =
    .next { s with enc := emitEntry s.params s.enc (encEntry s.params.frac s.enc.shift (.gray c)) } := by
  by_cases hc : c = 0
  · subst hc
    simp [Pixel.form, iszero_eq_decide, exec, execEncZ, zeroFormStep, hin, hpix, liftEnc]
  · simp [Pixel.form, iszero_ne hc, exec, execEncG, grayFormStep, hin, hpix, gray_of_pixel hpix, liftEnc, encEntry_gray hc]

/-- The step of the colour form that names the non-zero channels of the pixel. -/
theorem colourFormStep_of_pixel {r g b : Int} (hpix : pixelAt s.params s.enc = .ok (.colour r g b)) (flag : Byte) :
    colourFormStep s.params s.enc flag (r ≠ 0) (g ≠ 0) (b ≠ 0) =
      .next (emitEntry s.params s.enc (formRecord s.params.frac s.enc.shift flag (nonzeroChannels r g b))) := by
  simp [colourFormStep, hin, hpix, colour_of_pixel hpix, iszero_eq_decide, ← formChannels_eq_nonzeroChannels]

/-- The form of a colour pixel is the ENTRY step on its entry (R136, R137, R140 to R146). -/
theorem exec_form_colour {r g b : Int} (hpix : pixelAt s.params s.enc = .ok (.colour r g b)) : exec (Pixel.colour r g b).form s =
    .next { s with enc := emitEntry s.params s.enc (encEntry s.params.frac s.enc.shift (.colour r g b)) } := by
  by_cases hzero : r = 0 ∧ g = 0 ∧ b = 0
  · obtain ⟨rfl, rfl, rfl⟩ := hzero
    simp [Pixel.form, iszero_eq_decide, exec, execEncZ, zeroFormStep, hin, hpix, liftEnc]
  · have hstep := colourFormStep_of_pixel hin hpix (colourFlag (r ≠ 0) (g ≠ 0) (b ≠ 0))
    rw [← encEntry_colour hzero] at hstep
    rw [exec_form_of_nonzero hzero, hstep, liftEnc]

theorem exec_form {pix : Pixel} (hpix : pixelAt s.params s.enc = .ok pix) : exec pix.form s =
    .next { s with enc := emitEntry s.params s.enc (encEntry s.params.frac s.enc.shift pix) } := by
  cases pix with
  | gray c => exact exec_form_gray hin hpix
  | colour r g b => exact exec_form_colour hin hpix

/-- The form of the pixel emits the pixel's entry (R174, R175). -/
theorem emitsRecord_form {pix : Pixel} {bs : List Byte} (hinv : EncInv s.params s.enc) (hpix : pixelAt s.params s.enc = .ok pix)
    (hbs : encEntry s.params.frac s.enc.shift pix = some bs) : EmitsRecord s pix.form bs := by
  intro hcap
  have hroom := osLen_bound hinv hin
  have hlen := encEntry_length_bounds bs hbs
  refine ⟨(s.enc.append bs).advance, ?_, advance_emitted (by omega)⟩
  simp [exec_form hin hpix, hbs, emitEntry, hcap]

end

/-- Settles O21: both steps emit the pixel's entry. -/
theorem encoderEntryIsItsForm : Obligations.EncoderEntryIsItsForm := by
  intro s pix hin hpix
  rw [exec_encEntry_of_pixel hin hpix, exec_form hin hpix]

/-- Settles O24: the pixel has no entry, which is the error step before the capacity is looked at. -/
theorem unrepresentableCoefficientRaises : Obligations.UnrepresentableCoefficientRaises := by
  intro s pix hin hpix hbad
  have hnone : encEntry s.params.frac s.enc.shift pix = none := by
    obtain ⟨c, rfl, hc, hq⟩ | ⟨r, g, b, c, rfl, hmem, hc, hq⟩ := hbad
    · exact encEntry_gray_eq_none hc hq
    · exact encEntry_colour_eq_none hmem hc hq
  exact ⟨_, by rw [exec_encEntry_of_pixel hin hpix, hnone, emitEntry], raise_encRaised _ _⟩

/-- Settles O22: `emitsRecord_form`, with the form and the entry of each set of non-zero channels. -/
theorem encoderFormsEmitTheirRecords : Obligations.EncoderFormsEmitTheirRecords := by
  intro s cr cg cb qr qg qb hinv hin hqr hqg hqb
  refine ⟨fun hpix => ?gray, fun hpix => ?colour⟩
  case gray =>
    constructor
    · rintro rfl
      exact emitsRecord_form hin hinv hpix rfl
    · intro hc
      have hentry : encEntry s.params.frac s.enc.shift (.gray cr) = some (0x08 :: bytesLe32 qr) := by
        simp [encEntry_gray hc, formRecord_eq_map, quantAll, hqr hc]
      simpa [Pixel.form, iszero_ne hc] using emitsRecord_form hin hinv hpix hentry
  case colour =>
    constructor
    · rintro rfl rfl rfl
      exact emitsRecord_form hin hinv hpix rfl
    · have hrecord := fun h => emitsRecord_form hin hinv hpix (encEntry_colour_eq_some h hqr hqg hqb)
      refine ⟨?_, ?_, ?_, ?_, ?_, ?_, ?_⟩ <;> intro hr hg hb <;>
        simpa [Pixel.form, iszero_eq_decide, colourFlag, flagByte, channelBytes, hr, hg, hb] using hrecord (by omega)

end Sys2Proof.Machine
end

section
/-! SUPPORT. The entry decoder (42_entry_decode): what the ten records store, where a record is cut short, the fetch at D_SP against the pseudocode of
`dec_entry`, and the entry of a pixel read back. -/

namespace Sys2Proof.Machine

/-! ### Dequantization (R153) -/

/-- `dequant` is the left shift of the payload in a 287-bit word. -/
theorem dequant_eq_shiftLeft (k : Shift) (q : Payload) : dequant k q = BitVec.ofInt 287 q.toInt <<< k.toNat := by
  have htwo : BitVec.ofInt 287 (2 ^ k.toNat) = BitVec.twoPow 287 k.toNat := by
    have hcast : (2 : Int) ^ k.toNat = ((2 ^ k.toNat : Nat) : Int) := (Nat.cast_pow 2 k.toNat).symm
    rw [hcast, BitVec.ofInt_natCast]
    exact BitVec.eq_of_toNat_eq (by rw [BitVec.toNat_ofNat, BitVec.toNat_twoPow])
  rw [dequant, BitVec.ofInt_mul, htwo, BitVec.shiftLeft_eq_mul_twoPow]

/-- Settles O33: the value is `toInt_dequant`, and the low bits are those a left shift clears. -/
theorem dequantIsExact : Obligations.DequantIsExact := by
  intro k q
  refine ⟨toInt_dequant k q, fun i hi => ?_⟩
  rw [dequant_eq_shiftLeft, BitVec.getLsbD_shiftLeft, decide_eq_true hi]
  simp

/-! ### The step on a record (R152, R189) -/

section
variable {d : DecState} {len : Nat} {vals : List (Nat × Payload)} (hready : d.entryReady = true)
include hready

/-- A record that is whole in the stream is consumed. -/
theorem decRecordStep_of_le (hfit : d.sp.toNat + len ≤ d.isLen.toNat) : decRecordStep true d len vals = d.consume len vals := by
  simp only [decRecordStep, hready, Nat.not_lt.mpr hfit, Bool.and_self, if_true, if_false]

/-- A record cut short is the error step at D_SP. -/
theorem decRecordStep_of_lt (hshort : d.isLen.toNat < d.sp.toNat + len) :
    decRecordStep true d len vals = d.raise .truncatedEntry d.sp := by
  simp only [decRecordStep, hready, hshort, Bool.and_self, if_true]

end

/-- A whole record of distinct channels stores them and advances; nothing else changes (R189, R191). -/
theorem consume_consumedEntry {d : DecState} {len : Nat} {vals : List (Nat × Payload)} (hnodup : (vals.map Prod.fst).Nodup)
    (hfit : d.sp.toNat + len ≤ d.isLen.toNat) : ConsumedEntry d (d.consume len vals) len vals := by
  obtain ⟨hstored, hother⟩ := storeVals_get d.row d.col d.shift vals d.dm hnodup
  have hroom := d.isLen.isLt
  refine ⟨fun ch q hmem => ?_, hother, ?_, rfl, fun hlast => ?_, fun hinner => ?_, ⟨rfl, rfl⟩, rfl, rfl, rfl, rfl, rfl, rfl, rfl, rfl,
    rfl, rfl⟩
  · rw [DecState.consume_dm, hstored ch q hmem, toInt_dequant]
  · rw [DecState.consume_sp, BitVec.toNat_add, BitVec.toNat_ofNat]
    omega
  · rw [DecState.consume_row, DecState.consume_col, nextCursor, if_pos hlast]
    exact ⟨rfl, rfl⟩
  · rw [DecState.consume_row, DecState.consume_col, nextCursor, if_neg hinner]
    exact ⟨rfl, rfl⟩

section
variable {s : State} {en : Entry} (hready : s.dec.entryReady = true) (hm : en.inMode s.dec.gray = true)
include hready hm

/-- The meaning of a record of the mode that is whole in the stream. -/
theorem execRecord_of_le (hfit : s.dec.sp.toNat + (encodeEntry en).length ≤ s.dec.isLen.toNat) :
    execRecord en s = .next { s with dec := s.dec.consume (encodeEntry en).length en.vals } := by
  rw [execRecord_of_inMode hm, decRecordStep_of_le hready hfit]

theorem storesRecord_instr : StoresRecord s en.instr (encodeEntry en).length en.vals := fun hfit =>
  ⟨_, (exec_record en s).trans (execRecord_of_le hready hm hfit), consume_consumedEntry en.vals_nodup hfit⟩

end

/-- Settles O29: each of the ten is `storesRecord_instr` of its form, whose length and channels compute. -/
theorem entryRecordsStoreTheirChannels : Obligations.EntryRecordsStoreTheirChannels := by
  intro s hi lo qr qg qb hready
  refine ⟨storesRecord_instr (en := .z hi lo) hready rfl, fun hgray => ?gray, fun hgray => ?colour⟩
  case gray => exact storesRecord_instr (en := .g hi lo qr) hready hgray
  case colour =>
    have hcolour : (!s.dec.gray) = true := by rw [hgray]; rfl
    exact ⟨storesRecord_instr (en := .c0 hi) hready hcolour, storesRecord_instr (en := .cB hi qb) hready hcolour,
      storesRecord_instr (en := .cG hi qg) hready hcolour, storesRecord_instr (en := .cGB hi qg qb) hready hcolour,
      storesRecord_instr (en := .cR hi qr) hready hcolour, storesRecord_instr (en := .cRB hi qr qb) hready hcolour,
      storesRecord_instr (en := .cRG hi qr qg) hready hcolour, storesRecord_instr (en := .cRGB hi qr qg qb) hready hcolour⟩

/-- Settles O30: whatever the form, the record step looks at its length first. -/
theorem truncatedRecordRaises : Obligations.TruncatedRecordRaises := by
  intro s en hready hm hshort
  refine ⟨s.dec.raise .truncatedEntry s.dec.sp, ?_, raise_decRaised _ _ _⟩
  rw [exec_record, execRecord_of_inMode hm, decRecordStep_of_lt hready hshort]

/-! ### The entry of a pixel read back (R166) -/

/-- The payload a coefficient has in an entry: none for zero, its quantization otherwise (R131, R133). -/
def payloadOf (frac : Nat) (k : Shift) (c : Int) : Option Payload := if c = 0 then none else quant frac k c

/-- The entry the encoder writes for a pixel (R102). -/
def Pixel.entry (frac : Nat) (k : Shift) : Pixel → Entry
  | .gray c => grayEntry (payloadOf frac k c)
  | .colour r g b => colourEntry (payloadOf frac k r) (payloadOf frac k g) (payloadOf frac k b)

theorem payloadOf_eq_some {frac : Nat} {k : Shift} {c : Int} {q : Payload} (h : payloadOf frac k c = some q) :
    c ≠ 0 ∧ quant frac k c = some q := by
  rw [payloadOf] at h
  split at h
  next => cases h
  next hc => exact ⟨hc, h⟩

theorem payloadOf_of_quant {frac : Nat} {k : Shift} {c : Int} {q : Payload} (h : c ≠ 0 → quant frac k c = some q) :
    payloadOf frac k c = if c = 0 then none else some q := by
  rw [payloadOf]
  split
  next => rfl
  next hc => exact h hc

theorem coef_colour (r g b : Int) (ch : Nat) :
    (Pixel.colour r g b).coef ch = r ∨ (Pixel.colour r g b).coef ch = g ∨ (Pixel.colour r g b).coef ch = b :=
  match ch with
  | 0 => .inl rfl
  | 1 => .inr (.inl rfl)
  | _ + 2 => .inr (.inr rfl)

/-- No channel of a pixel that has an entry raises (R147). -/
theorem exists_quant_of_encEntry {frac : Nat} {k : Shift} {pix : Pixel} {bs : List Byte} (h : encEntry frac k pix = some bs) (ch : Nat) :
    ∃ q, pix.coef ch ≠ 0 → quant frac k (pix.coef ch) = some q := by
  by_cases hc : pix.coef ch = 0
  · exact ⟨0, fun hne => absurd hc hne⟩
  · have hsome : quant frac k (pix.coef ch) ≠ none := fun hnone => by
      cases pix with
      | gray c => exact nomatch h.symm.trans (encEntry_gray_eq_none hc hnone)
      | colour r g b => exact nomatch h.symm.trans (encEntry_colour_eq_none (coef_colour r g b ch) hc hnone)
    obtain ⟨q, hq⟩ := Option.ne_none_iff_exists'.mp hsome
    exact ⟨q, fun _ => hq⟩

/-- `enc_entry` writes the bytes of the pixel's entry (R135 to R137). -/
theorem encodeEntry_entry {frac : Nat} {k : Shift} {pix : Pixel} {bs : List Byte} (h : encEntry frac k pix = some bs) :
    encodeEntry (pix.entry frac k) = bs := by
  cases pix with
  | gray c =>
    obtain ⟨q, hq⟩ : ∃ q, c ≠ 0 → quant frac k c = some q := exists_quant_of_encEntry h 0
    rw [Pixel.entry, payloadOf_of_quant hq]
    by_cases hc : c = 0
    · subst hc
      cases h
      rfl
    · rw [encEntry_gray hc, formRecord_eq_map, quantAll_cons_some (hq hc)] at h
      cases h
      rw [if_neg hc]
      simp [grayEntry, encodeEntry, flagByte]
  | colour r g b =>
    obtain ⟨qr, hqr⟩ : ∃ q, r ≠ 0 → quant frac k r = some q := exists_quant_of_encEntry h 0
    obtain ⟨qg, hqg⟩ : ∃ q, g ≠ 0 → quant frac k g = some q := exists_quant_of_encEntry h 1
    obtain ⟨qb, hqb⟩ : ∃ q, b ≠ 0 → quant frac k b = some q := exists_quant_of_encEntry h 2
    rw [Pixel.entry, payloadOf_of_quant hqr, payloadOf_of_quant hqg, payloadOf_of_quant hqb]
    by_cases hzero : r = 0 ∧ g = 0 ∧ b = 0
    · obtain ⟨rfl, rfl, rfl⟩ := hzero
      cases h
      rfl
    · rw [encEntry_colour_eq_some hzero hqr hqg hqb] at h
      cases h
      by_cases hr : r = 0 <;> by_cases hg : g = 0 <;> by_cases hb : b = 0
      · exact absurd ⟨hr, hg, hb⟩ hzero
      all_goals simp [colourEntry, encodeEntry, colourFlag, channelBytes, hr, hg, hb]

/-- The entry of a pixel is read in the mode of its layout. -/
theorem entry_inMode (frac : Nat) (k : Shift) (pix : Pixel) : (pix.entry frac k).inMode pix.isGray = true := by
  cases pix with
  | gray c =>
    rw [Pixel.entry]
    cases payloadOf frac k c <;> rfl
  | colour r g b =>
    rw [Pixel.entry]
    cases payloadOf frac k r <;> cases payloadOf frac k g <;> cases payloadOf frac k b <;> rfl

theorem mem_vals_grayEntry {o : Option Payload} {ch : Nat} {q : Payload} : (ch, q) ∈ (grayEntry o).vals ↔ ch = 0 ∧ o = some q := by
  cases o <;> simp [grayEntry, Entry.vals, eq_comm]

theorem mem_vals_colourEntry {oR oG oB : Option Payload} {ch : Nat} {q : Payload} :
    (ch, q) ∈ (colourEntry oR oG oB).vals ↔ (ch = 0 ∧ oR = some q) ∨ (ch = 1 ∧ oG = some q) ∨ (ch = 2 ∧ oB = some q) := by
  cases oR <;> cases oG <;> cases oB <;> simp [colourEntry, Entry.vals, eq_comm]

/-- The values of a pixel's entry are the payloads of its channels. -/
theorem mem_vals_entry {frac : Nat} {k : Shift} {pix : Pixel} {ch : Nat} {q : Payload} :
    (ch, q) ∈ (pix.entry frac k).vals ↔ ch < channels pix.isGray ∧ payloadOf frac k (pix.coef ch) = some q := by
  cases pix with
  | gray c =>
    have hlt : ch < channels (Pixel.gray c).isGray ↔ ch = 0 := Nat.lt_one_iff
    rw [Pixel.entry, mem_vals_grayEntry, hlt]
    rfl
  | colour r g b =>
    have hlt : ch < channels (Pixel.colour r g b).isGray ↔ ch = 0 ∨ ch = 1 ∨ ch = 2 := by
      change ch < 3 ↔ _
      omega
    rw [Pixel.entry, mem_vals_colourEntry, hlt]
    constructor
    · rintro (⟨rfl, h⟩ | ⟨rfl, h⟩ | ⟨rfl, h⟩)
      · exact ⟨.inl rfl, h⟩
      · exact ⟨.inr (.inl rfl), h⟩
      · exact ⟨.inr (.inr rfl), h⟩
    · rintro ⟨rfl | rfl | rfl, h⟩
      · exact .inl ⟨rfl, h⟩
      · exact .inr (.inl ⟨rfl, h⟩)
      · exact .inr (.inr ⟨rfl, h⟩)

/-- Red, green and blue, or the one grayscale channel, are the channels 0, 1 and 2 of the layout (R130). -/
theorem coef_of_channel {pix : Pixel} {ch : Nat} {c : Int}
    (h : (pix = .gray c ∧ ch = 0) ∨ ∃ r g b, pix = .colour r g b ∧ ((ch = 0 ∧ c = r) ∨ (ch = 1 ∧ c = g) ∨ (ch = 2 ∧ c = b))) :
    ch < channels pix.isGray ∧ pix.coef ch = c := by
  obtain ⟨rfl, rfl⟩ | ⟨r, g, b, rfl, ⟨rfl, rfl⟩ | ⟨rfl, rfl⟩ | ⟨rfl, rfl⟩⟩ := h <;> exact ⟨by simp [Pixel.isGray, channels], rfl⟩

/-- Settles O34: the bytes of a pixel are those of `Pixel.entry`, which decodes back and whose values are the payloads of the non-zero channels
(`mem_vals_entry`). -/
theorem decodedEntryIsTheQuantizedPixel : Obligations.DecodedEntryIsTheQuantizedPixel := by
  intro frac pix bs rest d hbs hlayout
  have hgray : d.gray = pix.isGray := by cases pix <;> exact hlayout
  have hm : (pix.entry frac d.shift).inMode d.gray = true := hgray ▸ entry_inMode frac d.shift pix
  obtain rfl := encodeEntry_entry hbs
  refine ⟨pix.entry frac d.shift, (pix.entry frac d.shift).vals, decodeEntry_encodeEntry hm rest, ?_, ?_, Entry.vals_nodup _, ?_⟩
  · rintro s rfl hready hfit
    rw [exec_record, execRecord_of_le hready hm hfit]
  · intro ch q hmem
    exact hgray ▸ (mem_vals_entry.mp hmem).1
  · intro ch c hch
    obtain ⟨hlt, rfl⟩ := coef_of_channel hch
    refine ⟨fun hzero q hmem => ?_, fun hne => ?_, fun q hmem => ?_⟩
    · exact (payloadOf_eq_some (mem_vals_entry.mp hmem).2).1 hzero
    · obtain ⟨q, hq⟩ := exists_quant_of_encEntry hbs ch
      exact ⟨q, mem_vals_entry.mpr ⟨hlt, (if_neg hne).trans (hq hne)⟩⟩
    · rw [toInt_dequant, toInt_of_quant (payloadOf_eq_some (mem_vals_entry.mp hmem).2).2]

end Sys2Proof.Machine
end

section
/-! SUPPORT. The fetch, the flag-byte map and the record meanings of DEC.ENTRY against the pseudocode of `dec_entry` (42_entry_decode R150, R152; 44_container_reader
R189). -/

namespace Sys2Proof.Machine

/-! ### Spans read in two parts -/

theorem Memory.getBytes_add_of_ok {m : List Host.Cell} {a n k : Nat} {cs : List Byte} (h : Memory.getBytes m a (n + k) = .ok cs) :
    ∃ bs bs', cs = bs ++ bs' ∧ Memory.getBytes m a n = .ok bs ∧ Memory.getBytes m (a + n) k = .ok bs' := by
  rw [Memory.getBytes_add] at h
  split at h
  next => cases h
  next bs hbs =>
    split at h
    next => cases h
    next bs' hbs' =>
      cases h
      exact ⟨bs, bs', rfl, hbs, hbs'⟩

theorem Memory.getBytes_add_of_error {m : List Host.Cell} {a n k b : Nat} (h : Memory.getBytes m a (n + k) = .error b) :
    Memory.getBytes m a n = .error b ∨ ∃ bs, Memory.getBytes m a n = .ok bs ∧ Memory.getBytes m (a + n) k = .error b := by
  rw [Memory.getBytes_add] at h
  split at h
  next c hc =>
    cases h
    exact .inl hc
  next bs hbs =>
    split at h
    next c hc =>
      cases h
      exact .inr ⟨bs, hbs, hc⟩
    next => cases h

/-- Four bytes are those of one payload integer (R99). -/
theorem exists_payload_of_getBytes {m : List Host.Cell} {a : Nat} {bs : List Byte} (h : Memory.getBytes m a 4 = .ok bs) :
    ∃ q, bs = bytesLe32 q := by
  have hlen := ((Memory.getBytes_ok_iff ..).mp h).1
  obtain ⟨q, hq⟩ := takePayload_len (bs := bs) (by omega)
  have hbs := takePayload_inv hq
  rw [List.drop_eq_nil_of_le (by omega), List.append_nil] at hbs
  exact ⟨q, hbs⟩

/-! ### `read_payload` (R152) -/

/-- The number of payload integers that are whole in the stream from offset `p` on. -/
def DecState.wholePayloads (d : DecState) (p : Nat) : Nat := (d.isLen.toNat - p) / 4

/-- The length test of `read_payload` asks whether any is. -/
theorem DecState.wholePayloads_eq_zero_iff (d : DecState) (p : Nat) : d.wholePayloads p = 0 ↔ (d.isLen.toNat : Int) - (p : Int) < 4 := by
  rw [wholePayloads]
  omega

/-- Past one whole integer there is one less. -/
theorem DecState.wholePayloads_eq_succ {d : DecState} {p : Nat} (h : 0 < d.wholePayloads p) :
    d.wholePayloads p = d.wholePayloads (p + 4) + 1 := by
  simp only [wholePayloads] at h ⊢
  omega

/-- The span of a record holds its flag byte and its integers, as far as they are whole (R150, R152). -/
theorem recordSpan_eq {d : DecState} {n : Nat} (hsp : d.sp.toNat < d.isLen.toNat) :
    recordSpan d (1 + 4 * n) = 1 + 4 * min n (d.wholePayloads (d.sp.toNat + 1)) := by
  rw [recordSpan, DecState.wholePayloads]
  split <;> omega

theorem readPayload_truncated {d : DecState} {p : Nat} (h : d.wholePayloads p = 0) : readPayload d p = .error .truncated := by
  rw [readPayload, if_pos ((d.wholePayloads_eq_zero_iff p).mp h)]

section
variable {d : DecState} {p : Nat} (hwhole : 0 < d.wholePayloads p)
include hwhole

theorem readPayload_unwritten {a : Nat} (h : Memory.getBytes d.inp p 4 = .error a) : readPayload d p = .error (.unwritten a) := by
  rw [readPayload, if_neg (mt (d.wholePayloads_eq_zero_iff p).mpr hwhole.ne'), h]

theorem readPayload_ok {q : Payload} (h : Memory.getBytes d.inp p 4 = .ok (bytesLe32 q)) : readPayload d p = .ok q := by
  rw [readPayload, if_neg (mt (d.wholePayloads_eq_zero_iff p).mpr hwhole.ne'), h]
  exact congrArg Except.ok (le32_bytes q)

end

/-! ### The loop over the present channels (R150) -/

/-- The loop passes a channel whose integer is whole and written. -/
theorem readChannels_cons {d : DecState} {p : Nat} {q : Payload} (hwhole : 0 < d.wholePayloads p)
    (h : Memory.getBytes d.inp p 4 = .ok (bytesLe32 q)) (ch : Nat) (chs : List Nat) (acc : List (Nat × DmWord)) :
    readChannels d (ch :: chs) p acc = readChannels d chs (p + 4) (acc ++ [(ch, dequant d.shift q)]) := by
  rw [readChannels, readPayload_ok hwhole h]

/-- The bytes of the payload integers of a list of values, in order (R100). -/
def valsBytes (vals : List (Nat × Payload)) : List Byte := vals.flatMap fun c => bytesLe32 c.2

/-- The words a list of values stands for (R153). -/
def valsWords (k : Shift) (vals : List (Nat × Payload)) : List (Nat × DmWord) := vals.map fun c => (c.1, dequant k c.2)

/-- All integers whole and written: the loop gives their words. -/
theorem readChannels_ok {d : DecState} {vals : List (Nat × Payload)} : ∀ {p : Nat} (acc : List (Nat × DmWord)),
    vals.length ≤ d.wholePayloads p → Memory.getBytes d.inp p (4 * vals.length) = .ok (valsBytes vals) →
    readChannels d (vals.map Prod.fst) p acc = .ok (acc ++ valsWords d.shift vals, p + 4 * vals.length) := by
  induction vals with
  | nil => intro p acc _ _; simp [readChannels, valsWords]
  | cons c vals ih =>
    intro p acc hle hbytes
    obtain ⟨ch, q⟩ := c
    rw [List.length_cons] at hle hbytes
    have hwhole : 0 < d.wholePayloads p := by omega
    have hsucc := DecState.wholePayloads_eq_succ hwhole
    rw [show 4 * (vals.length + 1) = 4 + 4 * vals.length by omega] at hbytes
    obtain ⟨bs, bs', hsplit, hhead, htail⟩ := Memory.getBytes_add_of_ok hbytes
    have hlen := ((Memory.getBytes_ok_iff ..).mp hhead).1
    obtain ⟨rfl, rfl⟩ : bytesLe32 q = bs ∧ valsBytes vals = bs' := List.append_inj hsplit (by rw [hlen]; rfl)
    rw [List.map_cons, readChannels_cons hwhole hhead, ih _ (by omega) htail]
    simp [valsWords, Nat.mul_add, Nat.add_assoc, Nat.add_comm (4 * vals.length)]

/-- An unwritten byte in a whole integer stops the loop, whatever follows (log 25). -/
theorem readChannels_unwritten {d : DecState} {a : Nat} {chs : List Nat} : ∀ {p : Nat} (acc : List (Nat × DmWord)),
    Memory.getBytes d.inp p (4 * min chs.length (d.wholePayloads p)) = .error a →
    readChannels d chs p acc = .error (.unwritten a) := by
  induction chs with
  | nil =>
    intro p acc h
    rw [List.length_nil, Nat.zero_min] at h
    cases h
  | cons ch chs ih =>
    intro p acc h
    rcases Nat.eq_zero_or_pos (d.wholePayloads p) with hzero | hwhole
    · rw [hzero, Nat.min_zero] at h
      cases h
    · rw [List.length_cons, DecState.wholePayloads_eq_succ hwhole,
        show 4 * min (chs.length + 1) (d.wholePayloads (p + 4) + 1) = 4 + 4 * min chs.length (d.wholePayloads (p + 4)) by omega] at h
      obtain hhead | ⟨bs, hhead, htail⟩ := Memory.getBytes_add_of_error h
      · rw [readChannels, readPayload_unwritten hwhole hhead]
      · obtain ⟨q, rfl⟩ := exists_payload_of_getBytes hhead
        rw [readChannels_cons hwhole hhead, ih _ htail]

/-- An integer cut short, with the ones before it written: TruncatedEntry (R152). -/
theorem readChannels_truncated {d : DecState} {chs : List Nat} : ∀ {p : Nat} {bs : List Byte} (acc : List (Nat × DmWord)),
    d.wholePayloads p < chs.length → Memory.getBytes d.inp p (4 * d.wholePayloads p) = .ok bs →
    readChannels d chs p acc = .error .truncated := by
  induction chs with
  | nil => intro p bs acc hlt _; exact absurd hlt (Nat.not_lt_zero _)
  | cons ch chs ih =>
    intro p bs acc hlt hbytes
    rcases Nat.eq_zero_or_pos (d.wholePayloads p) with hzero | hwhole
    · rw [readChannels, readPayload_truncated hzero]
    · have hsucc := DecState.wholePayloads_eq_succ hwhole
      rw [List.length_cons] at hlt
      rw [hsucc, show 4 * (d.wholePayloads (p + 4) + 1) = 4 + 4 * d.wholePayloads (p + 4) by omega] at hbytes
      obtain ⟨_, _, -, hhead, htail⟩ := Memory.getBytes_add_of_ok hbytes
      obtain ⟨q, rfl⟩ := exists_payload_of_getBytes hhead
      rw [readChannels_cons hwhole hhead, ih _ (by omega) htail]

/-! ### Channels and bytes of an entry -/

/-- The channels an entry with this flag byte carries: none when P is clear (R150). -/
def entryChannels (gray : Bool) (flag : Byte) : List Nat := if flag.getLsbD 3 then presentChannels gray flag else []

/-- The length of an entry counts its channels (R101). -/
theorem entryLen_eq_channels (gray : Bool) (flag : Byte) : entryLen gray flag = 1 + 4 * (entryChannels gray flag).length := by
  rw [entryLen, flagPresent, entryChannels, presentChannels]
  cases flag.getLsbD 3 with
  | false => rfl
  | true =>
    cases gray with
    | true => rfl
    | false =>
      simp only [List.filter]
      cases flag.getLsbD 2 <;> cases flag.getLsbD 1 <;> cases flag.getLsbD 0 <;> rfl

/-- `dec_entry` is its loop over the channels of the flag byte (R150). -/
theorem decEntryRule_of_flag {d : DecState} {sp : Nat} {flag : Byte} (h : Memory.get d.inp sp = some flag) :
    decEntryRule d sp = (readChannels d (entryChannels d.gray flag) (sp + 1) []).map fun r => (r.1, r.2 - sp) := by
  simp only [decEntryRule, h]
  cases hp : flag.getLsbD 3 with
  | false =>
    rw [entryChannels, hp, if_pos rfl, if_neg Bool.false_ne_true, readChannels, Except.map, Nat.add_sub_cancel_left]
  | true =>
    rw [entryChannels, hp, if_pos rfl, if_neg (Bool.noConfusion)]
    cases readChannels d (presentChannels d.gray flag) (sp + 1) [] <;> rfl

/-- Bit 3 of a flag byte is P (R98). -/
theorem getLsbD_three_flagByte (hi : BitVec 4) (p : Bool) (lo : BitVec 3) : (flagByte hi p lo).getLsbD 3 = p :=
  flagPresent_flagByte hi p lo

theorem entryChannels_absent (gray : Bool) (hi : BitVec 4) (lo : BitVec 3) : entryChannels gray (flagByte hi false lo) = [] := by
  rw [entryChannels, getLsbD_three_flagByte, if_neg Bool.false_ne_true]

theorem entryChannels_gray (hi : BitVec 4) (lo : BitVec 3) : entryChannels true (flagByte hi true lo) = [0] := by
  rw [entryChannels, getLsbD_three_flagByte, if_pos rfl]
  rfl

theorem entryChannels_colour (hi : BitVec 4) (lo : BitVec 3) : entryChannels false (flagByte hi true lo) =
    ([(0, 2), (1, 1), (2, 0)].filter (fun cb => lo.getLsbD cb.2)).map Prod.fst := by
  rw [entryChannels, getLsbD_three_flagByte, if_pos rfl]
  have hlow : ∀ cb ∈ [((0 : Nat), (2 : Nat)), (1, 1), (2, 0)], cb.2 < 3 := by decide
  exact congrArg (List.map Prod.fst) (List.filter_congr fun cb hcb => getLsbD_flagByte hi true lo (hlow cb hcb))

/-- The flag byte of an entry. -/
def entryFlag (en : Entry) : Byte := (encodeEntry en).headD 0

/-- An entry is its flag byte and the bytes of its values (R100). -/
theorem encodeEntry_eq_flag_cons (en : Entry) : encodeEntry en = entryFlag en :: valsBytes en.vals := by cases en <;> rfl

/-- In its mode, the flag byte of an entry names the channels of its values (R103). -/
theorem entryChannels_flag {gray : Bool} {en : Entry} (hm : en.inMode gray = true) :
    entryChannels gray (entryFlag en) = en.vals.map Prod.fst := by
  cases en with
  | z hi lo => exact entryChannels_absent gray hi lo
  | g hi lo q =>
    obtain rfl : gray = true := hm
    exact entryChannels_gray hi lo
  | c0 hi | cB hi _ | cG hi _ | cGB hi _ _ | cR hi _ | cRB hi _ _ | cRG hi _ _ | cRGB hi _ _ _ =>
    obtain rfl : gray = false := (Bool.not_eq_true' gray).mp hm
    exact entryChannels_colour hi _

/-- The bytes a flag byte asks for are the values of one entry of the mode. -/
theorem exists_entry_of_bytes {gray : Bool} {flag : Byte} {bs : List Byte} (hlen : bs.length = 4 * (entryChannels gray flag).length) :
    ∃ en, decodeEntry gray (flag :: bs) = .ok (en, []) ∧ en.inMode gray = true ∧ entryFlag en = flag ∧ valsBytes en.vals = bs := by
  have hentry := entryLen_eq_channels gray flag
  obtain ⟨en, hen⟩ := decodeEntry_of_entryLen_le (gray := gray) (flag := flag) (bs := bs) (by omega)
  rw [List.drop_eq_nil_of_le (by omega)] at hen
  obtain ⟨hbytes, hm⟩ := decodedEntryIsItsBytes gray _ [] en hen
  rw [List.append_nil, encodeEntry_eq_flag_cons, List.cons.injEq] at hbytes
  exact ⟨en, hen, hm, hbytes.1.symm, hbytes.2.symm⟩

/-! ### The fetch against the rule -/

/-- What the fetch reads: the flag byte, and the integers it asks for as far as they are whole (R150, R152). -/
theorem getBytes_recordSpan {d : DecState} {flag : Byte} (hsp : d.sp.toNat < d.isLen.toNat)
    (hflag : Memory.get d.inp d.sp.toNat = some flag) :
    Memory.getBytes d.inp d.sp.toNat (recordSpan d (entryLen d.gray flag)) =
      (Memory.getBytes d.inp (d.sp.toNat + 1)
        (4 * min (entryChannels d.gray flag).length (d.wholePayloads (d.sp.toNat + 1)))).map (flag :: ·) := by
  rw [entryLen_eq_channels, recordSpan_eq hsp, Nat.add_comm 1, Memory.getBytes, hflag]
  cases Memory.getBytes d.inp (d.sp.toNat + 1) _ <;> rfl

/-- How the fetch at D_SP and `dec_entry` answer together: the unwritten byte both stop at, the truncation both find, or the entry whose words and length the rule
gives. -/
inductive FetchMeetsRule (d : DecState) : Prop
  | unwritten (a : Nat) (hfetch : fetchEntry d = .unwritten a) (hrule : decEntryRule d d.sp.toNat = .error (.unwritten a))
  | truncated (hfetch : fetchEntry d = .truncated) (hrule : decEntryRule d d.sp.toNat = .error .truncated)
  | entry (en : Entry) (hfetch : fetchEntry d = .entry en) (hmode : en.inMode d.gray = true)
      (hfit : d.sp.toNat + (encodeEntry en).length ≤ d.isLen.toNat)
      (hrule : decEntryRule d d.sp.toNat = .ok (valsWords d.shift en.vals, (encodeEntry en).length))

/-- The integers after the flag byte are whole and written: both give the entry they make. -/
theorem fetchMeetsRule_of_whole {d : DecState} {flag : Byte} {bs : List Byte} (hsp : d.sp.toNat < d.isLen.toNat)
    (hflag : Memory.get d.inp d.sp.toNat = some flag)
    (hwhole : (entryChannels d.gray flag).length ≤ d.wholePayloads (d.sp.toNat + 1))
    (hbytes : Memory.getBytes d.inp (d.sp.toNat + 1) (4 * (entryChannels d.gray flag).length) = .ok bs) : FetchMeetsRule d := by
  have hspan := getBytes_recordSpan hsp hflag
  rw [Nat.min_eq_left hwhole, hbytes] at hspan
  obtain ⟨en, hdecode, hmode, rfl, rfl⟩ := exists_entry_of_bytes ((Memory.getBytes_ok_iff ..).mp hbytes).1
  have hchannels := entryChannels_flag hmode
  have hcount : (entryChannels d.gray (entryFlag en)).length = en.vals.length := by rw [hchannels, List.length_map]
  have hlen : (encodeEntry en).length = 1 + 4 * en.vals.length := by
    rw [encodeEntry_eq_flag_cons, List.length_cons, ((Memory.getBytes_ok_iff ..).mp hbytes).1, hcount, Nat.add_comm]
  rw [hcount] at hwhole hbytes
  refine .entry en ?_ hmode ?_ ?_
  · simp only [fetchEntry, hflag, hspan, Except.map, hdecode]
  · rw [DecState.wholePayloads] at hwhole
    omega
  · rw [decEntryRule_of_flag hflag, hchannels, readChannels_ok [] hwhole hbytes, hlen, Except.map]
    simp [Nat.add_assoc]

/-- An integer after the flag byte is cut short, and the ones before it are written: both find the truncation. -/
theorem fetchMeetsRule_of_short {d : DecState} {flag : Byte} {bs : List Byte} (hsp : d.sp.toNat < d.isLen.toNat)
    (hflag : Memory.get d.inp d.sp.toNat = some flag)
    (hshort : d.wholePayloads (d.sp.toNat + 1) < (entryChannels d.gray flag).length)
    (hbytes : Memory.getBytes d.inp (d.sp.toNat + 1) (4 * d.wholePayloads (d.sp.toNat + 1)) = .ok bs) : FetchMeetsRule d := by
  have hspan := getBytes_recordSpan hsp hflag
  rw [Nat.min_eq_right hshort.le, hbytes] at hspan
  have hentry := entryLen_eq_channels d.gray flag
  have hlen := ((Memory.getBytes_ok_iff ..).mp hbytes).1
  have hdecode : decodeEntry d.gray (flag :: bs) = .error .truncatedPayload := decodeEntry_of_lt_entryLen (by omega)
  refine .truncated ?_ ?_
  · simp only [fetchEntry, hflag, hspan, Except.map, hdecode]
  · rw [decEntryRule_of_flag hflag, readChannels_truncated [] hshort hbytes, Except.map]

theorem fetchMeetsRule {d : DecState} (hsp : d.sp.toNat < d.isLen.toNat) : FetchMeetsRule d := by
  cases hflag : Memory.get d.inp d.sp.toNat with
  | none => exact .unwritten d.sp.toNat (fetchEntry_flag_unwritten hflag) (by rw [decEntryRule, hflag])
  | some flag =>
    cases hbytes : Memory.getBytes d.inp (d.sp.toNat + 1)
        (4 * min (entryChannels d.gray flag).length (d.wholePayloads (d.sp.toNat + 1))) with
    | error a =>
      have hspan := getBytes_recordSpan hsp hflag
      rw [hbytes] at hspan
      refine .unwritten a ?_ ?_
      · simp only [fetchEntry, hflag, hspan, Except.map]
      · rw [decEntryRule_of_flag hflag, readChannels_unwritten [] hbytes, Except.map]
    | ok bs =>
      rcases Nat.lt_or_ge (d.wholePayloads (d.sp.toNat + 1)) (entryChannels d.gray flag).length with hshort | hwhole
      · rw [Nat.min_eq_right hshort.le] at hbytes
        exact fetchMeetsRule_of_short hsp hflag hshort hbytes
      · rw [Nat.min_eq_left hwhole] at hbytes
        exact fetchMeetsRule_of_whole hsp hflag hwhole hbytes

/-! ### The ENTRY step against the rule (R189) -/

theorem storePairs_valsWords (row col : Dim) (k : Shift) (vals : List (Nat × Payload)) : ∀ dm : List (Nat × DmWord),
    storePairs row col (valsWords k vals) dm = storeVals row col k vals dm := by
  induction vals with
  | nil => intro dm; rfl
  | cons c vals ih => intro dm; exact ih _

/-- The step of the rule on an entry is the step on its record (R189, R191). -/
theorem decEntryStepRule_of_entry {d : DecState} {en : Entry}
    (h : decEntryRule d d.sp.toNat = .ok (valsWords d.shift en.vals, (encodeEntry en).length)) :
    decEntryStepRule d = .next (d.consume (encodeEntry en).length en.vals) := by
  simp only [decEntryStepRule, h, storePairs_valsWords, DecState.consume, nextCursor]
  split <;> rfl

/-- Settles O31: the fetch and the rule answer together (`fetchMeetsRule`), and the step makes the same of each answer. -/
theorem decoderEntryIsTheRule : Obligations.DecoderEntryIsTheRule := by
  intro s hready
  obtain ⟨-, -, hsp, -⟩ := s.dec.entryReady_iff.mp hready
  cases fetchMeetsRule hsp with
  | unwritten a hfetch hrule => rw [exec_decEntry_unwritten hready hfetch, decEntryStepRule, hrule, liftDec]
  | truncated hfetch hrule => simp only [exec, execDecEntry, hready, hfetch, decEntryStepRule, hrule, liftDec, if_true]
  | entry en hfetch hmode hfit hrule =>
    rw [decEntryStepRule_of_entry hrule, liftDec, ← execRecord_of_le hready hmode hfit]
    simp only [exec, execDecEntry, hready, hfetch, if_true]

end Sys2Proof.Machine
end

section
/-! SUPPORT. The container writer (43_container_writer): the step ENC takes in each phase, what the HEADER step appends, that no step of ENC touches the matrix, and the
length of an encode run. -/

namespace Sys2Proof.Machine

/-! ### The step in each phase (R170, R171) -/

/-- Settles O10: with ENC alone the step is ENC's dispatch, and the idle step when ENC is not BUSY. -/
theorem stepRunsTheEncoderPhase : Obligations.StepRunsTheEncoderPhase := by
  refine ⟨fun s halone hbusy => ?_, fun s ⟨hlegal, hpending, hdec⟩ hidle => step_idle hlegal hpending hidle hdec⟩
  have hstep := step_encAlone halone hbusy
  refine ⟨fun hphase => ?_, fun hphase => ?_, fun hphase => ?_⟩ <;> rw [hstep, encDispatch, hphase]

/-! ### The HEADER step (R173) -/

/-- The two bytes of a header field, by arithmetic (R62). -/
theorem bytesLe16_eq (u : Dim) : bytesLe16 u = [BitVec.ofNat 8 (u.toNat % 256), BitVec.ofNat 8 (u.toNat / 256)] := by
  simp only [bytesLe16, List.cons.injEq, and_true]
  refine ⟨BitVec.eq_of_toNat_eq ?low, BitVec.eq_of_toNat_eq ?high⟩ <;>
    simp only [BitVec.extractLsb'_toNat, BitVec.toNat_ofNat, Nat.shiftRight_eq_div_pow]
  case low => omega

/-- The six header bytes (R94, R173). -/
theorem EncState.header_bytes (e : EncState) : e.header.bytes =
    [BitVec.ofNat 8 (e.h.toNat % 256), BitVec.ofNat 8 (e.h.toNat / 256), BitVec.ofNat 8 (e.w.toNat % 256),
      BitVec.ofNat 8 (e.w.toNat / 256), e.shift, if e.gray then 0x01 else 0x00] := by
  rw [Header.bytes, encodeHeader, bytesLe16_eq, bytesLe16_eq]
  rfl

/-- What ENC makes of itself after the header append, field by field (R173, R176). -/
theorem EncState.afterHeader_eq (e : EncState) : e.afterHeader =
    { e with st := if e.h.toNat * e.w.toNat = 0 then .done else e.st,
             osOpen := if e.h.toNat * e.w.toNat = 0 then false else e.osOpen,
             phase := if e.h.toNat * e.w.toNat = 0 then e.phase else .entries } := by
  rw [EncState.afterHeader]
  split <;> rfl

section
variable {p : Params} {e : EncState} (hbusy : e.st = .busy) (hphase : e.phase = .header)
include hbusy hphase

/-- Where the six bytes do not fit, the HEADER step is the error step IoFailure (R68). -/
theorem encHeaderStep_of_full (hcap : overCap p e 6 = true) : encHeaderStep p e = e.raise .ioFailure := by
  simp only [encHeaderStep, hbusy, hphase, encHeaderBytes_eq, Header.bytes_length, hcap, and_self, if_true]

/-- Where they fit, they are appended. -/
theorem encHeaderStep_of_room (hcap : overCap p e 6 = false) : encHeaderStep p e = (e.append e.header.bytes).afterHeader := by
  simp only [encHeaderStep, hbusy, hphase, encHeaderBytes_eq, Header.bytes_length, hcap, and_self, if_true, Bool.false_eq_true,
    if_false]

end

/-- Settles O26: `encHeaderStep_of_room` and `encHeaderStep_of_full`; the record ENC.HDR is the same step. -/
theorem encoderHeaderStep : Obligations.EncoderHeaderStep := by
  intro s hbusy hphase hlen
  have hexec : ∀ {e}, encHeaderStep s.params s.enc = e →
      exec .encHeader s = .next { s with enc := e } ∧ exec .encHdr s = .next { s with enc := e } := by
    rintro e rfl; exact ⟨rfl, rfl⟩
  refine ⟨fun hroom => ?room, fun hfull => ?full⟩
  case full =>
    obtain ⟨hstep, hrecord⟩ := hexec (encHeaderStep_of_full hbusy hphase hfull)
    exact ⟨_, hstep, hrecord, raise_encRaised _ _⟩
  case room =>
    obtain ⟨hstep, hrecord⟩ := hexec (encHeaderStep_of_room hbusy hphase hroom)
    have happend : Appended s.enc (s.enc.append s.enc.header.bytes) s.enc.header.bytes :=
      append_appended (by rw [hlen, Header.bytes_length]; decide)
    rw [EncState.header_bytes] at hstep hrecord happend
    rw [EncState.afterHeader_eq] at hstep hrecord
    refine ⟨_, hstep, hrecord, happend, fun hzero => ?zero, fun harea => ?area, ⟨rfl, rfl, rfl, rfl⟩, rfl, rfl, rfl, rfl, rfl⟩
    case zero => simp [hzero, hphase]
    case area => simp [harea, hbusy]

/-! ### The ENTRY step (R174, R175) -/

/-- Settles O23: ENC.ENTRY is the form of its pixel (O21), which emits the pixel's entry. -/
theorem encoderEntryAppendsTheEntry : Obligations.EncoderEntryAppendsTheEntry := by
  intro s pix bs hinv hin hpix hbs hcap
  rw [encoderEntryIsItsForm s pix hin hpix]
  exact emitsRecord_form hin hinv hpix hbs hcap

/-! ### ENC only reads its matrix (R67, R181) -/

theorem encHeaderStep_sameEncInputs (p : Params) (e : EncState) : SameEncInputs e (encHeaderStep p e) := by
  rw [encHeaderStep]
  split
  next =>
    split
    next => exact ⟨e.raise_h _, e.raise_w _, e.raise_gray _, e.raise_em _⟩
    next => rw [EncState.afterHeader_eq]; exact ⟨rfl, rfl, rfl, rfl⟩
  next => exact ⟨rfl, rfl, rfl, rfl⟩

theorem emitEntry_sameEncInputs (p : Params) (e : EncState) (o : Option (List Byte)) : SameEncInputs e (emitEntry p e o) := by
  obtain ⟨x, hraise⟩ | ⟨bs, -, happend⟩ := emitEntry_cases p e o
  · rw [hraise]; exact ⟨e.raise_h x, e.raise_w x, e.raise_gray x, e.raise_em x⟩
  · rw [happend]; exact ⟨e.append_h bs, e.append_w bs, e.append_gray bs, e.append_em bs⟩

/-- No change an instruction of ENC can make touches the matrix or its shape (R181). -/
theorem EncChange.sameEncInputs {p : Params} {e f : EncState} (hf : EncChange p e f) : SameEncInputs e f := by
  cases hf with
  | stay | scale => exact ⟨rfl, rfl, rfl, rfl⟩
  | header => exact encHeaderStep_sameEncInputs p e
  | entry o => exact emitEntry_sameEncInputs p e o
  | raise x => exact ⟨e.raise_h x, e.raise_w x, e.raise_gray x, e.raise_em x⟩

/-- Settles O27: an instruction of ENC changes ENC alone, and by one of the changes of `EncChange`. -/
theorem encoderOnlyReadsTheMatrix : Obligations.EncoderOnlyReadsTheMatrix := by
  intro i s t hi h
  obtain ⟨f, rfl, hf⟩ := exec_encChange hi h
  exact ⟨⟨rfl, rfl, rfl, rfl⟩, hf.sameEncInputs⟩

/-! ### The length of an encode run (R180) -/

/-- A step that only reads the matrix leaves it loaded. -/
theorem SameEncInputs.loaded {e f : EncState} (h : SameEncInputs e f) (hloaded : e.loaded) : f.loaded := by
  obtain ⟨hh, hw, hgray, hem⟩ := h
  rwa [EncState.loaded, hh, hw, hgray, hem]

theorem exists_emWord {p : Params} {e : EncState} {row col ch : Nat} (h : (Memory.get e.em (wordAddr row col ch)).isSome = true) :
    ∃ c, emWord p e row col ch = .ok c := by
  obtain ⟨u, hu⟩ := Option.isSome_iff_exists.mp h
  exact ⟨sextBits p.coefW u, by rw [emWord, hu]⟩

/-- A pixel whose words are all written can be read (R174). -/
theorem exists_pixelAt {p : Params} {e : EncState}
    (h : ∀ ch < channels e.gray, (Memory.get e.em (wordAddr e.row.toNat e.col.toNat ch)).isSome = true) :
    ∃ pix, pixelAt p e = .ok pix := by
  have hword : ∀ ch < channels e.gray, ∃ c, emWord p e e.row.toNat e.col.toNat ch = .ok c := fun ch hch => exists_emWord (h ch hch)
  cases hg : e.gray with
  | true =>
    obtain ⟨c, hc⟩ := hword 0 (by simp [channels, hg])
    exact ⟨.gray c, by simp only [pixelAt, hc, hg, if_true]⟩
  | false =>
    obtain ⟨r, hred⟩ := hword 0 (by simp [channels, hg])
    obtain ⟨g, hgreen⟩ := hword 1 (by simp [channels, hg])
    obtain ⟨b, hblue⟩ := hword 2 (by simp [channels, hg])
    exact ⟨.colour r g b, by simp only [pixelAt, hred, hgreen, hblue, hg, Bool.false_eq_true, if_false]⟩

/-- While entries are left, the cursor is on a pixel of the matrix (R27), so in a loaded matrix it can be read. -/
theorem EncInv.exists_pixelAt {p : Params} {e : EncState} (h : EncInv p e) (hbusy : e.st = .busy) (hphase : e.phase = .entries)
    (hloaded : e.loaded) : ∃ pix, pixelAt p e = .ok pix := by
  obtain ⟨-, -, -, -, hrun, -⟩ := h
  obtain ⟨hcur, hcol, hlt, -⟩ := hrun hbusy hphase
  have hrow : e.row.toNat < e.h.toNat := Nat.lt_of_mul_lt_mul_right (a := e.w.toNat) (by omega)
  exact Machine.exists_pixelAt fun ch hch => hloaded _ _ ch hrow hcol hch

/-- The run from `s` has ended after `n` steps, in DONE or ERROR, and is in DONE at no step before. -/
def RunEndsIn (n : Nat) (s : State) : Prop :=
  (∃ t, Host.Core.run Sys2Proof.core n s = .next t ∧ (t.enc.st = .done ∨ t.enc.st = .error)) ∧
  ∀ m t, m < n → Host.Core.run Sys2Proof.core m s = .next t → t.enc.st ≠ .done

theorem RunEndsIn.of_done {s : State} (h : s.enc.st = .done) : RunEndsIn 0 s :=
  ⟨⟨s, rfl, .inl h⟩, fun _ _ hm => absurd hm (Nat.not_lt_zero _)⟩

/-- After an error step nothing moves any more (R227), so the run has ended after any number of steps. -/
theorem RunEndsIn.of_raise {s : State} (halone : s.encAlone) (x : ErrKind) (n : Nat) :
    RunEndsIn n { s with enc := s.enc.raise x } := by
  obtain ⟨hlegal, hpending, hdec⟩ := id halone
  have hidle := run_idle (s := { s with enc := s.enc.raise x }) hlegal hpending (by simp) hdec n
  refine ⟨⟨_, hidle, .inr rfl⟩, fun m t _ hrun => ?_⟩
  simp [run_raise halone hrun]

/-- A step before the run that ends makes it one step longer. -/
theorem RunEndsIn.of_step {n : Nat} {s s' : State} (hbusy : s.enc.st = .busy) (hstep : step s = .next s') (h : RunEndsIn n s') :
    RunEndsIn (n + 1) s := by
  have hrun : ∀ m, Host.Core.run Sys2Proof.core (m + 1) s = Host.Core.run Sys2Proof.core m s' :=
    fun _ => run_of_next Sys2Proof.core hstep
  obtain ⟨⟨t, ht, hend⟩, hbefore⟩ := h
  refine ⟨⟨t, (hrun n).trans ht, hend⟩, fun m u hm hu => ?_⟩
  cases m with
  | zero => cases hu; simp [hbusy]
  | succ m => exact hbefore m u (Nat.lt_of_succ_lt_succ hm) ((hrun m).symm.trans hu)

/-- From the ENTRIES phase the run ends with the last of the entries left (R174). -/
theorem runEndsIn_of_entries {n : Nat} : ∀ {s : State}, s.encAlone → EncInv s.params s.enc → s.enc.loaded → s.enc.st = .busy →
    s.enc.phase = .entries → s.enc.cnt.toNat + n = s.enc.h.toNat * s.enc.w.toNat → RunEndsIn n s := by
  induction n with
  | zero =>
    intro s _ hinv _ hbusy hphase hn
    obtain ⟨-, -, -, -, hrun, -⟩ := hinv
    obtain ⟨-, -, hlt, -⟩ := hrun hbusy hphase
    omega
  | succ n ih =>
    intro s halone hinv hloaded hbusy hphase hn
    have hin : s.enc.inEntries = true := by simp [EncState.inEntries, hbusy, hphase]
    obtain ⟨pix, hpix⟩ := hinv.exists_pixelAt hbusy hphase hloaded
    obtain ⟨-, -, hentry⟩ := stepRunsTheEncoderPhase.1 s halone hbusy
    refine .of_step hbusy ((hentry hphase).trans (exec_encEntry_of_pixel hin hpix)) ?_
    obtain ⟨x, hemit⟩ | ⟨bs, hbs, hemit⟩ := emitEntry_cases s.params s.enc (encEntry s.params.frac s.enc.shift pix)
    · rw [hemit]; exact .of_raise halone x n
    · rw [hemit]
      have hinv' := hinv.append_advance hin (encEntry_length_bounds bs hbs)
      have hcnt : (s.enc.append bs).advance.cnt.toNat = s.enc.cnt.toNat + 1 := by
        have hlt : s.enc.cnt.toNat + 1 < 2 ^ 32 := by
          have harea := s.enc.header.area_le
          simp only [Header.area, EncState.header] at harea
          omega
        simpa using Nat.mod_eq_of_lt hlt
      by_cases hlast : s.enc.cnt.toNat + 1 = s.enc.h.toNat * s.enc.w.toNat
      · obtain rfl : n = 0 := by omega
        exact .of_done (by simp [hlast])
      · exact ih (s := { s with enc := (s.enc.append bs).advance }) halone hinv' hloaded (by simp [hlast, hbusy]) hphase
          (by rw [hcnt, EncState.advance_h, EncState.advance_w, EncState.append_h, EncState.append_w]; omega)

/-- From the HEADER phase the run ends after the header and one entry per pixel (R173). -/
theorem runEndsIn_of_header {s : State} (halone : s.encAlone) (hinv : EncInv s.params s.enc) (hloaded : s.enc.loaded)
    (hbusy : s.enc.st = .busy) (hphase : s.enc.phase = .header) : RunEndsIn (s.enc.h.toNat * s.enc.w.toNat + 1) s := by
  refine .of_step hbusy (step_encHeader halone hbusy hphase) ?_
  have hinv' := hinv.headerStep
  have hloaded' := (encHeaderStep_sameEncInputs s.params s.enc).loaded hloaded
  obtain ⟨-, -, -, hearly, -⟩ := hinv
  obtain ⟨-, -, hcnt, -⟩ := hearly hbusy (by simp [hphase])
  cases hcap : overCap s.params s.enc 6 with
  | true => rw [encHeaderStep_of_full hbusy hphase hcap]; exact .of_raise halone _ _
  | false =>
    rw [encHeaderStep_of_room hbusy hphase hcap, EncState.afterHeader_eq] at hinv' hloaded' ⊢
    by_cases harea : s.enc.h.toNat * s.enc.w.toNat = 0
    · rw [harea]
      exact .of_done (by simp [harea])
    · exact runEndsIn_of_entries halone hinv' hloaded' (by simp [harea, hbusy]) (by simp [harea]) (by simp [hcnt])

/-- Settles O28: SCALE cannot fault on a loaded matrix (`magnitude_ok`), and the run goes on from the HEADER phase. -/
theorem encodeRunEnds : Obligations.EncodeRunEnds := by
  intro s halone hstarted hloaded hinv
  obtain ⟨hbusy, hphase, -⟩ := hstarted
  obtain ⟨m, hmag, -⟩ := magnitude_ok (p := s.params) hloaded
  obtain ⟨hscale, -⟩ := stepRunsTheEncoderPhase.1 s halone hbusy
  have hheader := runEndsIn_of_header (s := { s with enc := s.enc.scaled (BitVec.ofNat 8 (scaleOf s.params.frac m)) }) halone
    (hinv.scaled hphase _) hloaded hbusy rfl
  rw [Nat.add_comm]
  exact hheader.of_step hbusy ((hscale hphase).trans (exec_encScale_of_magnitude hbusy hphase hmag))

end Sys2Proof.Machine
end

section
/-! SUPPORT. A unit that is not BUSY (43_container_writer R171, 44_container_reader R186, 60_exceptions R227, R228): its own steps do nothing, and of the
rest only START and reset write its STATE. -/

namespace Sys2Proof.Machine

/-! ### The steps of ENC -/

theorem EncState.inEntries_of_not_busy {e : EncState} (h : e.st ≠ .busy) : e.inEntries = false := by
  simp [EncState.inEntries, h]

section
variable {p : Params} {e : EncState} (hidle : e.st ≠ .busy)
include hidle

theorem encHeaderStep_of_not_busy : encHeaderStep p e = e := by
  simp only [encHeaderStep, hidle, false_and, if_false]

theorem zeroFormStep_of_not_busy : zeroFormStep p e = .next e := by
  simp only [zeroFormStep, e.inEntries_of_not_busy hidle, Bool.false_eq_true, if_false]

theorem grayFormStep_of_not_busy : grayFormStep p e = .next e := by
  simp only [grayFormStep, e.inEntries_of_not_busy hidle, Bool.false_and, Bool.false_eq_true, if_false]

theorem colourFormStep_of_not_busy (flag : Byte) (r g b : Bool) : colourFormStep p e flag r g b = .next e := by
  simp only [colourFormStep, e.inEntries_of_not_busy hidle, Bool.false_and, Bool.false_eq_true, if_false]

end

/-- No instruction of ENC does anything while ENC is not BUSY (R171, log 7). -/
theorem exec_of_enc_not_busy {i : Instr} {s : State} (hi : runsOnEnc i = true) (hidle : s.enc.st ≠ .busy) : exec i s = .next s := by
  cases i <;> try cases hi
  case encHdr | encHeader => simp only [exec, execEncHdr, execEncHeader, encHeaderStep_of_not_busy hidle]
  case encZ => simp only [exec, execEncZ, zeroFormStep_of_not_busy hidle, liftEnc]
  case encG => simp only [exec, execEncG, grayFormStep_of_not_busy hidle, liftEnc]
  case encCB | encCG | encCGB | encCR | encCRB | encCRG | encCRGB =>
    simp only [exec, execEncCB, execEncCG, execEncCGB, execEncCR, execEncCRB, execEncCRG, execEncCRGB,
      colourFormStep_of_not_busy hidle, liftEnc]
  case encScale => simp only [exec, execEncScale, hidle, false_and, if_false]
  case encEntry => simp only [exec, execEncEntry, s.enc.inEntries_of_not_busy hidle, Bool.false_eq_true, if_false]
  case errorStep x pos =>
    cases x <;> try cases hi
    all_goals simp only [exec, execErrorStep, hidle, if_false]

/-! ### The steps of DEC -/

theorem DecState.entryReady_of_not_busy {d : DecState} (h : d.st ≠ .busy) : d.entryReady = false := by
  simp [DecState.entryReady, h]

/-- A record does nothing while DEC is not BUSY. -/
theorem exec_entry_of_dec_not_busy {s : State} (en : Entry) (hidle : s.dec.st ≠ .busy) : exec en.instr s = .next s := by
  simp only [exec_record, execRecord_eq, decRecordStep, s.dec.entryReady_of_not_busy hidle, Bool.false_and, Bool.false_eq_true,
    if_false]

/-- No instruction of DEC does anything while DEC is not BUSY (R186, log 7). -/
theorem exec_of_dec_not_busy {i : Instr} {s : State} (hi : runsOnDec i = true) (hidle : s.dec.st ≠ .busy) : exec i s = .next s := by
  cases i <;> try cases hi
  case hdr => simp only [exec, execHdr, decHeaderStep, hidle, false_and, if_false]
  case z hi lo => exact exec_entry_of_dec_not_busy (.z hi lo) hidle
  case g hi lo q => exact exec_entry_of_dec_not_busy (.g hi lo q) hidle
  case c0 hi => exact exec_entry_of_dec_not_busy (.c0 hi) hidle
  case cB hi qb => exact exec_entry_of_dec_not_busy (.cB hi qb) hidle
  case cG hi qg => exact exec_entry_of_dec_not_busy (.cG hi qg) hidle
  case cGB hi qg qb => exact exec_entry_of_dec_not_busy (.cGB hi qg qb) hidle
  case cR hi qr => exact exec_entry_of_dec_not_busy (.cR hi qr) hidle
  case cRB hi qr qb => exact exec_entry_of_dec_not_busy (.cRB hi qr qb) hidle
  case cRG hi qr qg => exact exec_entry_of_dec_not_busy (.cRG hi qr qg) hidle
  case cRGB hi qr qg qb => exact exec_entry_of_dec_not_busy (.cRGB hi qr qg qb) hidle
  case decHeader => simp only [exec, execDecHeader, hidle, false_and, if_false]
  case decEntry => simp only [exec, execDecEntry, s.dec.entryReady_of_not_busy hidle, Bool.false_eq_true, if_false]
  case decFinish => simp only [exec, execDecFinish, hidle, false_and, if_false]
  case errorStep x p =>
    cases x <;> try cases hi
    all_goals simp only [exec, execErrorStep, hidle, if_false]

/-! ### The STATE fields under the host's instructions (R203) -/

/-- ENC's START: the command, or the register write it is (R200, R205). -/
def StartsEnc (i : Instr) : Prop := (∃ ign, i = .encStart ign) ∨ ∃ v : RegWord, v.getLsbD 0 = true ∧ i = .wr 0 v

/-- DEC's START: the command, or the register write it is (R201, R205). -/
def StartsDec (i : Instr) : Prop := (∃ ign, i = .decStart ign) ∨ ∃ v : RegWord, v.getLsbD 0 = true ∧ i = .wr 8 v

/-- From `s` to `t` each unit keeps its STATE, unless `i` is its START. -/
def KeepsStates (i : Instr) (s t : State) : Prop :=
  (t.enc.st = s.enc.st ∨ StartsEnc i) ∧ (t.dec.st = s.dec.st ∨ StartsDec i)

theorem KeepsStates.of_eq {i : Instr} {s t : State} (henc : t.enc.st = s.enc.st) (hdec : t.dec.st = s.dec.st) : KeepsStates i s t :=
  ⟨.inl henc, .inl hdec⟩

/-- Of the register writes only the START writes reach a STATE field (R205). -/
theorem execWr_keepsStates {n : BitVec 4} {v : RegWord} {s t : State} (h : execWr n v s = .next t) : KeepsStates (.wr n v) s t := by
  rw [execWr] at h
  split at h
  next hn =>
    obtain rfl : n = 0 := BitVec.eq_of_toNat_eq hn
    split at h <;> cases h
    next hstart => exact ⟨.inr (.inr ⟨v, hstart, rfl⟩), .inl rfl⟩
    next => exact .of_eq rfl rfl
  next => cases h; exact .of_eq (s.enc.setDim_st v) rfl
  next hn =>
    obtain rfl : n = 8 := BitVec.eq_of_toNat_eq hn
    split at h <;> cases h
    next hstart => exact ⟨.inl rfl, .inr (.inr ⟨v, hstart, rfl⟩)⟩
    next => exact .of_eq rfl rfl
  next => cases h; exact .of_eq rfl (s.dec.setLen_st v)
  next => cases h; exact .of_eq rfl rfl

theorem execEmAccess_keepsStates {op : EmOp} {row col : Dim} {ch : BitVec 2} {s t : State}
    (h : execEmAccess op row col ch s = .next t) : KeepsStates (.emAccess op row col ch) s t := by
  cases op with
  | write v => cases h; exact .of_eq (s.enc.setWord_st s.params v row col ch) rfl
  | read => simp only [execEmAccess] at h; split at h <;> cases h <;> exact .of_eq rfl rfl

theorem execIsAccess_keepsStates {op : IsOp} {a : Pos} {s t : State} (h : execIsAccess op a s = .next t) :
    KeepsStates (.isAccess op a) s t := by
  cases op with
  | write v => cases h; exact .of_eq rfl (s.dec.setByte_st v a)
  | read => simp only [execIsAccess] at h; split at h <;> cases h <;> exact .of_eq rfl rfl

theorem execRdOs_keepsStates {a : Pos} {s t : State} (h : execRdOs a s = .next t) : KeepsStates (.rdOs a) s t := by
  rw [execRdOs] at h
  split at h <;> cases h <;> exact .of_eq rfl rfl

theorem execRdDm_keepsStates {row col : Dim} {ch : BitVec 2} {s t : State} (h : execRdDm row col ch s = .next t) :
    KeepsStates (.rdDm row col ch) s t := by
  rw [execRdDm] at h
  split at h <;> cases h <;> exact .of_eq rfl rfl

/-- An instruction that is no unit's writes the STATE of a unit only as its START (R203). -/
theorem exec_host_keepsStates {i : Instr} {s t : State} (henc : runsOnEnc i = false) (hdec : runsOnDec i = false)
    (h : exec i s = .next t) : KeepsStates i s t := by
  cases i <;> try cases henc
  all_goals try cases hdec
  case errorStep x p => cases x <;> simp_all [runsOnEnc, runsOnDec]
  case encStart ign => cases h; exact ⟨.inr (.inl ⟨ign, rfl⟩), .inl rfl⟩
  case decStart ign => cases h; exact ⟨.inl rfl, .inr (.inl ⟨ign, rfl⟩)⟩
  case rd => cases h; exact .of_eq rfl rfl
  case wr => exact execWr_keepsStates h
  case emAccess => exact execEmAccess_keepsStates h
  case isAccess => exact execIsAccess_keepsStates h
  case rdOs => exact execRdOs_keepsStates h
  case rdDm => exact execRdDm_keepsStates h

/-! ### The STATE fields under every instruction -/

/-- An instruction changes the STATE of an ENC that is not BUSY only as its START. -/
theorem exec_enc_st {i : Instr} {s t : State} (hidle : s.enc.st ≠ .busy) (h : exec i s = .next t) :
    t.enc.st = s.enc.st ∨ StartsEnc i := by
  cases henc : runsOnEnc i with
  | true => cases (exec_of_enc_not_busy henc hidle).symm.trans h; exact .inl rfl
  | false =>
    cases hdec : runsOnDec i with
    | true => obtain ⟨f, rfl, -⟩ := exec_decChange hdec h; exact .inl rfl
    | false => exact (exec_host_keepsStates henc hdec h).1

/-- An instruction changes the STATE of a DEC that is not BUSY only as its START. -/
theorem exec_dec_st {i : Instr} {s t : State} (hidle : s.dec.st ≠ .busy) (h : exec i s = .next t) :
    t.dec.st = s.dec.st ∨ StartsDec i := by
  cases hdec : runsOnDec i with
  | true => cases (exec_of_dec_not_busy hdec hidle).symm.trans h; exact .inl rfl
  | false =>
    cases henc : runsOnEnc i with
    | true => obtain ⟨f, rfl, -⟩ := exec_encChange henc h; exact .inl rfl
    | false => exact (exec_host_keepsStates henc hdec h).2

/-! ### The STATE fields under a step -/

theorem runsOnEnc_encDispatch (e : EncState) : runsOnEnc (encDispatch e) = true := by
  rw [encDispatch]; split <;> rfl

theorem runsOnDec_decDispatch (d : DecState) : runsOnDec (decDispatch d) = true := by
  rw [decDispatch]
  split
  next => rfl
  next =>
    split
    next => split <;> rfl
    next => split <;> rfl

/-- What a step of a machine with legal parameters is: nothing where no agent can move, or the move of an agent that can (R11); `n` is the free-value
counter after the choice. -/
inductive StepKind (s : State) : Prop where
  | idle (hpending : s.host.pending = []) (henc : s.enc.st ≠ .busy) (hdec : s.dec.st ≠ .busy) (hstep : step s = .next s)
  | enc (n : Nat) (hn : n = s.free ∨ n = s.free + 1) (hbusy : s.enc.st = .busy)
      (hstep : step s = exec (encDispatch s.enc) { s with free := n })
  | dec (n : Nat) (hn : n = s.free ∨ n = s.free + 1) (hbusy : s.dec.st = .busy)
      (hstep : step s = exec (decDispatch s.dec) { s with free := n })
  | access (n : Nat) (hn : n = s.free ∨ n = s.free + 1) (a : HostAccess) (rest : List HostEvent)
      (hpending : s.host.pending = .access a :: rest)
      (hstep : step s = exec (decodeHost a) { s with free := n, host := { s.host with pending := rest } })
  | reset (n : Nat) (hn : n = s.free ∨ n = s.free + 1) (rest : List HostEvent) (hpending : s.host.pending = .reset :: rest)
      (hstep : step s = .next (applyReset { s with free := n, host := { s.host with pending := rest } }))

theorem stepKind {s : State} (hlegal : s.params.legal = true) : StepKind s := by
  obtain ⟨hnone, hchoose⟩ | ⟨a, n, hmem, hn, hchoose⟩ := chooseAgent_spec s
  · have hno : ∀ a, a ∉ enabledAgents s := by simp [hnone]
    simp only [mem_enabled, not_or, not_and, not_not] at hno
    obtain ⟨hpending, -, -⟩ := hno .host
    obtain ⟨-, henc, -⟩ := hno .enc
    obtain ⟨-, -, hdec⟩ := hno .dec
    exact .idle (hpending rfl) (henc rfl) (hdec rfl) (step_idle hlegal (hpending rfl) (henc rfl) (hdec rfl))
  · obtain ⟨rfl, hpending⟩ | ⟨rfl, hbusy⟩ | ⟨rfl, hbusy⟩ := (mem_enabled s a).mp hmem
    · cases hp : s.host.pending with
      | nil => exact absurd hp hpending
      | cons ev rest =>
        cases ev with
        | access a => exact .access n hn a rest hp (by simp [step, hlegal, nextMove, hchoose, agentMove, hp])
        | reset => exact .reset n hn rest hp (by simp [step, hlegal, nextMove, hchoose, agentMove, hp])
    · exact .enc n hn hbusy (by simp [step, hlegal, nextMove, hchoose, agentMove])
    · exact .dec n hn hbusy (by simp [step, hlegal, nextMove, hchoose, agentMove])

/-- Parameters outside R7's range are refused, so a step that answers a state had legal ones (U16). -/
theorem legal_of_step {s t : State} (h : step s = .next t) : s.params.legal = true := by
  cases hlegal : s.params.legal with
  | true => rfl
  | false => simp [step, hlegal] at h

/-- An access that decodes to ENC's START is the write to register 0 with bit 0 set (R200). -/
theorem StartsEnc.access {a : HostAccess} (h : StartsEnc (decodeHost a)) :
    ∃ v : RegWord, v.getLsbD 0 = true ∧ a = .regWrite 0 v := by
  obtain ⟨ign, h⟩ | ⟨v, hv, h⟩ := h
  · exact decodeHost_encStart h
  · exact ⟨v, hv, decodeHost_wr h⟩

/-- An access that decodes to DEC's START is the write to register 8 with bit 0 set (R201). -/
theorem StartsDec.access {a : HostAccess} (h : StartsDec (decodeHost a)) :
    ∃ v : RegWord, v.getLsbD 0 = true ∧ a = .regWrite 8 v := by
  obtain ⟨ign, h⟩ | ⟨v, hv, h⟩ := h
  · exact decodeHost_decStart h
  · exact ⟨v, hv, decodeHost_wr h⟩

/-- A step changes the STATE of an ENC that is not BUSY only as the host's START or reset (R227, R246). -/
theorem step_enc_st {s t : State} (hidle : s.enc.st ≠ .busy) (h : step s = .next t) (hne : t.enc.st ≠ s.enc.st) :
    (∃ rest, s.host.pending = .reset :: rest) ∨
    ∃ v rest, v.getLsbD 0 = true ∧ s.host.pending = .access (.regWrite 0 v) :: rest := by
  cases stepKind (legal_of_step h) with
  | idle _ _ _ hstep => cases hstep.symm.trans h; exact absurd rfl hne
  | enc n _ hbusy => exact absurd hbusy hidle
  | dec n _ _ hstep =>
    obtain ⟨f, rfl, -⟩ := exec_decChange (runsOnDec_decDispatch s.dec) (hstep.symm.trans h)
    exact absurd rfl hne
  | access n _ a rest hpending hstep =>
    have hstart := exec_enc_st (s := { s with free := n, host := { s.host with pending := rest } }) hidle (hstep.symm.trans h)
    obtain ⟨v, hv, rfl⟩ := (hstart.resolve_left hne).access
    exact .inr ⟨v, rest, hv, hpending⟩
  | reset n _ rest hpending => exact .inl ⟨rest, hpending⟩

/-- A step changes the STATE of a DEC that is not BUSY only as the host's START or reset (R227, R246). -/
theorem step_dec_st {s t : State} (hidle : s.dec.st ≠ .busy) (h : step s = .next t) (hne : t.dec.st ≠ s.dec.st) :
    (∃ rest, s.host.pending = .reset :: rest) ∨
    ∃ v rest, v.getLsbD 0 = true ∧ s.host.pending = .access (.regWrite 8 v) :: rest := by
  cases stepKind (legal_of_step h) with
  | idle _ _ _ hstep => cases hstep.symm.trans h; exact absurd rfl hne
  | dec n _ hbusy => exact absurd hbusy hidle
  | enc n _ _ hstep =>
    obtain ⟨f, rfl, -⟩ := exec_encChange (runsOnEnc_encDispatch s.enc) (hstep.symm.trans h)
    exact absurd rfl hne
  | access n _ a rest hpending hstep =>
    have hstart := exec_dec_st (s := { s with free := n, host := { s.host with pending := rest } }) hidle (hstep.symm.trans h)
    obtain ⟨v, hv, rfl⟩ := (hstart.resolve_left hne).access
    exact .inr ⟨v, rest, hv, hpending⟩
  | reset n _ rest hpending => exact .inl ⟨rest, hpending⟩

/-- Settles O51: for the instructions of a unit `exec_of_enc_not_busy` and `exec_of_dec_not_busy`, for any instruction `exec_enc_st` and `exec_dec_st`,
for a step `step_enc_st` and `step_dec_st`. -/
theorem idleUnitDoesNothing : Obligations.IdleUnitDoesNothing := by
  refine ⟨fun i s => exec_of_enc_not_busy, fun i s => exec_of_dec_not_busy, fun i s t hidle hcommand hwrite h => ?enc,
    fun i s t hidle hcommand hwrite h => ?dec, fun s t => step_enc_st, fun s t => step_dec_st⟩
  case enc =>
    refine (exec_enc_st hidle h).resolve_right ?_
    rintro (⟨ign, hi⟩ | ⟨v, hv, hi⟩)
    · exact hcommand ign hi
    · exact hwrite v hv hi
  case dec =>
    refine (exec_dec_st hidle h).resolve_right ?_
    rintro (⟨ign, hi⟩ | ⟨v, hv, hi⟩)
    · exact hcommand ign hi
    · exact hwrite v hv hi

end Sys2Proof.Machine
end

section
/-! SUPPORT. The container reader (44_container_reader): the dispatch of DEC, FINISH, the HEADER step and its zero fill, the ENTRY step on the record at D_SP, and the
length of a decode run. -/

namespace Sys2Proof.Machine

/-! ### The dispatch (R186, R190) -/

section
variable {s : State} (halone : s.decAlone) (hbusy : s.dec.st = .busy)
include halone hbusy

/-- In the HEADER phase the step is DEC.HEADER (R187). -/
theorem step_of_decHeader (hphase : s.dec.phase = .header) : step s = exec .decHeader s := by
  rw [step_decAlone halone hbusy, decDispatch, hphase]

variable (hphase : s.dec.phase = .entries)
include hphase

/-- Stream and entries end together: FINISH. -/
theorem step_of_decFinish (hsp : s.dec.sp = s.dec.isLen) (hcnt : s.dec.cnt.toNat = s.dec.total) : step s = exec .decFinish s := by
  simp only [step_decAlone halone hbusy, decDispatch, hphase, hsp, hcnt, if_true]

/-- One of the two ends without the other: ShapeMismatch at D_SP. -/
theorem step_of_shapeMismatch (h : s.dec.sp = s.dec.isLen ↔ s.dec.cnt.toNat ≠ s.dec.total) :
    step s = .next { s with dec := s.dec.raise .shapeMismatch s.dec.sp } := by
  have hdispatch : decDispatch s.dec = .errorStep .shapeMismatch s.dec.sp := by
    by_cases hcnt : s.dec.cnt.toNat = s.dec.total <;> simp [decDispatch, hphase, h, hcnt]
  rw [step_decAlone halone hbusy, hdispatch, exec, execErrorStep, if_pos hbusy]

/-- Neither has ended: ENTRY. -/
theorem step_of_decEntry (hsp : s.dec.sp ≠ s.dec.isLen) (hcnt : s.dec.cnt.toNat ≠ s.dec.total) : step s = exec .decEntry s := by
  simp only [step_decAlone halone hbusy, decDispatch, hphase, hsp, hcnt, if_false]

end

/-! ### FINISH (R190) -/

theorem exec_decFinish {s : State} (hbusy : s.dec.st = .busy) (hphase : s.dec.phase = .entries) (hsp : s.dec.sp = s.dec.isLen)
    (hcnt : s.dec.cnt.toNat = s.dec.total) : exec .decFinish s = .next { s with dec := s.dec.finish } := by
  rw [exec, execDecFinish, if_pos ⟨hbusy, hphase, hsp, hcnt⟩]

/-- Settles O37: the guard of FINISH is the hypothesis, and `DecState.finish` writes the three fields. -/
theorem finishCompletesTheRun : Obligations.FinishCompletesTheRun :=
  fun _ hbusy hphase hsp hcnt => exec_decFinish hbusy hphase hsp hcnt

/-- Settles O11: the four corners are `step_of_decFinish`, `step_of_shapeMismatch` twice, and `step_of_decEntry`. -/
theorem entriesPhaseDispatch : Obligations.EntriesPhaseDispatch := by
  intro s halone hbusy hphase
  refine ⟨fun hsp hcnt => ⟨s.dec.finish, ?_, rfl⟩, fun hsp hcnt => ⟨_, ?_, raise_decRaised _ _ _⟩,
    fun hsp hcnt => ⟨_, ?_, raise_decRaised _ _ _⟩, step_of_decEntry halone hbusy hphase⟩
  · rw [step_of_decFinish halone hbusy hphase hsp hcnt, exec_decFinish hbusy hphase hsp hcnt]
  · exact step_of_shapeMismatch halone hbusy hphase (iff_of_true hsp hcnt)
  · exact step_of_shapeMismatch halone hbusy hphase (iff_of_false hsp (not_not.mpr hcnt))

/-! ### The ENTRY step on the record at D_SP (R189) -/

section
variable {s : State} {en : Entry} (hready : s.dec.entryReady = true) (hm : en.inMode s.dec.gray = true)
  (hfit : s.dec.sp.toNat + (encodeEntry en).length ≤ s.dec.isLen.toNat)
include hready hm hfit

/-- DEC.ENTRY on an entry it has fetched consumes it. -/
theorem exec_decEntry_of_fetch (hfetch : fetchEntry s.dec = .entry en) :
    exec .decEntry s = .next { s with dec := s.dec.consume (encodeEntry en).length en.vals } := by
  rw [← execRecord_of_le hready hm hfit]
  simp only [exec, execDecEntry, hready, hfetch, if_true]

/-- The record's own instruction consumes it too. -/
theorem exec_instr_of_le : exec en.instr s = .next { s with dec := s.dec.consume (encodeEntry en).length en.vals } :=
  (exec_record en s).trans (execRecord_of_le hready hm hfit)

end

/-- Settles O32: the fetch gives the entry of the bytes at D_SP (`fetchEntry_of_bytes`), and both instructions consume it. -/
theorem decoderEntryRunsTheRecord : Obligations.DecoderEntryRunsTheRecord := by
  intro s en hready hm hfit hbytes
  obtain ⟨hbusy, -, -, -⟩ := s.dec.entryReady_iff.mp hready
  obtain ⟨-, -, hsp, hcnt, -⟩ := consume_consumedEntry en.vals_nodup hfit
  exact ⟨_, exec_decEntry_of_fetch hready hm hfit (fetchEntry_of_bytes hm hfit hbytes), exec_instr_of_le hready hm hfit, hbusy, hcnt, hsp⟩

/-! ### The HEADER step (R187) -/

/-- Two bytes are the field they spell (R62, R94). -/
theorem bytesLe16_le16 (a b : Byte) : bytesLe16 (le16 a b) = [a, b] := by
  have ha := a.isLt
  have hb := b.isLt
  rw [bytesLe16_eq, le16_toNat]
  simp only [List.cons.injEq, and_true]
  refine ⟨BitVec.eq_of_toNat_eq ?_, BitVec.eq_of_toNat_eq ?_⟩ <;> rw [BitVec.toNat_ofNat] <;> omega

/-- Six bytes are the header record they spell (R94). -/
theorem encodeHeader_le16 (b0 b1 b2 b3 k g : Byte) : encodeHeader (le16 b0 b1) (le16 b2 b3) k g = [b0, b1, b2, b3, k, g] := by
  simp only [encodeHeader, bytesLe16_le16, List.cons_append, List.nil_append]

section
variable {s : State} (hbusy : s.dec.st = .busy) (hphase : s.dec.phase = .header)
include hbusy hphase

theorem exec_decHeader_of_short (hshort : s.dec.isLen.toNat < 6) :
    exec .decHeader s = .next { s with dec := s.dec.raise .malformedHeader 0 } := by
  rw [exec, execDecHeader, if_pos ⟨hbusy, hphase⟩, if_pos hshort]

/-- A header record that is not legal is MalformedHeader at position 0. -/
theorem exec_hdr_of_illegal {h w : Dim} {k g : Byte} (hillegal : headerLegal h w g = false) :
    exec (.hdr h w k g) s = .next { s with dec := s.dec.raise .malformedHeader 0 } := by
  simp only [exec, execHdr, decHeaderStep, hbusy, hphase, hillegal, and_self, if_true, or_true]

variable (hlen : 6 ≤ s.dec.isLen.toNat)
include hlen

/-- DEC.HEADER runs the header record whose bytes stand at the head of the stream. -/
theorem exec_decHeader_of_bytes {h w : Dim} {k g : Byte} (hbytes : Memory.getBytes s.dec.inp 0 6 = .ok (encodeHeader h w k g)) :
    exec .decHeader s = exec (.hdr h w k g) s := by
  have hdecode : decodeHeader (encodeHeader h w k g) = .ok (.hdr h w k g, []) := decode_encodeHeader h w k g []
  simp only [exec, execDecHeader, hbusy, hphase, Nat.not_lt.mpr hlen, hbytes, hdecode, execHeaderRecord, and_self, if_true, if_false]

/-- A legal header record is latched. -/
theorem exec_hdr_of_legal {h w : Dim} {k g : Byte} (hlegal : headerLegal h w g = true) :
    exec (.hdr h w k g) s = .next { s with dec := s.dec.latch h w k g } := by
  simp only [exec, execHdr, decHeaderStep, hbusy, hphase, Nat.not_lt.mpr hlen, hlegal, and_self, if_true, Bool.true_eq_false, or_self,
    if_false]

end

/-- Settles O8: DEC.ENTRY and the record answer alike (O32), and so do DEC.HEADER and the header record (`exec_decHeader_of_bytes`). -/
theorem stepRunsTheRecordAtTheStreamPosition : Obligations.StepRunsTheRecordAtTheStreamPosition := by
  constructor
  · intro s en halone hready hm hfit hbytes
    obtain ⟨hbusy, hphase, hsp, hcnt⟩ := s.dec.entryReady_iff.mp hready
    obtain ⟨d, hentry, hrecord, -⟩ := decoderEntryRunsTheRecord s en hready hm hfit hbytes
    have hne : s.dec.sp ≠ s.dec.isLen := fun heq => hsp.ne (congrArg BitVec.toNat heq)
    rw [step_of_decEntry halone hbusy hphase hne hcnt.ne, hentry, hrecord]
  · intro s h w k g halone hbusy hphase hlen hbytes
    rw [step_of_decHeader halone hbusy hphase, exec_decHeader_of_bytes hbusy hphase hlen hbytes]

/-- The zero fill: 0 over the declared shape, every other word as before (R188). -/
theorem getDm_latch (d : DecState) (h w : Dim) (k g : Byte) {r c ch : Nat} (hc : c < 65536) (hch : ch < 4) :
    Memory.getDm (d.latch h w k g).dm (wordAddr r c ch) =
      if r < h.toNat ∧ c < w.toNat ∧ ch < channels (d.latch h w k g).gray then 0 else Memory.getDm d.dm (wordAddr r c ch) := by
  rw [DecState.latch_dm, DecState.latch_gray, Memory.getDm_filter d.dm fun a => !inShape h.toNat w.toNat (g.getLsbD 0) a]
  simp only [← inShape_word hc hch]
  cases inShape h.toNat w.toNat (g.getLsbD 0) (wordAddr r c ch) <;> rfl

/-- An isGrayscale byte of 0 or 1 is its bit 0 (R93). -/
theorem getLsbD_zero_iff {g : Byte} (h : g.toNat ≤ 1) : g.getLsbD 0 = true ↔ g.toNat = 1 := by
  have hbit := byte_bit_toNat g 0
  rw [← Bool.toNat_eq_one]
  omega

/-- Settles O35: the six bytes are a header record (`encodeHeader_le16`) that is legal, so both instructions latch it, and `getDm_latch` is the zero fill. -/
theorem headerIsLatched : Obligations.HeaderIsLatched := by
  intro s b0 b1 b2 b3 k g height width hbusy hphase hlen hbytes hheight hwidth harea hg
  rw [← encodeHeader_le16] at hbytes
  rw [← le16_toNat] at hheight hwidth
  subst hheight hwidth
  simp only [BitVec.ofNat_toNat, BitVec.setWidth_eq]
  have hlegal : headerLegal (le16 b0 b1) (le16 b2 b3) g = true := by
    simp only [headerLegal, harea, hg, ne_eq, not_false_eq_true, decide_true, Bool.and_self]
  have hlatch := exec_hdr_of_legal hbusy hphase hlen (k := k) hlegal
  exact ⟨_, (exec_decHeader_of_bytes hbusy hphase hlen hbytes).trans hlatch, hlatch, rfl, rfl, rfl, getLsbD_zero_iff hg, rfl, rfl,
    fun r c ch _ hc hch => getDm_latch s.dec _ _ k g hc hch, ⟨rfl, rfl⟩, hbusy, rfl, rfl, rfl, rfl, rfl, rfl, rfl⟩

/-! ### Loaded streams (R249) -/

/-- In a loaded stream every span below IS_LEN reads. -/
theorem DecState.loaded.exists_getBytes {d : DecState} (h : d.loaded) {a n : Nat} (hle : a + n ≤ d.isLen.toNat) :
    ∃ bs, Memory.getBytes d.inp a n = .ok bs ∧ bs.length = n := by
  induction n generalizing a with
  | zero => exact ⟨[], rfl, rfl⟩
  | succ n ih =>
    obtain ⟨b, hb⟩ := Option.isSome_iff_exists.mp (h a (by omega))
    obtain ⟨bs, hbs, hlen⟩ := ih (a := a + 1) (by omega)
    exact ⟨b :: bs, by simp only [Memory.getBytes, hb, hbs], by rw [List.length_cons, hlen]⟩

/-- The first six bytes are a header record, legal or not (R91). -/
theorem DecState.loaded.exists_header {d : DecState} (h : d.loaded) (hlen : 6 ≤ d.isLen.toNat) :
    ∃ height width k g, Memory.getBytes d.inp 0 6 = .ok (encodeHeader height width k g) := by
  obtain ⟨bs, hbs, hsix⟩ := h.exists_getBytes (a := 0) (n := 6) (by omega)
  match bs, hsix with
  | [b0, b1, b2, b3, k, g], _ => exact ⟨_, _, k, g, hbs.trans (congrArg Except.ok (encodeHeader_le16 b0 b1 b2 b3 k g).symm)⟩

/-- An entry step reads nothing at or beyond IS_LEN (R152). -/
theorem recordSpan_le {d : DecState} (hsp : d.sp.toNat < d.isLen.toNat) (len : Nat) : d.sp.toNat + recordSpan d len ≤ d.isLen.toNat := by
  rw [recordSpan]
  split <;> omega

/-- So in a loaded stream its fetch meets no unwritten byte. -/
theorem DecState.loaded.fetchEntry_ne_unwritten {d : DecState} (h : d.loaded) (hsp : d.sp.toNat < d.isLen.toNat) (a : Nat) :
    fetchEntry d ≠ .unwritten a := by
  obtain ⟨flag, hflag⟩ := Option.isSome_iff_exists.mp (h _ hsp)
  obtain ⟨bs, hbs, -⟩ := h.exists_getBytes (recordSpan_le hsp (entryLen d.gray flag))
  simp only [fetchEntry, hflag, hbs]
  split <;> simp

/-! ### The length of a decode run (R194) -/

/-- After `n` steps the run from `s` has ended, in DONE or ERROR. -/
def DecRunEndsIn (n : Nat) (s : State) : Prop :=
  ∃ t, Host.Core.run Sys2Proof.core n s = .next t ∧ (t.dec.st = .done ∨ t.dec.st = .error)

/-- A step before the run that ends makes it one step longer. -/
theorem DecRunEndsIn.of_step {n : Nat} {s s' : State} (hstep : step s = .next s') (h : DecRunEndsIn n s') : DecRunEndsIn (n + 1) s := by
  obtain ⟨t, ht, hend⟩ := h
  exact ⟨t, (run_of_next Sys2Proof.core hstep).trans ht, hend⟩

/-- After a step into DONE or ERROR nothing moves any more (log 6), so the run has ended after any number of steps from there. -/
theorem DecRunEndsIn.of_last_step {s : State} {d : DecState} (halone : s.decAlone) (hstep : step s = .next { s with dec := d })
    (hend : d.st = .done ∨ d.st = .error) (n : Nat) : DecRunEndsIn (n + 1) s := by
  obtain ⟨hlegal, hpending, henc⟩ := halone
  have hidle : d.st ≠ .busy := by intro hbusy; simp [hbusy] at hend
  exact .of_step hstep ⟨_, run_idle (s := { s with dec := d }) hlegal hpending henc hidle n, hend⟩

/-- What a step of DEC alone in the ENTRIES phase of a loaded stream makes of the machine: the run has ended, or a whole entry is consumed (R189, R190). -/
inductive EntriesStep (s : State) : Prop
  | ended (d : DecState) (hstep : step s = .next { s with dec := d }) (hend : d.st = .done ∨ d.st = .error)
  | consumed (en : Entry) (hready : s.dec.entryReady = true) (hfit : s.dec.sp.toNat + (encodeEntry en).length ≤ s.dec.isLen.toNat)
      (hstep : step s = .next { s with dec := s.dec.consume (encodeEntry en).length en.vals })

section
variable {s : State} (halone : s.decAlone) (hloaded : s.dec.loaded)
include halone hloaded

/-- An ENTRY step of a loaded stream: its fetch gives an entry or finds it cut short (`fetchMeetsRule`). -/
theorem entriesStep_of_ready (hready : s.dec.entryReady = true) : EntriesStep s := by
  obtain ⟨hbusy, hphase, hsp, hcnt⟩ := s.dec.entryReady_iff.mp hready
  have hne : s.dec.sp ≠ s.dec.isLen := fun heq => hsp.ne (congrArg BitVec.toNat heq)
  have hstep := step_of_decEntry halone hbusy hphase hne hcnt.ne
  cases fetchMeetsRule hsp with
  | unwritten a hfetch => exact absurd hfetch (hloaded.fetchEntry_ne_unwritten hsp a)
  | truncated hfetch =>
    refine .ended (s.dec.raise .truncatedEntry s.dec.sp) (hstep.trans ?_) (.inr rfl)
    simp only [exec, execDecEntry, hready, hfetch, if_true]
  | entry en hfetch hmode hfit => exact .consumed en hready hfit (hstep.trans (exec_decEntry_of_fetch hready hmode hfit hfetch))

variable (hinv : DecInv s.dec) (hbusy : s.dec.st = .busy)
include hinv hbusy

theorem entriesStep (hphase : s.dec.phase = .entries) : EntriesStep s := by
  obtain ⟨-, -, -, -, -, hrun, hbound, -, -⟩ := hinv
  obtain ⟨-, -, hle, -, -⟩ := hrun hphase
  by_cases hsp : s.dec.sp = s.dec.isLen <;> by_cases hcnt : s.dec.cnt.toNat = s.dec.total
  · exact .ended s.dec.finish ((step_of_decFinish halone hbusy hphase hsp hcnt).trans (exec_decFinish hbusy hphase hsp hcnt)) (.inl rfl)
  · exact .ended _ (step_of_shapeMismatch halone hbusy hphase (iff_of_true hsp hcnt)) (.inr rfl)
  · exact .ended _ (step_of_shapeMismatch halone hbusy hphase (iff_of_false hsp (not_not.mpr hcnt))) (.inr rfl)
  · have hlt : s.dec.sp.toNat < s.dec.isLen.toNat := (hbound hbusy).lt_of_ne fun heq => hsp (BitVec.eq_of_toNat_eq heq)
    exact entriesStep_of_ready halone hloaded (s.dec.entryReady_iff.mpr ⟨hbusy, hphase, hlt, hle.lt_of_ne hcnt⟩)

end

/-- An entry consumed counts one (R191). -/
theorem consume_cnt_toNat {d : DecState} (hready : d.entryReady = true) (len : Nat) (vals : List (Nat × Payload)) :
    (d.consume len vals).cnt.toNat = d.cnt.toNat + 1 := by
  obtain ⟨-, -, -, hcnt⟩ := d.entryReady_iff.mp hready
  have harea : d.total ≤ 65535 * 65535 := d.header.area_le
  rw [DecState.consume_cnt, BitVec.toNat_add]
  exact Nat.mod_eq_of_lt (show d.cnt.toNat + 1 < 2 ^ 32 by omega)

/-- From the ENTRIES phase with at most `n` entries to go, the run ends within `n + 1` steps: the count rises with each entry consumed and stops at the area. -/
theorem decRunEndsIn_of_entries {n : Nat} : ∀ {s : State}, s.decAlone → DecInv s.dec → s.dec.loaded → s.dec.st = .busy →
    s.dec.phase = .entries → s.dec.total ≤ s.dec.cnt.toNat + n → DecRunEndsIn (n + 1) s := by
  induction n with
  | zero =>
    intro s halone hinv hloaded hbusy hphase hn
    cases entriesStep halone hloaded hinv hbusy hphase with
    | ended d hstep hend => exact .of_last_step halone hstep hend 0
    | consumed en hready =>
      obtain ⟨-, -, -, hcnt⟩ := s.dec.entryReady_iff.mp hready
      omega
  | succ n ih =>
    intro s halone hinv hloaded hbusy hphase hn
    cases entriesStep halone hloaded hinv hbusy hphase with
    | ended d hstep hend => exact .of_last_step halone hstep hend (n + 1)
    | consumed en hready hfit hstep =>
      have hinv' : DecInv (s.dec.consume (encodeEntry en).length en.vals) :=
        hinv.consume hready (encodeEntry_length_bounds en) hfit fun _ hc => Entry.channel_lt hc
      have hcnt := consume_cnt_toNat hready (encodeEntry en).length en.vals
      have htotal : (s.dec.consume (encodeEntry en).length en.vals).total = s.dec.total := rfl
      exact .of_step hstep (ih halone hinv' hloaded hbusy hphase (by simp only [hcnt, htotal]; omega))

/-- Settles O40: the HEADER step raises MalformedHeader or latches a header, and from there the run ends with the entries (`decRunEndsIn_of_entries`). -/
theorem decodeRunEnds : Obligations.DecodeRunEnds := by
  rintro s area halone ⟨hbusy, hphase, -⟩ hloaded hinv harea
  have hstep := step_of_decHeader halone hbusy hphase
  rw [Nat.add_comm]
  change DecRunEndsIn (area + 1 + 1) s
  rcases Nat.lt_or_ge s.dec.isLen.toNat 6 with hshort | hlen
  · exact .of_last_step halone (hstep.trans (exec_decHeader_of_short hbusy hphase hshort)) (.inr rfl) _
  · obtain ⟨h, w, k, g, hbytes⟩ := hloaded.exists_header hlen
    rw [exec_decHeader_of_bytes hbusy hphase hlen hbytes] at hstep
    cases hlegal : headerLegal h w g with
    | false => exact .of_last_step halone (hstep.trans (exec_hdr_of_illegal hbusy hphase hlegal)) (.inr rfl) _
    | true =>
      have htotal : (s.dec.latch h w k g).total ≤ (s.dec.latch h w k g).cnt.toNat + area :=
        (harea h w k g hbytes hlen).trans (Nat.le_add_left _ _)
      exact .of_step (hstep.trans (exec_hdr_of_legal hbusy hphase hlen hlegal))
        (decRunEndsIn_of_entries halone (hinv.latch hphase hlen hlegal) hloaded hbusy rfl htotal)

end Sys2Proof.Machine
end

section
/-! SUPPORT. Host commands and accesses (45_host_commands): the two START commands, register writes and reads, and the accesses to EM, IS, OS and DM. A write is an
equation of its unit's store; a read either answers with the value the spec gives or draws a free one (log 9), and both leave the SCC as it is. -/

namespace Sys2Proof.Machine

/-! ### The stores (R205 to R207): what they write, and when they are ignored -/

theorem EncState.setDim_of_busy {e : EncState} (hbusy : e.st = .busy) (v : RegWord) : e.setDim v = e := if_pos hbusy

theorem EncState.setDim_of_not_busy {e : EncState} (hidle : e.st ≠ .busy) (v : RegWord) :
    e.setDim v = { e with h := v.extractLsb' 0 16, w := v.extractLsb' 16 16, gray := v.getLsbD 32 } := if_neg hidle

theorem DecState.setLen_of_busy {d : DecState} (hbusy : d.st = .busy) (v : RegWord) : d.setLen v = d := if_pos hbusy

theorem DecState.setLen_of_not_busy {d : DecState} (hidle : d.st ≠ .busy) (v : RegWord) :
    d.setLen v = { d with isLen := v.extractLsb' 0 40 } := if_neg hidle

theorem DecState.setByte_of_busy {d : DecState} (hbusy : d.st = .busy) (v : RegWord) (a : Pos) : d.setByte v a = d :=
  if_neg (not_not.mpr hbusy)

theorem DecState.setByte_of_not_busy {d : DecState} (hidle : d.st ≠ .busy) (v : RegWord) (a : Pos) :
    d.setByte v a = { d with inp := Memory.put d.inp a.toNat (v.extractLsb' 0 8) } := if_pos hidle

section
variable (p : Params) {e : EncState} (v : Int) (row col : Dim) {ch : BitVec 2}

theorem EncState.setWord_of_writable (hidle : e.st ≠ .busy) (hch : ch.toNat < 3) : e.setWord p v row col ch =
    { e with em := Memory.put e.em (wordAddr row.toNat col.toNat ch.toNat) (truncBits p.coefW v) } := if_pos ⟨hidle, hch⟩

theorem EncState.setWord_of_ignored (h : e.st = .busy ∨ ch.toNat = 3) : e.setWord p v row col ch = e := by
  refine if_neg fun ⟨hidle, hch⟩ => ?_
  rcases h with hbusy | hthree
  · exact hidle hbusy
  · omega

end

/-- What `trunc_N` keeps is the value modulo `2^N` (R10). -/
theorem truncBits_sub_emod (n : Nat) (a : Int) : ((truncBits n a : Int) - a) % 2 ^ n = 0 := by
  have hcast : (truncBits n a : Int) = a % 2 ^ n := Int.toNat_of_nonneg (Int.emod_nonneg a (by positivity))
  rw [hcast]
  exact Int.emod_eq_zero_of_dvd (Int.mod_modEq a (2 ^ n)).symm.dvd

/-! ### Host reads -/

/-- The outcome of a host read that returns `v`, given by the spec or free (log 9). -/
inductive Reads (s : State) (v : HostData) : Host.Outcome State Fault Refusal → Prop where
  | given : Reads s v (.next (s.answer v))
  | free : Reads s v (.next (s.answerFree v))

/-- Either way the read completes and changes only what it returns (R204, R206 to R209). -/
theorem Reads.exists_next {s : State} {v : HostData} {o : Host.Outcome State Fault Refusal} (h : Reads s v o) :
    ∃ t, o = .next t ∧ SameOutsideRead s t ∧ t.host.rdata = v := by
  cases h with
  | given => exact ⟨_, rfl, s.answer_sameOutsideRead v, s.answer_rdata v⟩
  | free => exact ⟨_, rfl, s.answerFree_sameOutsideRead v, s.answerFree_rdata v⟩

theorem exists_next_of_reads {α : Type} {s : State} {data : α → HostData} {o : Host.Outcome State Fault Refusal}
    (h : ∃ x, Reads s (data x) o) : ∃ t x, o = .next t ∧ SameOutsideRead s t ∧ t.host.rdata = data x := by
  obtain ⟨x, hreads⟩ := h
  obtain ⟨t, ht⟩ := hreads.exists_next
  exact ⟨t, x, ht⟩

/-! ### EM (R206) -/

theorem exec_emRead_given {s : State} {row col : Dim} {ch : BitVec 2} {u : Nat} (h : emReadable s.enc row col ch = some u) :
    exec (.emAccess .read row col ch) s = .next (s.answer (.emWord u)) := by
  simp only [exec, execEmAccess, h]

theorem exec_emRead_free {s : State} {row col : Dim} {ch : BitVec 2} (h : emReadable s.enc row col ch = none) :
    exec (.emAccess .read row col ch) s = .next (s.answerFree (.emWord (Config.freeEmWord s.free % 2 ^ s.params.coefW))) := by
  simp only [exec, execEmAccess, h]

/-- The host reads EM where it may and has written a word. -/
theorem emReadable_eq_some_iff {e : EncState} {row col : Dim} {ch : BitVec 2} {u : Nat} : emReadable e row col ch = some u ↔
    (e.st ≠ .busy ∧ ch.toNat < 3) ∧ Memory.get e.em (wordAddr row.toNat col.toNat ch.toNat) = some u := by
  rw [emReadable, Option.ite_none_right_eq_some]

/-- A read of EM returns some word, of `COEF_W` bits where EM holds such words. -/
theorem exec_emRead_reads (s : State) (row col : Dim) (ch : BitVec 2) : ∃ u,
    Reads s (.emWord u) (exec (.emAccess .read row col ch) s) ∧ (Memory.emWf s.params s.enc.em = true → u < 2 ^ s.params.coefW) := by
  cases h : emReadable s.enc row col ch with
  | some u =>
    refine ⟨u, ?_, fun hem => Memory.get_lt_of_emWf hem (emReadable_eq_some_iff.mp h).2⟩
    rw [exec_emRead_given h]
    exact .given
  | none =>
    refine ⟨Config.freeEmWord s.free % 2 ^ s.params.coefW, ?_, fun _ => Nat.mod_lt _ (Nat.two_pow_pos _)⟩
    rw [exec_emRead_free h]
    exact .free

/-- Settles O46: a write is `EncState.setWord`, a read is `exec_emRead_given` where the word is readable, and `exec_emRead_reads` in every state. -/
theorem matrixStoreAccess : Obligations.MatrixStoreAccess := by
  intro s row col ch v
  refine ⟨?write, ?ignored, ?readable, ?anyState⟩
  case write =>
    intro hidle hch
    refine ⟨s.enc.setWord s.params v row col ch, rfl, ?_⟩
    rw [EncState.setWord_of_writable _ _ _ _ hidle hch]
    exact ⟨rfl, ⟨_, Memory.get_put_same _ _ _, truncBits_lt _ _, truncBits_sub_emod _ _⟩, fun a ha => Memory.get_put_other _ _ ha⟩
  case ignored =>
    intro h
    simp only [exec, execEmAccess, EncState.setWord_of_ignored _ _ _ _ h]
  case readable =>
    intro u hidle hch hword
    exact exec_emRead_given (emReadable_eq_some_iff.mpr ⟨⟨hidle, hch⟩, hword⟩)
  case anyState =>
    obtain ⟨u, hreads, hwidth⟩ := exec_emRead_reads s row col ch
    obtain ⟨t, hnext, hsame, hdata⟩ := hreads.exists_next
    exact ⟨t, u, hnext, hsame, hdata, hwidth⟩

/-! ### IS (R207) -/

theorem exec_isRead_given {s : State} {a : Pos} {b : Byte} (h : isReadable s.dec a = some b) :
    exec (.isAccess .read a) s = .next (s.answer (.isByte b)) := by
  simp only [exec, execIsAccess, h]

theorem isReadable_eq_some_iff {d : DecState} {a : Pos} {b : Byte} :
    isReadable d a = some b ↔ d.st ≠ .busy ∧ Memory.get d.inp a.toNat = some b := by
  rw [isReadable, Option.ite_none_right_eq_some]

theorem exec_isRead_reads (s : State) (a : Pos) : ∃ b, Reads s (.isByte b) (exec (.isAccess .read a) s) := by
  cases h : isReadable s.dec a with
  | some b => exact ⟨b, by rw [exec_isRead_given h]; exact .given⟩
  | none => exact ⟨_, by simp only [exec, execIsAccess, h]; exact .free⟩

/-- Settles O47: a write is `DecState.setByte`, a read is `exec_isRead_given` where the byte is readable, and `exec_isRead_reads` in every state. -/
theorem inputStreamAccess : Obligations.InputStreamAccess := by
  intro s a v
  refine ⟨?write, ?ignored, ?readable, ?anyState⟩
  case write =>
    intro hidle
    refine ⟨s.dec.setByte v a, rfl, ?_⟩
    rw [DecState.setByte_of_not_busy hidle]
    exact ⟨rfl, Memory.get_put_same _ _ _, fun b hb => Memory.get_put_other _ _ hb⟩
  case ignored =>
    intro hbusy
    simp only [exec, execIsAccess, DecState.setByte_of_busy hbusy]
  case readable => exact fun b hidle hbyte => exec_isRead_given (isReadable_eq_some_iff.mpr ⟨hidle, hbyte⟩)
  case anyState => exact exists_next_of_reads (exec_isRead_reads s a)

/-! ### OS (R208) -/

theorem exec_rdOs_given {s : State} {a : Pos} {b : Byte} (h : osReadable s.enc a = some b) :
    exec (.rdOs a) s = .next (s.answer (.osByte b)) := by
  simp only [exec, execRdOs, h]

theorem osReadable_eq_some_iff {e : EncState} {a : Pos} {b : Byte} :
    osReadable e a = some b ↔ (e.osOpen = false ∧ a.toNat < e.osLen.toNat) ∧ Memory.get e.os a.toNat = some b := by
  rw [osReadable, Option.ite_none_right_eq_some]

theorem exec_rdOs_reads (s : State) (a : Pos) : ∃ b, Reads s (.osByte b) (exec (.rdOs a) s) := by
  cases h : osReadable s.enc a with
  | some b => exact ⟨b, by rw [exec_rdOs_given h]; exact .given⟩
  | none => exact ⟨_, by simp only [exec, execRdOs, h]; exact .free⟩

/-- The run has appended every byte below OS_LEN (R28). -/
theorem EncInv.exists_osByte {p : Params} {e : EncState} (h : EncInv p e) {a : Nat} (ha : a < e.osLen.toNat) :
    ∃ b, Memory.get e.os a = some b := by
  obtain ⟨-, -, -, -, -, hbytes, -, -⟩ := h
  exact Option.isSome_iff_exists.mp (hbytes a ha)

/-- Settles O48: below OS_LEN the invariant gives a byte (`EncInv.exists_osByte`), which a closed stream shows the host. -/
theorem outputStreamRead : Obligations.OutputStreamRead := by
  intro s a
  constructor
  · intro hinv hclosed ha
    obtain ⟨b, hb⟩ := hinv.exists_osByte ha
    exact ⟨b, hb, exec_rdOs_given (osReadable_eq_some_iff.mpr ⟨⟨hclosed, ha⟩, hb⟩)⟩
  · exact exists_next_of_reads (exec_rdOs_reads s a)

/-! ### DM (R209) -/

theorem exec_rdDm_given {s : State} {row col : Dim} {ch : BitVec 2} (h : dmReadable s.dec row col ch = true) :
    exec (.rdDm row col ch) s = .next (s.answer (.dmWord (Memory.getDm s.dec.dm (wordAddr row.toNat col.toNat ch.toNat)))) :=
  if_pos h

theorem exec_rdDm_free {s : State} {row col : Dim} {ch : BitVec 2} (h : dmReadable s.dec row col ch = false) :
    exec (.rdDm row col ch) s = .next (s.answerFree (.dmWord (Config.freeDmWord s.free))) :=
  if_neg (Bool.eq_false_iff.mp h)

theorem dmReadable_iff {d : DecState} {row col : Dim} {ch : BitVec 2} : dmReadable d row col ch = true ↔
    d.dmValid = true ∧ row.toNat < d.h.toNat ∧ col.toNat < d.w.toNat ∧ ch.toNat < channels d.gray := by
  simp only [dmReadable, Bool.and_eq_true, decide_eq_true_eq, and_assoc]

theorem exec_rdDm_reads (s : State) (row col : Dim) (ch : BitVec 2) : ∃ v, Reads s (.dmWord v) (exec (.rdDm row col ch) s) := by
  cases h : dmReadable s.dec row col ch with
  | true => exact ⟨_, by rw [exec_rdDm_given h]; exact .given⟩
  | false => exact ⟨_, by rw [exec_rdDm_free h]; exact .free⟩

/-- Settles O49: the hypotheses are `dmReadable`, and `exec_rdDm_reads` covers every state. -/
theorem destinationMatrixRead : Obligations.DestinationMatrixRead := by
  intro s row col ch
  constructor
  · intro hvalid hrow hcol hch
    exact exec_rdDm_given (dmReadable_iff.mpr ⟨hvalid, hrow, hcol, hch⟩)
  · exact exists_next_of_reads (exec_rdDm_reads s row col ch)

/-! ### The START commands (R200 to R202) -/

section
variable {s : State} (ign : BitVec 63) {v : RegWord}

/-- The write with bit 0 set to register 0 is ENC_START. -/
theorem exec_wr_encStart (hv : v.getLsbD 0 = true) : exec (.wr 0 v) s = exec (.encStart ign) s := if_pos hv

/-- The write with bit 0 set to register 8 is DEC_START. -/
theorem exec_wr_decStart (hv : v.getLsbD 0 = true) : exec (.wr 8 v) s = exec (.decStart ign) s := if_pos hv

theorem exec_encStart_of_busy (hbusy : s.enc.st = .busy) : exec (.encStart ign) s = .next s := by
  simp only [exec, execEncStart, EncState.start_of_busy hbusy]

theorem exec_decStart_of_busy (hbusy : s.dec.st = .busy) : exec (.decStart ign) s = .next s := by
  simp only [exec, execDecStart, DecState.start_of_busy hbusy]

end

theorem DecState.start_started {d : DecState} (hidle : d.st ≠ .busy) : d.start.started := by
  rw [DecState.start_of_not_busy hidle]
  exact ⟨rfl, rfl, rfl, rfl, rfl, rfl, rfl, rfl, rfl, rfl, rfl, rfl, rfl, rfl⟩

/-- START leaves the stream the host has written and the words of DM (R201). -/
theorem DecState.start_memories (d : DecState) : SameDecInputs d d.start ∧ d.start.dm = d.dm := by
  rw [DecState.start]
  split <;> exact ⟨⟨rfl, rfl⟩, rfl⟩

/-- Settles O42: the register write is the command, and the command is `DecState.start`. -/
theorem decoderStart : Obligations.DecoderStart := by
  intro s ign v hv
  refine ⟨(exec_wr_decStart ign hv).symm, exec_decStart_of_busy ign, fun hidle => ?_⟩
  obtain ⟨hinputs, hdm⟩ := s.dec.start_memories
  exact ⟨s.dec.start, rfl, s.dec.start_started hidle, hinputs, hdm⟩

/-- Settles O44: the command is ignored (`exec_encStart_of_busy`, `exec_decStart_of_busy`), and the register write is the command. -/
theorem startWhileBusyIsIgnored : Obligations.StartWhileBusyIsIgnored := by
  constructor
  · intro s ign v hbusy hv
    exact ⟨exec_encStart_of_busy ign hbusy, (exec_wr_encStart ign hv).trans (exec_encStart_of_busy ign hbusy)⟩
  · intro s ign v hbusy hv
    exact ⟨exec_decStart_of_busy ign hbusy, (exec_wr_decStart ign hv).trans (exec_decStart_of_busy ign hbusy)⟩

/-! ### Register writes (R205) -/

theorem exec_wr_dim (s : State) (v : RegWord) : exec (.wr 2 v) s = .next { s with enc := s.enc.setDim v } := rfl

theorem exec_wr_isLen (s : State) (v : RegWord) : exec (.wr 14 v) s = .next { s with dec := s.dec.setLen v } := rfl

section
variable {s : State} {v : RegWord}

theorem exec_wr_encControl_of_clear (hv : v.getLsbD 0 = false) : exec (.wr 0 v) s = .next s := if_neg (Bool.eq_false_iff.mp hv)

theorem exec_wr_decControl_of_clear (hv : v.getLsbD 0 = false) : exec (.wr 8 v) s = .next s := if_neg (Bool.eq_false_iff.mp hv)

/-- A register that is no control register, not E_DIM and not IS_LEN ignores the write. -/
theorem exec_wr_of_ignored {n : BitVec 4} (h0 : n ≠ 0) (h8 : n ≠ 8) (h2 : n ≠ 2) (h14 : n ≠ 14) : exec (.wr n v) s = .next s := by
  simp only [exec, execWr]
  split
  next hn => exact absurd (BitVec.eq_of_toNat_eq hn) h0
  next hn => exact absurd (BitVec.eq_of_toNat_eq hn) h2
  next hn => exact absurd (BitVec.eq_of_toNat_eq hn) h8
  next hn => exact absurd (BitVec.eq_of_toNat_eq hn) h14
  next => rfl

end

/-- A field of a register value as a number. -/
theorem toNat_field (v : RegWord) (start len : Nat) : (v.extractLsb' start len).toNat = v.toNat / 2 ^ start % 2 ^ len := by
  rw [BitVec.extractLsb'_toNat, Nat.shiftRight_eq_div_pow]

theorem toNat_lowField (v : RegWord) (len : Nat) : (v.extractLsb' 0 len).toNat = v.toNat % 2 ^ len := by
  rw [toNat_field, pow_zero, Nat.div_one]

/-- A bit of a register value as a number. -/
theorem getLsbD_iff_div_mod (v : RegWord) (i : Nat) : v.getLsbD i = true ↔ v.toNat / 2 ^ i % 2 = 1 := by
  rw [BitVec.getLsbD, Nat.testBit_eq_decide_div_mod_eq, decide_eq_true_iff]

/-- Settles O43: the control registers are the START commands, E_DIM and IS_LEN are `EncState.setDim` and `DecState.setLen`, every other register ignores the write. -/
theorem registerWrite : Obligations.RegisterWrite := by
  intro s n v
  refine ⟨fun hv => ⟨exec_wr_encStart _ hv, exec_wr_decStart _ hv⟩,
    fun hv => ⟨exec_wr_encControl_of_clear hv, exec_wr_decControl_of_clear hv⟩, exec_wr_of_ignored, ?dimBusy, ?lenBusy, ?dim, ?len⟩
  case dimBusy => exact fun hbusy => by rw [exec_wr_dim, EncState.setDim_of_busy hbusy]
  case lenBusy => exact fun hbusy => by rw [exec_wr_isLen, DecState.setLen_of_busy hbusy]
  case dim =>
    intro hidle
    refine ⟨s.enc.setDim v, exec_wr_dim s v, ?_⟩
    rw [EncState.setDim_of_not_busy hidle]
    exact ⟨toNat_lowField v 16, toNat_field v 16 16, getLsbD_iff_div_mod v 32, rfl⟩
  case len =>
    intro hidle
    refine ⟨s.dec.setLen v, exec_wr_isLen s v, ?_⟩
    rw [DecState.setLen_of_not_busy hidle]
    exact ⟨toNat_lowField v 40, rfl⟩

/-! ### Register reads (R204): the register map of R39 as arithmetic -/

theorem encStatus_toNat (e : EncState) : (encStatus e).toNat =
    e.st.code.toNat + 4 * e.phase.code.toNat + 2 ^ 8 * (errCode e.err).toNat + 2 ^ 16 * e.osOpen.toNat := by
  simp only [encStatus, app_toNat, BitVec.toNat_ofBool, BitVec.toNat_ofNat]
  omega

theorem encDim_toNat (e : EncState) : (encDim e).toNat = e.h.toNat + 2 ^ 16 * e.w.toNat + 2 ^ 32 * e.gray.toNat := by
  simp only [encDim, app_toNat, BitVec.toNat_ofBool, BitVec.toNat_ofNat]
  omega

theorem encCursor_toNat (e : EncState) : (encCursor e).toNat = e.row.toNat + 2 ^ 16 * e.col.toNat := by
  simp only [encCursor, app_toNat, BitVec.toNat_ofNat]
  omega

theorem decStatus_toNat (d : DecState) : (decStatus d).toNat = d.st.code.toNat + 4 * d.phase.code.toNat +
    2 ^ 8 * (errCode d.err).toNat + 2 ^ 16 * d.isOpen.toNat + 2 ^ 17 * d.dmValid.toNat := by
  simp only [decStatus, app_toNat, BitVec.toNat_ofBool, BitVec.toNat_ofNat]
  omega

theorem decHdr_toNat (d : DecState) :
    (decHdr d).toNat = d.h.toNat + 2 ^ 16 * d.w.toNat + 2 ^ 32 * d.shift.toNat + 2 ^ 40 * d.gray.toNat := by
  simp only [decHdr, app_toNat, BitVec.toNat_ofBool, BitVec.toNat_ofNat]
  omega

theorem decCursor_toNat (d : DecState) : (decCursor d).toNat = d.row.toNat + 2 ^ 16 * d.col.toNat := by
  simp only [decCursor, app_toNat, BitVec.toNat_ofNat]
  omega

/-- Settles O45: RD answers `regRead`; each register is one of the layouts above, one field widened, or 0. -/
theorem registerRead : Obligations.RegisterRead := by
  intro s n
  refine ⟨s.answer (.reg (regRead s n)), regRead s n, rfl, s.answer_sameOutsideRead _, s.answer_free _, s.answer_rdata _, ?_⟩
  match n with
  | ⟨0, _⟩ => exact rfl
  | ⟨1, _⟩ => exact encStatus_toNat s.enc
  | ⟨2, _⟩ => exact encDim_toNat s.enc
  | ⟨3, _⟩ => exact BitVec.toNat_setWidth_of_le (by decide : 8 ≤ 64)
  | ⟨4, _⟩ => exact encCursor_toNat s.enc
  | ⟨5, _⟩ => exact BitVec.toNat_setWidth_of_le (by decide : 32 ≤ 64)
  | ⟨6, _⟩ => exact BitVec.toNat_setWidth_of_le (by decide : 40 ≤ 64)
  | ⟨7, _⟩ => exact rfl
  | ⟨8, _⟩ => exact rfl
  | ⟨9, _⟩ => exact decStatus_toNat s.dec
  | ⟨10, _⟩ => exact decHdr_toNat s.dec
  | ⟨11, _⟩ => exact decCursor_toNat s.dec
  | ⟨12, _⟩ => exact BitVec.toNat_setWidth_of_le (by decide : 32 ≤ 64)
  | ⟨13, _⟩ => exact BitVec.toNat_setWidth_of_le (by decide : 40 ≤ 64)
  | ⟨14, _⟩ => exact BitVec.toNat_setWidth_of_le (by decide : 40 ≤ 64)
  | ⟨15, _⟩ => exact BitVec.toNat_setWidth_of_le (by decide : 40 ≤ 64)
  | ⟨m + 16, hm⟩ => omega

end Sys2Proof.Machine
end


section
/-! SUPPORT. Exceptions (60_exceptions): the error step as an instruction, IoFailure of ENC and MalformedHeader of DEC. What an error step writes is
`raise_encRaised` and `raise_decRaised`; here is when each of these errors is raised. -/

namespace Sys2Proof.Machine

/-! ### The error step (R222) -/

/-- An error of DEC is raised by DEC, at the position given (R215, R228). -/
theorem exec_errorStep_of_dec {s : State} {x : ErrKind} (p : Pos) (hx : x = .malformedHeader ∨ x = .truncatedEntry ∨ x = .shapeMismatch)
    (hbusy : s.dec.st = .busy) : exec (.errorStep x p) s = .next { s with dec := s.dec.raise x p } := by
  obtain rfl | rfl | rfl := hx <;> exact if_pos hbusy

/-- An error of ENC is raised by ENC, which has no position (R215, R223, R228). -/
theorem exec_errorStep_of_enc {s : State} {x : ErrKind} (p : Pos) (hx : x = .unrepresentableMagnitude ∨ x = .ioFailure)
    (hbusy : s.enc.st = .busy) : exec (.errorStep x p) s = .next { s with enc := s.enc.raise x } := by
  obtain rfl | rfl := hx <;> exact if_pos hbusy

/-- Settles O50: the error step raises in the unit that owns the error. -/
theorem errorStepWritesTheErrorRecord : Obligations.ErrorStepWritesTheErrorRecord := fun _ x p =>
  ⟨fun hx hbusy => ⟨_, exec_errorStep_of_dec p hx hbusy, raise_decRaised _ x p⟩,
    fun hx hbusy => ⟨_, exec_errorStep_of_enc p hx hbusy, raise_encRaised _ x⟩⟩

/-! ### IoFailure (R68, R221) -/

theorem overCap_of_lt {p : Params} {e : EncState} {cap n : Nat} (hcap : p.osCap = some cap) (h : cap < e.osLen.toNat + n) :
    overCap p e n = true := by
  rw [overCap, hcap]
  exact decide_eq_true h

/-- The entry was built but does not fit. -/
theorem emitEntry_of_full {p : Params} {e : EncState} {bs : List Byte} (hfull : overCap p e bs.length = true) :
    emitEntry p e (some bs) = e.raise .ioFailure := if_pos hfull

/-- Settles O25: the capacity is passed, so the HEADER step is `encHeaderStep_of_full` and the ENTRY step `emitEntry_of_full`. -/
theorem fullOutputRaisesIoFailure : Obligations.FullOutputRaisesIoFailure := by
  refine ⟨fun s cap hcap hbusy hphase hlt => ?header, fun s cap pix bs hcap hin hpix hbs hlt => ?entry⟩
  case header =>
    have hraise := encHeaderStep_of_full hbusy hphase (overCap_of_lt hcap hlt)
    refine ⟨encHeaderStep s.params s.enc, rfl, rfl, ?_⟩
    rw [hraise]
    exact raise_encRaised _ _
  case entry =>
    refine ⟨_, exec_encEntry_of_pixel hin hpix, ?_⟩
    rw [hbs, emitEntry_of_full (overCap_of_lt hcap hlt)]
    exact raise_encRaised _ _

/-! ### MalformedHeader (R217) -/

/-- A header is not legal exactly when its area is zero or its isGrayscale byte is above 1 (R93). -/
theorem headerLegal_eq_false_iff {h w : Dim} {g : Byte} : headerLegal h w g = false ↔ h.toNat * w.toNat = 0 ∨ 1 < g.toNat := by
  rw [headerLegal, Bool.and_eq_false_iff, decide_eq_false_iff_not, decide_eq_false_iff_not, not_ne_iff, Nat.not_le]

/-- Settles O36: a short stream is `exec_decHeader_of_short`; an illegal header record raises (`exec_hdr_of_illegal`), and DEC.HEADER runs the
record whose bytes it reads. -/
theorem malformedHeaderRaises : Obligations.MalformedHeaderRaises := by
  refine ⟨fun s hbusy hphase hshort => ?short, fun s h w k g hbusy hphase hlen hbad => ?illegal⟩
  case short => exact ⟨_, exec_decHeader_of_short hbusy hphase hshort, raise_decRaised _ _ _⟩
  case illegal =>
    have hraise := exec_hdr_of_illegal hbusy hphase (k := k) (headerLegal_eq_false_iff.mpr hbad)
    exact ⟨_, hraise, raise_decRaised _ _ _, fun hbytes => (exec_decHeader_of_bytes hbusy hphase hlen hbytes).trans hraise⟩

end Sys2Proof.Machine
end

section
/-! SUPPORT. One step of the machine (00_scope sections 4 and 6), reset (10_state section 9, 70_reset_and_hazards), ENC's START (45_host_commands), and records
written out from the spec. A step is reduced to the event at the head of the host's queue once the host is the agent that moves. -/

namespace Sys2Proof.Machine

/-! ### The agent that moves -/

/-- Settles O7: the cases are those of `stepKind`. -/
theorem stepIsOneAgentsMove : Obligations.StepIsOneAgentsMove := by
  intro s hlegal
  cases stepKind hlegal with
  | idle hpending henc hdec hstep => exact .inl ⟨hpending, henc, hdec, hstep⟩
  | enc n hn hbusy hstep => exact .inr ⟨n, hn, .inl ⟨hbusy, hstep⟩⟩
  | dec n hn hbusy hstep => exact .inr ⟨n, hn, .inr (.inl ⟨hbusy, hstep⟩)⟩
  | access n hn a rest hpending hstep => exact .inr ⟨n, hn, .inr (.inr (.inl ⟨a, rest, hpending, hstep⟩))⟩
  | reset n hn rest hpending hstep => exact .inr ⟨n, hn, .inr (.inr (.inr ⟨rest, hpending, hstep⟩))⟩

/-- The choice of an agent changes the free-value counter and nothing else. -/
theorem exists_free_of_chooseAgent {s t : State} {a : Agent} (h : chooseAgent s = (some a, t)) : ∃ n, t = { s with free := n } := by
  obtain ⟨-, hnone⟩ | ⟨b, n, -, -, hsome⟩ := chooseAgent_spec s
  · cases hnone.symm.trans h
  · cases hsome.symm.trans h
    exact ⟨n, rfl⟩

/-- With no unit BUSY the host is the only agent that can move, so no free value is drawn. -/
theorem chooseAgent_host {s : State} (hpending : s.host.pending ≠ []) (henc : s.enc.st ≠ .busy) (hdec : s.dec.st ≠ .busy) :
    chooseAgent s = (some .host, s) := by
  have honly : enabledAgents s = [.host] := by
    rw [enabledAgents, if_neg hpending, if_neg henc, if_neg hdec]
    rfl
  rw [chooseAgent, honly]

section
variable {s t : State} {rest : List HostEvent} (hlegal : s.params.legal = true) (hhost : chooseAgent s = (some .host, t))
include hlegal hhost

/-- The host's access leaves the queue and its instruction runs (R74). -/
theorem step_of_host_access {a : HostAccess} (hpending : t.host.pending = .access a :: rest) :
    step s = exec (decodeHost a) { t with host := { t.host with pending := rest } } := by
  simp only [step, hlegal, nextMove, hhost, agentMove, hpending, Bool.true_eq_false, if_false]

/-- The host's reset leaves the queue and is applied (R245). -/
theorem step_of_host_reset (hpending : t.host.pending = .reset :: rest) :
    step s = .next (applyReset { t with host := { t.host with pending := rest } }) := by
  simp only [step, hlegal, nextMove, hhost, agentMove, hpending, Bool.true_eq_false, if_false]

end

/-- Settles O9: the host is the agent that moves (`chooseAgent_host`), and its oldest event is the access. -/
theorem stepRunsTheOldestHostAccess : Obligations.StepRunsTheOldestHostAccess := by
  intro s a rest hlegal henc hdec hpending
  have hhost : chooseAgent s = (some .host, s) := chooseAgent_host (by simp [hpending]) henc hdec
  exact step_of_host_access hlegal hhost hpending

/-! ### The parameters (R7) -/

/-- The complement of R7's range. -/
theorem Params.legal_eq_false_iff {p : Params} : p.legal = false ↔ p.coefW ≤ p.frac ∨ 287 < p.coefW - p.frac := by
  rw [Params.legal, Bool.and_eq_false_iff, decide_eq_false_iff_not, decide_eq_false_iff_not, Nat.not_lt, Nat.not_le]

/-- Settles O12: the refusal is the first test of a step (U16). -/
theorem illegalParametersAreRefused : Obligations.IllegalParametersAreRefused :=
  fun _ hrange => if_pos (Params.legal_eq_false_iff.mpr hrange)

/-! ### Reset (R46, R245, R246) -/

/-- Settles O6: the choice touches the free-value counter alone, so the event the host takes is the reset, whatever the units are doing. -/
theorem resetEndsAnyRun : Obligations.ResetEndsAnyRun := by
  intro s rest hlegal hpending
  refine ⟨fun t hhost => ?taken, fun henc hdec => chooseAgent_host (by simp [hpending]) henc hdec⟩
  case taken =>
    obtain ⟨n, rfl⟩ := exists_free_of_chooseAgent hhost
    exact step_of_host_reset hlegal hhost hpending

/-- Settles O5: the registers are those of `EncState.initial` and `DecState.initial`, and each memory is the empty list, which lists no address. -/
theorem resetRegistersAreZero : Obligations.ResetRegistersAreZero := by
  refine ⟨?enc, ?dec, fun a => ?memories⟩
  case enc => exact ⟨rfl, rfl, rfl, rfl, rfl, rfl, rfl, rfl, rfl, rfl, rfl, rfl⟩
  case dec => exact ⟨rfl, rfl, rfl, rfl, rfl, rfl, rfl, rfl, rfl, rfl, rfl, rfl, rfl, rfl, rfl⟩
  case memories => exact ⟨rfl, rfl, rfl⟩

/-- Settles O54: both units are in their reset states. -/
theorem invariantHoldsAtReset : Obligations.InvariantHoldsAtReset := ⟨EncInv.initial _, DecInv.initial⟩

/-! ### ENC's START (R200, R202) -/

theorem EncState.start_started {e : EncState} (hidle : e.st ≠ .busy) : e.start.started := by
  rw [EncState.start_of_not_busy hidle]
  exact ⟨rfl, rfl, rfl, rfl, rfl, rfl, rfl, rfl, rfl⟩

/-- START leaves the configuration, the words of EM and the bytes of OS (R200, log 14). -/
theorem EncState.start_memories (e : EncState) : SameEncInputs e e.start ∧ e.start.os = e.os := by
  rw [EncState.start]
  split <;> exact ⟨⟨rfl, rfl, rfl, rfl⟩, rfl⟩

/-- Settles O41: the register write is the command, and the command is `EncState.start`. -/
theorem encoderStart : Obligations.EncoderStart := by
  intro s ign v hv
  refine ⟨(exec_wr_encStart ign hv).symm, exec_encStart_of_busy ign, fun hidle => ?_⟩
  obtain ⟨hinputs, hos⟩ := s.enc.start_memories
  exact ⟨s.enc.start, rfl, s.enc.start_started hidle, hinputs, hos⟩

/-! ### Records written out from the spec (30_encoding) -/

/-- Bytes that begin with the encoding of an entry of the mode decode to that entry. -/
theorem decode_of_eq_encodeEntry {gray : Bool} {bs rest : List Byte} (en : Entry) (hbytes : bs = encodeEntry en ++ rest)
    (hmode : en.inMode gray = true) : decode (.entry gray) bs = .ok (en.instr, rest) := by
  rw [hbytes, decode_encodeEntry hmode]

/-- Settles O4: each sample is the encoding of its record, which decodes back (`decode_encodeHeader`, `decode_of_eq_encodeEntry`); the last one leaves
the byte after the record. -/
theorem sampleRecordsDecode : Obligations.SampleRecordsDecode := by
  refine ⟨?header, ?gray, ?greenBlue, ?blue, ?noChannel⟩
  case header =>
    have hbytes : encodeHeader 2 2 0 1 ++ [] = [0x02, 0x00, 0x02, 0x00, 0x00, 0x01] := by decide
    exact hbytes ▸ decode_encodeHeader 2 2 0 1 []
  case gray => exact decode_of_eq_encodeEntry (.g 0 0 1000) (by decide) rfl
  case greenBlue => exact decode_of_eq_encodeEntry (.cGB 0 1 2) (by decide) rfl
  case blue => exact decode_of_eq_encodeEntry (.cB 0xF 0xFFFFFFFF) (by decide) rfl
  case noChannel => exact decode_of_eq_encodeEntry (.c0 0) (by decide) rfl

end Sys2Proof.Machine
end
